-- ==== Sys2Proof/Word.lean ====
section
/-! DEFINITION. The two widths of the engine: bytes and 32-bit register values (00_scope R8). -/

namespace Sys2Proof

/-- A byte, 8 bits (00_scope R8, 20_memory R61). -/
abbrev Byte := BitVec 8

/-- A register value or a command word, 32 bits, bit 0 least significant (00_scope R8). -/
abbrev Word := BitVec 32

end Sys2Proof
end

