-- ==== Sys2Proof/Syntax.lean ====
section
/-! DEFINITION. The commands (30_encoding R93), the host transactions (42_control_and_host R183), the values that
read transactions return, and the names of the registers. -/

namespace Sys2Proof

/-- The eight commands, one constructor per row of the opcode map (30_encoding R93). No command has an operand
(30_encoding R94). -/
inductive Instr where
  /-- `NOP` (42_control_and_host R180). -/
  | nop
  /-- `DECRYPT` (40_cipher_commands R120). -/
  | decrypt
  /-- `CBC_DEC` (40_cipher_commands R116). -/
  | cbcDec
  /-- `XOR_EXP` (40_cipher_commands R119). -/
  | xorExp
  /-- `PARSE_HDR` (41_container_commands R142). -/
  | parseHdr
  /-- `NEXT` (41_container_commands R146). -/
  | next
  /-- `SCAN` (41_container_commands R156). -/
  | scan
  /-- `CLEAR` (42_control_and_host R181). -/
  | clear
  deriving DecidableEq, Repr

/-- The nine host transactions (42_control_and_host R183). Addresses and offsets are the index inside the space
(20_memory R71), so they have no width of their own. -/
inductive Transaction where
  /-- `HwReset` (R190). -/
  | hwReset
  /-- `RegRead(off)` (R184). -/
  | regRead (off : Nat)
  /-- `RegWrite(off, v)` (R185); at offset 0 it carries a command word. -/
  | regWrite (off : Nat) (v : Word)
  /-- `RawWrite(a, b)` (R186). -/
  | rawWrite (a : Nat) (b : Byte)
  /-- `RawRead(a)` (R186). -/
  | rawRead (a : Nat)
  /-- `DecWrite(a, b)` (R187). -/
  | decWrite (a : Nat) (b : Byte)
  /-- `DecRead(a)` (R187). -/
  | decRead (a : Nat)
  /-- `KeyWrite(i, b)` (R188). -/
  | keyWrite (i : Nat) (b : Byte)
  /-- `SeedWrite(i, b)` (R189). -/
  | seedWrite (i : Nat) (b : Byte)
  deriving DecidableEq, Repr

/-- What a read transaction returns to the host (42_control_and_host R184, R186, R187). -/
inductive Reply where
  /-- The 32-bit value of a `RegRead`. -/
  | word (v : Word)
  /-- The byte of a `RawRead` or a `DecRead`. -/
  | byte (b : Byte)
  deriving DecidableEq, Repr

/-- The names of the registers of space REG (10_state, section 2), as host programs write them (30_encoding R98). -/
inductive RegName where
  /-- `CMD`, offset 0x00. -/
  | cmd
  /-- `STATUS`, offset 0x04. -/
  | status
  /-- `LEN`, offset 0x08. -/
  | len
  /-- `XLEN`, offset 0x0C. -/
  | xlen
  /-- `COUNT`, offset 0x10. -/
  | count
  /-- `TABOFF`, offset 0x14. -/
  | tabOff
  /-- `DATAOFF`, offset 0x18. -/
  | dataOff
  /-- `CUR`, offset 0x1C. -/
  | cur
  /-- `IDX`, offset 0x20. -/
  | idx
  /-- `E_PATHOFF`, offset 0x24. -/
  | ePathOff
  /-- `E_PATHLEN`, offset 0x28. -/
  | ePathLen
  /-- `E_OFF`, offset 0x2C. -/
  | eOff
  /-- `E_LEN`, offset 0x30. -/
  | eLen
  /-- `E_START`, offset 0x34. -/
  | eStart
  /-- `ERRINFO`, offset 0x38. -/
  | errInfo
  deriving DecidableEq, Repr

end Sys2Proof
end

