-- ==== Sys2Proof/Config.lean ====
section
/-! DEFINITION. The configuration record `CFG` (00_scope R6) and what the spec leaves OPEN, as opaque constants. -/

namespace Sys2Proof

/-- The implementation parameters (00_scope R6); "Not state, but parameters of the step relation" (10_state R21).
Which records are configurations of this hardware at all is `Cfg.WellFormed`. -/
structure Cfg where
  /-- `BLK`: block size of the block cipher, in bytes. -/
  blk : Nat
  /-- `KEY_LEN`: length of the cipher key, in bytes. -/
  keyLen : Nat
  /-- `BlockDec`: single-block decryption, key first, then the block (43_block_cipher_aes R200). -/
  blockDec : List Byte → List Byte → List Byte
  /-- `HDR`: size in bytes of the region the block cipher decrypts. -/
  hdr : Nat
  /-- `IV_CONST`: the hardwired initialization vector. -/
  ivConst : List Byte
  /-- `MAGIC`: the expected magic marker. -/
  magic : List Byte
  /-- `XSEED_MAX`: capacity of the keystream seed store, in bytes. -/
  xseedMax : Nat
  /-- `BUF_MAX`: capacity in bytes of RAW and of DEC. -/
  bufMax : Nat
  /-- `HEADER_SIZE`: size of the container header, in bytes. -/
  headerSize : Nat
  /-- `ENTRY_MIN`: size of a TOC entry with an empty path, in bytes. -/
  entryMin : Nat

namespace Config

/-- Byte `i` of `IV_CONST`: OPEN, "a model argument" (92_eei_decisions D9; log 5). -/
opaque ivByte : Nat → Byte

/-- How far `BUF_MAX` lies above `HDR = 1024`: OPEN with `HDR <= BUF_MAX <= 2^32 - 1` (92_eei_decisions D4;
00_scope R7; log 6). -/
opaque bufMaxAboveHdr : Fin 4294966272

/-- FREE VALUE (log 3): the byte of RAW at an address that nothing has written since the given hardware reset
(counted from 0). "each byte holds some value, the same value on every read until written, and no rule says
which" (10_state R34, 93_implementation_defined U1). -/
opaque rawAfterReset : Nat → Nat → Byte

/-- FREE VALUE (log 3): the same for DEC (10_state R35). -/
opaque decAfterReset : Nat → Nat → Byte

end Config

end Sys2Proof
end

