-- ==== Sys2Proof/WellFormed.lean ====
section
/-! DEFINITION. What is a command, a transaction and a configuration of this hardware at all. -/

namespace Sys2Proof

/-- Every command is well formed: none has a register field, an immediate or a mode field to check
(30_encoding R91, R94). -/
def Instr.wf : Instr → Bool
  | .nop => true
  | .decrypt => true
  | .cbcDec => true
  | .xorExp => true
  | .parseHdr => true
  | .next => true
  | .scan => true
  | .clear => true

/-- A register transaction names a byte offset that is a multiple of 4; any other is "not a transaction of this
engine" (20_memory R66). Every buffer, key and seed transaction is one, at any index (20_memory R69). -/
def Transaction.wf : Transaction → Bool
  | .hwReset => true
  | .regRead off => off % 4 == 0
  | .regWrite off _ => off % 4 == 0
  | .rawWrite _ _ => true
  | .rawRead _ => true
  | .decWrite _ _ => true
  | .decRead _ => true
  | .keyWrite _ _ => true
  | .seedWrite _ _ => true

/-- The constraints every configuration meets (00_scope R7), in the rule's order. -/
abbrev Cfg.WellFormed (c : Cfg) : Prop :=
  1 ≤ c.blk ∧ c.blk ≤ c.hdr ∧ c.hdr % c.blk = 0 ∧ 1 ≤ c.xseedMax ∧ c.hdr ≤ c.bufMax ∧ c.bufMax ≤ 2 ^ 32 - 1 ∧
    c.ivConst.length = c.blk ∧ c.magic.length = 4 ∧ c.blk ≤ 255

/-- `BlockDec` is a "total function `bytes[KEY_LEN] x bytes[BLK] -> bytes[BLK]`" (00_scope R6). -/
def Cfg.BlockTotal (c : Cfg) : Prop :=
  ∀ key block : List Byte, key.length = c.keyLen → block.length = c.blk → (c.blockDec key block).length = c.blk

end Sys2Proof
end

