-- ==== Sys2Proof/Decode.lean ====
section
/-! DEFINITION. The command decoder and encoder (30_encoding R90 to R95). A command is one 32-bit number written whole
to CMD (20_memory R64), so there is no byte order and no length to find. -/

namespace Sys2Proof

/-- Why a word is no command (30_encoding R95). -/
inductive DecodeError where
  /-- A bit of `RSVZ`, [31:8], is set. -/
  | reservedBits (rsvz : BitVec 24)
  /-- `RSVZ` is zero and the opcode is not in the opcode map. -/
  | unassignedOpcode (opc : Byte)
  deriving DecidableEq, Repr

/-- Field `RSVZ` of format `C0`, bits [31:8] (30_encoding R91). -/
def rsvz (w : Word) : BitVec 24 := w.extractLsb' 8 24

/-- Field `OPC` of format `C0`, bits [7:0] (30_encoding R91). -/
def opc (w : Word) : Byte := w.extractLsb' 0 8

/-- The opcode map (30_encoding R93). -/
def opcodeMap : List (Byte × Instr) :=
  [(0x00#8, .nop), (0x01#8, .decrypt), (0x02#8, .cbcDec), (0x03#8, .xorExp),
   (0x10#8, .parseHdr), (0x11#8, .next), (0x12#8, .scan), (0x7F#8, .clear)]

/-- The decoder (30_encoding R92): total, every word exactly one command or illegal. -/
def decode (w : Word) : Except DecodeError Instr :=
  if rsvz w = 0#24 then
    match opcodeMap.lookup (opc w) with
    | some i => .ok i
    | none => .error (.unassignedOpcode (opc w))
  else .error (.reservedBits (rsvz w))

/-- The word of each command (30_encoding R93, column "Word"). -/
def encode : Instr → Word
  | .nop => 0x00000000#32
  | .decrypt => 0x00000001#32
  | .cbcDec => 0x00000002#32
  | .xorExp => 0x00000003#32
  | .parseHdr => 0x00000010#32
  | .next => 0x00000011#32
  | .scan => 0x00000012#32
  | .clear => 0x0000007F#32

/-- The number whose low `nbits` bits are those of `w`, as the table numbers bits, the rest zero. -/
def tableBits (nbits w : Nat) : Nat := w % 2 ^ nbits

/-- The command the decoder reads from a word given as the opcode table numbers its bits; a number that needs more
than 32 bits is no command word (30_encoding R90; log 14). -/
def decodeTableWord (nbits w : Nat) : Option Instr :=
  if tableBits nbits w < 2 ^ 32 then
    match decode (BitVec.ofNat 32 (tableBits nbits w)) with
    | .ok i => some i
    | .error _ => none
  else none

end Sys2Proof
end

