-- ==== Sys2Proof/Machine/Aes.lean ====
section
/-! DEFINITION. The block cipher primitive `BlockDec`, the inverse cipher of AES with a 256-bit key, and its inverse
`BlockEnc` (43_block_cipher_aes R200 to R210). -/

namespace Sys2Proof.Machine.Aes

/-! ### Data layout -/

/-- A word of 4 bytes, or one column of the cipher state, rows 0 to 3 in order (R201). -/
structure Col where
  /-- Row 0. -/
  a0 : Byte
  /-- Row 1. -/
  a1 : Byte
  /-- Row 2. -/
  a2 : Byte
  /-- Row 3. -/
  a3 : Byte
  deriving DecidableEq, Repr

/-- The 4 by 4 cipher state as its four columns (R201). -/
structure Block where
  /-- Column 0: bytes 0 to 3 of the block. -/
  c0 : Col
  /-- Column 1: bytes 4 to 7. -/
  c1 : Col
  /-- Column 2: bytes 8 to 11. -/
  c2 : Col
  /-- Column 3: bytes 12 to 15. -/
  c3 : Col
  deriving DecidableEq, Repr

/-- The word of bytes `4i .. 4i+3` of a byte string; a missing byte counts as 0 (no key or block of the engine misses
one, log 12). -/
def colAt (v : List Byte) (i : Nat) : Col :=
  { a0 := v.getD (4 * i) 0, a1 := v.getD (4 * i + 1) 0, a2 := v.getD (4 * i + 2) 0, a3 := v.getD (4 * i + 3) 0 }

/-- The state of a 16-byte block, filled column by column: `s[r][c] = in[r + 4*c]` (R201). -/
def ofBytes (v : List Byte) : Block := { c0 := colAt v 0, c1 := colAt v 1, c2 := colAt v 2, c3 := colAt v 3 }

/-- The bytes of a column, row 0 first. -/
def Col.bytes (c : Col) : List Byte := [c.a0, c.a1, c.a2, c.a3]

/-- The block of a state: `out[r + 4*c] = s[r][c]` (R201). -/
def toBytes (s : Block) : List Byte := s.c0.bytes ++ s.c1.bytes ++ s.c2.bytes ++ s.c3.bytes

/-- The zero word. -/
def Col.zero : Col := { a0 := 0, a1 := 0, a2 := 0, a3 := 0 }

/-- Addition of words, byte by byte (R202). -/
def Col.add (u v : Col) : Col :=
  { a0 := u.a0 ^^^ v.a0, a1 := u.a1 ^^^ v.a1, a2 := u.a2 ^^^ v.a2, a3 := u.a3 ^^^ v.a3 }

/-- The same function on each byte of a word. -/
def Col.map (f : Byte → Byte) (u : Col) : Col := { a0 := f u.a0, a1 := f u.a1, a2 := f u.a2, a3 := f u.a3 }

/-- The same function on each column of a state. -/
def Block.map (f : Col → Col) (s : Block) : Block := { c0 := f s.c0, c1 := f s.c1, c2 := f s.c2, c3 := f s.c3 }

/-! ### Field arithmetic -/

/-- `xtime(a)` (R202). -/
def xtime (a : Byte) : Byte := if a.toNat < 0x80 then a <<< 1 else (a <<< 1) ^^^ 0x1B#8

/-- `xtime^i(a)` (R202). -/
def xtimePow : Nat → Byte → Byte
  | 0, a => a
  | i + 1, a => xtime (xtimePow i a)

/-- The `xor` of `xtime^i(a)` over every bit `i < n` set in `b`. -/
def mulBits : Nat → Byte → Byte → Byte
  | 0, _, _ => 0x00#8
  | n + 1, a, b => mulBits n a b ^^^ (if b.getLsbD n then xtimePow n a else 0x00#8)

/-- The product `a * b` of the field GF(2^8) with polynomial 0x11B (R202). -/
def mul (a b : Byte) : Byte := mulBits 8 a b

/-! ### Substitution tables -/

/-- `SBox` as the spec tabulates it, a row for each high digit (R203). -/
def sboxRows : List (List Byte) :=
  [[0x63#8, 0x7C#8, 0x77#8, 0x7B#8, 0xF2#8, 0x6B#8, 0x6F#8, 0xC5#8, 0x30#8, 0x01#8, 0x67#8, 0x2B#8, 0xFE#8, 0xD7#8, 0xAB#8, 0x76#8],
   [0xCA#8, 0x82#8, 0xC9#8, 0x7D#8, 0xFA#8, 0x59#8, 0x47#8, 0xF0#8, 0xAD#8, 0xD4#8, 0xA2#8, 0xAF#8, 0x9C#8, 0xA4#8, 0x72#8, 0xC0#8],
   [0xB7#8, 0xFD#8, 0x93#8, 0x26#8, 0x36#8, 0x3F#8, 0xF7#8, 0xCC#8, 0x34#8, 0xA5#8, 0xE5#8, 0xF1#8, 0x71#8, 0xD8#8, 0x31#8, 0x15#8],
   [0x04#8, 0xC7#8, 0x23#8, 0xC3#8, 0x18#8, 0x96#8, 0x05#8, 0x9A#8, 0x07#8, 0x12#8, 0x80#8, 0xE2#8, 0xEB#8, 0x27#8, 0xB2#8, 0x75#8],
   [0x09#8, 0x83#8, 0x2C#8, 0x1A#8, 0x1B#8, 0x6E#8, 0x5A#8, 0xA0#8, 0x52#8, 0x3B#8, 0xD6#8, 0xB3#8, 0x29#8, 0xE3#8, 0x2F#8, 0x84#8],
   [0x53#8, 0xD1#8, 0x00#8, 0xED#8, 0x20#8, 0xFC#8, 0xB1#8, 0x5B#8, 0x6A#8, 0xCB#8, 0xBE#8, 0x39#8, 0x4A#8, 0x4C#8, 0x58#8, 0xCF#8],
   [0xD0#8, 0xEF#8, 0xAA#8, 0xFB#8, 0x43#8, 0x4D#8, 0x33#8, 0x85#8, 0x45#8, 0xF9#8, 0x02#8, 0x7F#8, 0x50#8, 0x3C#8, 0x9F#8, 0xA8#8],
   [0x51#8, 0xA3#8, 0x40#8, 0x8F#8, 0x92#8, 0x9D#8, 0x38#8, 0xF5#8, 0xBC#8, 0xB6#8, 0xDA#8, 0x21#8, 0x10#8, 0xFF#8, 0xF3#8, 0xD2#8]] ++
  [[0xCD#8, 0x0C#8, 0x13#8, 0xEC#8, 0x5F#8, 0x97#8, 0x44#8, 0x17#8, 0xC4#8, 0xA7#8, 0x7E#8, 0x3D#8, 0x64#8, 0x5D#8, 0x19#8, 0x73#8],
   [0x60#8, 0x81#8, 0x4F#8, 0xDC#8, 0x22#8, 0x2A#8, 0x90#8, 0x88#8, 0x46#8, 0xEE#8, 0xB8#8, 0x14#8, 0xDE#8, 0x5E#8, 0x0B#8, 0xDB#8],
   [0xE0#8, 0x32#8, 0x3A#8, 0x0A#8, 0x49#8, 0x06#8, 0x24#8, 0x5C#8, 0xC2#8, 0xD3#8, 0xAC#8, 0x62#8, 0x91#8, 0x95#8, 0xE4#8, 0x79#8],
   [0xE7#8, 0xC8#8, 0x37#8, 0x6D#8, 0x8D#8, 0xD5#8, 0x4E#8, 0xA9#8, 0x6C#8, 0x56#8, 0xF4#8, 0xEA#8, 0x65#8, 0x7A#8, 0xAE#8, 0x08#8],
   [0xBA#8, 0x78#8, 0x25#8, 0x2E#8, 0x1C#8, 0xA6#8, 0xB4#8, 0xC6#8, 0xE8#8, 0xDD#8, 0x74#8, 0x1F#8, 0x4B#8, 0xBD#8, 0x8B#8, 0x8A#8],
   [0x70#8, 0x3E#8, 0xB5#8, 0x66#8, 0x48#8, 0x03#8, 0xF6#8, 0x0E#8, 0x61#8, 0x35#8, 0x57#8, 0xB9#8, 0x86#8, 0xC1#8, 0x1D#8, 0x9E#8],
   [0xE1#8, 0xF8#8, 0x98#8, 0x11#8, 0x69#8, 0xD9#8, 0x8E#8, 0x94#8, 0x9B#8, 0x1E#8, 0x87#8, 0xE9#8, 0xCE#8, 0x55#8, 0x28#8, 0xDF#8],
   [0x8C#8, 0xA1#8, 0x89#8, 0x0D#8, 0xBF#8, 0xE6#8, 0x42#8, 0x68#8, 0x41#8, 0x99#8, 0x2D#8, 0x0F#8, 0xB0#8, 0x54#8, 0xBB#8, 0x16#8]]

/-- `InvSBox` as the spec tabulates it (R203). -/
def invSboxRows : List (List Byte) :=
  [[0x52#8, 0x09#8, 0x6A#8, 0xD5#8, 0x30#8, 0x36#8, 0xA5#8, 0x38#8, 0xBF#8, 0x40#8, 0xA3#8, 0x9E#8, 0x81#8, 0xF3#8, 0xD7#8, 0xFB#8],
   [0x7C#8, 0xE3#8, 0x39#8, 0x82#8, 0x9B#8, 0x2F#8, 0xFF#8, 0x87#8, 0x34#8, 0x8E#8, 0x43#8, 0x44#8, 0xC4#8, 0xDE#8, 0xE9#8, 0xCB#8],
   [0x54#8, 0x7B#8, 0x94#8, 0x32#8, 0xA6#8, 0xC2#8, 0x23#8, 0x3D#8, 0xEE#8, 0x4C#8, 0x95#8, 0x0B#8, 0x42#8, 0xFA#8, 0xC3#8, 0x4E#8],
   [0x08#8, 0x2E#8, 0xA1#8, 0x66#8, 0x28#8, 0xD9#8, 0x24#8, 0xB2#8, 0x76#8, 0x5B#8, 0xA2#8, 0x49#8, 0x6D#8, 0x8B#8, 0xD1#8, 0x25#8],
   [0x72#8, 0xF8#8, 0xF6#8, 0x64#8, 0x86#8, 0x68#8, 0x98#8, 0x16#8, 0xD4#8, 0xA4#8, 0x5C#8, 0xCC#8, 0x5D#8, 0x65#8, 0xB6#8, 0x92#8],
   [0x6C#8, 0x70#8, 0x48#8, 0x50#8, 0xFD#8, 0xED#8, 0xB9#8, 0xDA#8, 0x5E#8, 0x15#8, 0x46#8, 0x57#8, 0xA7#8, 0x8D#8, 0x9D#8, 0x84#8],
   [0x90#8, 0xD8#8, 0xAB#8, 0x00#8, 0x8C#8, 0xBC#8, 0xD3#8, 0x0A#8, 0xF7#8, 0xE4#8, 0x58#8, 0x05#8, 0xB8#8, 0xB3#8, 0x45#8, 0x06#8],
   [0xD0#8, 0x2C#8, 0x1E#8, 0x8F#8, 0xCA#8, 0x3F#8, 0x0F#8, 0x02#8, 0xC1#8, 0xAF#8, 0xBD#8, 0x03#8, 0x01#8, 0x13#8, 0x8A#8, 0x6B#8]] ++
  [[0x3A#8, 0x91#8, 0x11#8, 0x41#8, 0x4F#8, 0x67#8, 0xDC#8, 0xEA#8, 0x97#8, 0xF2#8, 0xCF#8, 0xCE#8, 0xF0#8, 0xB4#8, 0xE6#8, 0x73#8],
   [0x96#8, 0xAC#8, 0x74#8, 0x22#8, 0xE7#8, 0xAD#8, 0x35#8, 0x85#8, 0xE2#8, 0xF9#8, 0x37#8, 0xE8#8, 0x1C#8, 0x75#8, 0xDF#8, 0x6E#8],
   [0x47#8, 0xF1#8, 0x1A#8, 0x71#8, 0x1D#8, 0x29#8, 0xC5#8, 0x89#8, 0x6F#8, 0xB7#8, 0x62#8, 0x0E#8, 0xAA#8, 0x18#8, 0xBE#8, 0x1B#8],
   [0xFC#8, 0x56#8, 0x3E#8, 0x4B#8, 0xC6#8, 0xD2#8, 0x79#8, 0x20#8, 0x9A#8, 0xDB#8, 0xC0#8, 0xFE#8, 0x78#8, 0xCD#8, 0x5A#8, 0xF4#8],
   [0x1F#8, 0xDD#8, 0xA8#8, 0x33#8, 0x88#8, 0x07#8, 0xC7#8, 0x31#8, 0xB1#8, 0x12#8, 0x10#8, 0x59#8, 0x27#8, 0x80#8, 0xEC#8, 0x5F#8],
   [0x60#8, 0x51#8, 0x7F#8, 0xA9#8, 0x19#8, 0xB5#8, 0x4A#8, 0x0D#8, 0x2D#8, 0xE5#8, 0x7A#8, 0x9F#8, 0x93#8, 0xC9#8, 0x9C#8, 0xEF#8],
   [0xA0#8, 0xE0#8, 0x3B#8, 0x4D#8, 0xAE#8, 0x2A#8, 0xF5#8, 0xB0#8, 0xC8#8, 0xEB#8, 0xBB#8, 0x3C#8, 0x83#8, 0x53#8, 0x99#8, 0x61#8],
   [0x17#8, 0x2B#8, 0x04#8, 0x7E#8, 0xBA#8, 0x77#8, 0xD6#8, 0x26#8, 0xE1#8, 0x69#8, 0x14#8, 0x63#8, 0x55#8, 0x21#8, 0x0C#8, 0x7D#8]]

/-- The entry of a table at the row of the argument's high digit and the column of its low digit (R203). -/
def tableAt (rows : List (List Byte)) (a : Byte) : Byte := (rows.getD (a.toNat / 16) []).getD (a.toNat % 16) 0

/-- `SBox` (R203). -/
def sbox (a : Byte) : Byte := tableAt sboxRows a

/-- `InvSBox` (R203). -/
def invSbox (a : Byte) : Byte := tableAt invSboxRows a

/-! ### Key expansion -/

/-- `RotWord` (R204). -/
def Col.rotWord (u : Col) : Col := { a0 := u.a1, a1 := u.a2, a2 := u.a3, a3 := u.a0 }

/-- `SubWord` (R204). -/
def Col.subWord (u : Col) : Col := u.map sbox

/-- `Rcon(j)` for `j >= 1` (R204). -/
def rcon : Nat → Byte
  | 0 => 0x00#8
  | 1 => 0x01#8
  | j + 2 => xtime (rcon (j + 1))

/-- The word `w[i]`, `i >= 8`, from the words before it, the newest first (R204). -/
def nextWord (i : Nat) (before : List Col) : Col :=
  let t := before.getD 0 Col.zero
  let t' :=
    if i % 8 = 0 then t.rotWord.subWord.add { a0 := rcon (i / 8), a1 := 0, a2 := 0, a3 := 0 }
    else if i % 8 = 4 then t.subWord
    else t
  (before.getD 7 Col.zero).add t'

/-- Append the next `n` words, from `w[i]` on, to the words so far, the newest first (R204). -/
def expandFrom : Nat → Nat → List Col → List Col
  | 0, _, before => before
  | n + 1, i, before => expandFrom n (i + 1) (nextWord i before :: before)

/-- The 60 words `w[0 .. 59]` of a 32-byte key (R204). -/
def expandKey (key : List Byte) : List Col :=
  (expandFrom 52 8 ((List.range 8).map (colAt key)).reverse).reverse

/-- Round key `r`: the four words `w[4r .. 4r+3]` (R204). -/
def roundKey (w : List Col) (r : Nat) : Block :=
  { c0 := w.getD (4 * r) Col.zero, c1 := w.getD (4 * r + 1) Col.zero,
    c2 := w.getD (4 * r + 2) Col.zero, c3 := w.getD (4 * r + 3) Col.zero }

/-! ### Round transformations -/

/-- `AddRoundKey(s, r)` (R205). -/
def addRoundKey (w : List Col) (r : Nat) (s : Block) : Block :=
  let k := roundKey w r
  { c0 := s.c0.add k.c0, c1 := s.c1.add k.c1, c2 := s.c2.add k.c2, c3 := s.c3.add k.c3 }

/-- `InvShiftRows`: row `r` rotated right by `r` places (R206). -/
def invShiftRows (s : Block) : Block :=
  { c0 := { a0 := s.c0.a0, a1 := s.c3.a1, a2 := s.c2.a2, a3 := s.c1.a3 }
    c1 := { a0 := s.c1.a0, a1 := s.c0.a1, a2 := s.c3.a2, a3 := s.c2.a3 }
    c2 := { a0 := s.c2.a0, a1 := s.c1.a1, a2 := s.c0.a2, a3 := s.c3.a3 }
    c3 := { a0 := s.c3.a0, a1 := s.c2.a1, a2 := s.c1.a2, a3 := s.c0.a3 } }

/-- `ShiftRows`: row `r` rotated left by `r` places (R206). -/
def shiftRows (s : Block) : Block :=
  { c0 := { a0 := s.c0.a0, a1 := s.c1.a1, a2 := s.c2.a2, a3 := s.c3.a3 }
    c1 := { a0 := s.c1.a0, a1 := s.c2.a1, a2 := s.c3.a2, a3 := s.c0.a3 }
    c2 := { a0 := s.c2.a0, a1 := s.c3.a1, a2 := s.c0.a2, a3 := s.c1.a3 }
    c3 := { a0 := s.c3.a0, a1 := s.c0.a1, a2 := s.c1.a2, a3 := s.c2.a3 } }

/-- `InvSubBytes` (R207). -/
def invSubBytes (s : Block) : Block := s.map (Col.map invSbox)

/-- `SubBytes` (R207). -/
def subBytes (s : Block) : Block := s.map (Col.map sbox)

/-- The sum of products of one row of a mix matrix with a column. -/
def mixRow (m0 m1 m2 m3 : Byte) (u : Col) : Byte := mul m0 u.a0 ^^^ mul m1 u.a1 ^^^ mul m2 u.a2 ^^^ mul m3 u.a3

/-- `InvMixColumns` on one column (R208). -/
def invMixCol (u : Col) : Col :=
  { a0 := mixRow 0x0E#8 0x0B#8 0x0D#8 0x09#8 u
    a1 := mixRow 0x09#8 0x0E#8 0x0B#8 0x0D#8 u
    a2 := mixRow 0x0D#8 0x09#8 0x0E#8 0x0B#8 u
    a3 := mixRow 0x0B#8 0x0D#8 0x09#8 0x0E#8 u }

/-- `MixColumns` on one column (R208). -/
def mixCol (u : Col) : Col :=
  { a0 := mixRow 0x02#8 0x03#8 0x01#8 0x01#8 u
    a1 := mixRow 0x01#8 0x02#8 0x03#8 0x01#8 u
    a2 := mixRow 0x01#8 0x01#8 0x02#8 0x03#8 u
    a3 := mixRow 0x03#8 0x01#8 0x01#8 0x02#8 u }

/-- `InvMixColumns` (R208). -/
def invMixColumns (s : Block) : Block := s.map invMixCol

/-- `MixColumns` (R208). -/
def mixColumns (s : Block) : Block := s.map mixCol

/-! ### The inverse cipher and the cipher -/

/-- The rounds `r, r-1, .. 1` of the inverse cipher (R209). -/
def decRounds (w : List Col) : Nat → Block → Block
  | 0, s => s
  | r + 1, s => decRounds w r (invMixColumns (addRoundKey w (r + 1) (invSubBytes (invShiftRows s))))

/-- The inverse cipher on a state, under the expanded key (R209). -/
def decState (w : List Col) (s : Block) : Block :=
  addRoundKey w 0 (invSubBytes (invShiftRows (decRounds w 13 (addRoundKey w 14 s))))

/-- The rounds `1, 2, .. r` of the cipher (R210). -/
def encRounds (w : List Col) : Nat → Block → Block
  | 0, s => s
  | r + 1, s => addRoundKey w (r + 1) (mixColumns (shiftRows (subBytes (encRounds w r s))))

/-- The cipher on a state, under the expanded key (R210). -/
def encState (w : List Col) (s : Block) : Block :=
  addRoundKey w 14 (shiftRows (subBytes (encRounds w 13 (addRoundKey w 0 s))))

/-- `BlockDec(K, C)` (R209). -/
def blockDec (key block : List Byte) : List Byte := toBytes (decState (expandKey key) (ofBytes block))

/-- `BlockEnc(K, P)`, "used only by `RefEncrypt` ... and never by the engine" (R210). -/
def blockEnc (key block : List Byte) : List Byte := toBytes (encState (expandKey key) (ofBytes block))

end Sys2Proof.Machine.Aes
end

