-- ==== Sys2Proof/Machine/Engine.lean ====
section
/-! DEFINITION. The configuration this hardware takes (00_scope R6, column "value"). -/

namespace Sys2Proof.Machine

/-- `IV_CONST`: 16 bytes, hardwired, OPEN (92_eei_decisions D9; log 5). -/
def ivConst : List Byte := (List.range 16).map Config.ivByte

/-- `BUF_MAX`: OPEN, any value from `HDR = 1024` to `2^32 - 1` (92_eei_decisions D4; log 6). -/
def bufMax : Nat := Config.bufMaxAboveHdr.val + 1024

/-- `MAGIC`: `BE BA 66 58` (92_eei_decisions D17). -/
def magic : List Byte := [0xBE#8, 0xBA#8, 0x66#8, 0x58#8]

/-- The engine WDE-1 (00_scope R1, R6). -/
def wde1 : Cfg :=
  { blk := 16, keyLen := 32, blockDec := Aes.blockDec, hdr := 1024, ivConst := ivConst, magic := magic,
    xseedMax := 16, bufMax := bufMax, headerSize := 16, entryMin := 12 }

end Sys2Proof.Machine
end

