-- ==== Sys2Proof/Machine/State.lean ====
section
/-! DEFINITION. The state of the engine as plain data (10_state R20), the reasons a step can stop, and the state after
hardware reset (10_state R41). -/

namespace Sys2Proof.Machine

/-- `STATUS.STATE` (10_state R36). -/
inductive Phase where
  /-- 0, IDLE: no header parsed; the package may be loaded, cipher commands may run. -/
  | idle
  /-- 1, ITER: header parsed, entries being yielded. -/
  | iter
  /-- 2, END: all entries were yielded. -/
  | ended
  /-- 3, FAULT: an error is latched, the package is abandoned. -/
  | fault
  deriving DecidableEq, Repr

/-- The fields of register STATUS (10_state R23); its reserved bits are no storage. -/
structure Status where
  /-- `STATE`, bits [1:0]. -/
  phase : Phase
  /-- `EVALID`, bit 2. -/
  evalid : Bool
  /-- `CBC_DONE`, bit 3. -/
  cbcDone : Bool
  /-- `XOR_DONE`, bit 4. -/
  xorDone : Bool
  /-- `ERR`, bits [15:8]. -/
  err : Byte
  deriving DecidableEq, Repr

/-- The latched header with the cursor over the table (10_state R26, R27, R28). -/
structure Toc where
  /-- `COUNT`, 0x10. -/
  count : Word
  /-- `TABOFF`, 0x14. -/
  tabOff : Word
  /-- `DATAOFF`, 0x18. -/
  dataOff : Word
  /-- `CUR`, 0x1C. -/
  cur : Word
  /-- `IDX`, 0x20. -/
  idx : Word
  deriving DecidableEq, Repr

/-- The five descriptor registers (10_state R29). -/
structure Descriptor where
  /-- `E_PATHOFF`, 0x24. -/
  pathOff : Word
  /-- `E_PATHLEN`, 0x28. -/
  pathLen : Word
  /-- `E_OFF`, 0x2C. -/
  off : Word
  /-- `E_LEN`, 0x30. -/
  len : Word
  /-- `E_START`, 0x34. -/
  start : Word
  deriving DecidableEq, Repr

/-- The four byte-addressed spaces (20_memory R60); the fifth space, REG, is the registers above. -/
inductive Space where
  /-- The raw buffer (10_state R34). -/
  | raw
  /-- The decrypted buffer (10_state R35). -/
  | dec
  /-- The key store (10_state R32). -/
  | key
  /-- The seed store (10_state R33). -/
  | xseed
  deriving DecidableEq, Repr

/-- The bytes of one space: cells in the canonical form `Memory.wf` (log 13). -/
abbrev Memory := List Host.Cell

/-- The whole state of the engine (10_state R20), and three fields of the MODEL's own: `resets`, `inbox`, `reply`. -/
structure State where
  /-- Register STATUS (10_state R23). -/
  status : Status
  /-- Register LEN, 0x08 (10_state R24). -/
  len : Word
  /-- Register XLEN, 0x0C (10_state R25). -/
  xlen : Word
  /-- Registers COUNT, TABOFF, DATAOFF, CUR, IDX (10_state R26 to R28). -/
  toc : Toc
  /-- Registers E_PATHOFF, E_PATHLEN, E_OFF, E_LEN, E_START (10_state R29). -/
  desc : Descriptor
  /-- Register ERRINFO, 0x38 (10_state R30). -/
  errInfo : Word
  /-- The key store KEY (10_state R32). -/
  key : Memory
  /-- The seed store XSEED (10_state R33). -/
  xseed : Memory
  /-- The raw buffer RAW (10_state R34). -/
  raw : Memory
  /-- The decrypted buffer DEC (10_state R35). -/
  dec : Memory
  /-- The model's own: how many `HwReset` transactions were taken; picks the free values of RAW and DEC (log 4). -/
  resets : Nat
  /-- The model's own: the host's transactions not yet taken, the next one first (20_memory R72; log 1). -/
  inbox : List Transaction
  /-- The model's own: what the transaction just taken returned to the host (log 10). -/
  reply : Option Reply
  deriving DecidableEq, Repr

/-- Reasons a step stops with a fault: none. "every transaction ... has a successor state in every state"
(93_implementation_defined, preamble; 42_control_and_host R183; log 15). The errors of 60_exceptions are no faults in
this sense: error entry is a next state. -/
inductive Fault where
  deriving DecidableEq, Repr

/-- Reasons a step is refused. -/
inductive Refusal where
  /-- An arm of `exec` whose command has no meaning yet. Raised by no arm of this model. Safe. -/
  | notModelled (mnemonic : String)
  /-- Raised by the step on `RegRead` and `RegWrite` at an offset that is no multiple of 4: "not a transaction of this
  engine: the model gives it no meaning and refuses it" (20_memory R66; log 8). Safe. -/
  | notATransaction (off : Nat)
  deriving DecidableEq, Repr

/-- STATUS after reset: IDLE, no flag, no error (10_state R41). -/
def Status.reset : Status :=
  { phase := .idle, evalid := false, cbcDone := false, xorDone := false, err := 0x00#8 }

/-- The header registers after reset, all 0 (10_state R41). -/
def Toc.zero : Toc := { count := 0#32, tabOff := 0#32, dataOff := 0#32, cur := 0#32, idx := 0#32 }

/-- The descriptor registers when cleared, all 0 (10_state R29, R41). -/
def Descriptor.zero : Descriptor := { pathOff := 0#32, pathLen := 0#32, off := 0#32, len := 0#32, start := 0#32 }

/-- The machine right after hardware reset (10_state R41): every register 0, KEY and XSEED zero (their cells list
nothing), RAW and DEC unspecified (nothing written, log 3). No transaction waits and nothing was returned. -/
def State.reset : State :=
  { status := .reset, len := 0#32, xlen := 0#32, toc := .zero, desc := .zero, errInfo := 0#32,
    key := [], xseed := [], raw := [], dec := [], resets := 0, inbox := [], reply := none }

end Sys2Proof.Machine
end

