-- ==== Sys2Proof/Machine/Ops.lean ====
section
/-! DEFINITION. The named operations over the byte spaces and the registers, and error entry with its return. -/

namespace Sys2Proof.Machine

/-! ### One space: a canonical list of cells -/

/-- The byte a space lists at an address, none where nothing is listed. -/
def Memory.peek : Memory → Nat → Option Byte
  | [], _ => none
  | (k, b) :: m, a => if k = a then some b else Memory.peek m a

/-- List byte `b` at address `a`, keeping the addresses strictly rising. -/
def Memory.insert : Memory → Nat → Byte → Memory
  | [], a, b => [(a, b)]
  | (k, v) :: m, a, b =>
    if a < k then (a, b) :: (k, v) :: m else if a = k then (a, b) :: m else (k, v) :: Memory.insert m a b

/-- List nothing at address `a`. -/
def Memory.erase : Memory → Nat → Memory
  | [], _ => []
  | (k, v) :: m, a => if k = a then m else (k, v) :: Memory.erase m a

/-- Write one byte; `blank` is what an unlisted address holds. Writing what an unlisted address holds removes the
entry (log 13). -/
def Memory.write (blank : Option Byte) (m : Memory) (a : Nat) (b : Byte) : Memory :=
  if blank = some b then m.erase a else m.insert a b

/-- The canonical form: addresses strictly rising, no entry equal to what an unlisted address holds (log 13). -/
abbrev Memory.wf (blank : Option Byte) (m : Memory) : Prop :=
  m.Pairwise (fun x y => x.1 < y.1) ∧ ∀ x ∈ m, blank ≠ some x.2

/-- Every listed address lies in the space `0 .. size-1` (20_memory R60). -/
abbrev Memory.within (size : Nat) (m : Memory) : Prop := ∀ x ∈ m, x.1 < size

/-! ### The four spaces -/

/-- What an unlisted address of a space holds, as the spec's reset gives it: KEY and XSEED 0x00; RAW and DEC nothing,
"unspecified contents" (10_state R41). -/
def Space.blank : Space → Option Byte
  | .raw => none
  | .dec => none
  | .key => some 0x00#8
  | .xseed => some 0x00#8

/-- What reading an unlisted address of a space gives after `resets` hardware resets: 0x00 in KEY and XSEED
(10_state R41), a free value in RAW and DEC (93_implementation_defined U1; log 3). -/
def Space.unlisted (resets : Nat) : Space → Nat → Byte
  | .raw, a => Config.rawAfterReset resets a
  | .dec, a => Config.decAfterReset resets a
  | .key, _ => 0x00#8
  | .xseed, _ => 0x00#8

/-- Size in bytes of a space (20_memory R60). -/
def Space.size (c : Cfg) : Space → Nat
  | .raw => c.bufMax
  | .dec => c.bufMax
  | .key => c.keyLen
  | .xseed => c.xseedMax

/-- The cells of a space. -/
def State.cells (s : State) : Space → Memory
  | .raw => s.raw
  | .dec => s.dec
  | .key => s.key
  | .xseed => s.xseed

/-- The state with the cells of a space replaced. -/
def State.withCells (s : State) (sp : Space) (m : Memory) : State :=
  match sp with
  | .raw => { s with raw := m }
  | .dec => { s with dec := m }
  | .key => { s with key := m }
  | .xseed => { s with xseed := m }

/-- `S[a]`: the byte at address `a` of a space (00_scope R10). -/
def State.byteAt (s : State) (sp : Space) (a : Nat) : Byte :=
  ((s.cells sp).peek a).getD (sp.unlisted s.resets a)

/-- `S[a] <- b` (00_scope R10). -/
def State.setByte (s : State) (sp : Space) (a : Nat) (b : Byte) : State :=
  s.withCells sp ((s.cells sp).write sp.blank a b)

/-- `MemRead(S, a, n)` (00_scope R10), in ascending address order (20_memory R63). -/
def State.memRead (s : State) (sp : Space) : Nat → Nat → List Byte
  | _, 0 => []
  | a, n + 1 => s.byteAt sp a :: s.memRead sp (a + 1) n

/-- `MemWrite(S, a, n, v)` with `n` the length of `v` (00_scope R10). -/
def State.memWrite (s : State) (sp : Space) : Nat → List Byte → State
  | _, [] => s
  | a, b :: bs => State.memWrite (s.setByte sp a b) sp (a + 1) bs

/-! ### Errors: causes, entry, return -/

/-- The nine error causes (60_exceptions R231). -/
inductive ErrCause where
  /-- `CipherError::Truncated` (R232). -/
  | truncated
  /-- `CipherError::BadPadding` (R233). -/
  | badPadding
  /-- `FormatError::BadMagic` (R234). -/
  | badMagic
  /-- `FormatError::TruncatedTable` (R235). -/
  | truncatedTable
  /-- `FormatError::PathTraversal` (R236). -/
  | pathTraversal
  /-- `EntryRange` (R242). -/
  | entryRange
  /-- `IllegalCmd` (R237). -/
  | illegalCmd
  /-- `Sequence` (R238). -/
  | sequence
  /-- `Config` (R239). -/
  | config
  deriving DecidableEq, Repr

/-- The 8-bit code of each cause (60_exceptions R231). -/
def ErrCause.code : ErrCause → Byte
  | .truncated => 0x11#8
  | .badPadding => 0x12#8
  | .badMagic => 0x21#8
  | .truncatedTable => 0x22#8
  | .pathTraversal => 0x23#8
  | .entryRange => 0x24#8
  | .illegalCmd => 0x31#8
  | .sequence => 0x32#8
  | .config => 0x33#8

/-- `ClearDescriptor()`: the five descriptor registers and EVALID to 0 (60_exceptions R240, 41_container_commands
R142). -/
def State.clearDescriptor (s : State) : State :=
  { s with desc := .zero, status := { s.status with evalid := false } }

/-- Error entry, `raise E(info)` (60_exceptions R240): latch the code and `info`, clear the descriptor, go to FAULT;
"Nothing else is saved and nothing is restored". -/
def State.raise (s : State) (e : ErrCause) (info : Word) : State :=
  { s with
    status := { s.status with phase := .fault, evalid := false, err := e.code }
    errInfo := info
    desc := .zero }

/-- The return from FAULT, and the whole effect of `CLEAR` (42_control_and_host R181, 60_exceptions R244): every
register, KEY and XSEED to their reset values; RAW and DEC are not touched. -/
def State.clearAll (s : State) : State :=
  { State.reset with raw := s.raw, dec := s.dec, resets := s.resets, inbox := s.inbox, reply := s.reply }

/-- `HwReset` (42_control_and_host R190): the state of 10_state R41 in any state; RAW and DEC are unspecified after it
"even if they held a package before", hence new free values (log 3). -/
def State.hwReset (s : State) : State :=
  { State.reset with resets := s.resets + 1, inbox := s.inbox, reply := s.reply }

/-! ### Running a command -/

/-- A command under way: still running, or ended by a raise (00_scope R11: pseudocode runs "to its end, or to its
first `raise`"). -/
inductive Flow where
  /-- The lines run so far ended without a raise. -/
  | running (s : State)
  /-- A raise ended the command; the state is the one after error entry. -/
  | raised (s : State)
  deriving DecidableEq, Repr

/-- Go on with the next lines, unless a raise has ended the command. -/
def Flow.andThen : Flow → (State → Flow) → Flow
  | .running s, k => k s
  | .raised s, _ => .raised s

/-- The state a command leaves (00_scope R11). -/
def Flow.state : Flow → State
  | .running s => s
  | .raised s => s

/-- `raise E(info)` as a line of pseudocode: error entry, and the command ends (60_exceptions R240). -/
def State.stop (s : State) (e : ErrCause) (info : Word) : Flow := .raised (s.raise e info)

/-- "In state FAULT every command but `CLEAR` is ignored" (60_exceptions R241, 30_encoding R97); in any other state
the command runs whole. -/
def unlessFault (cmd : State → Flow) (s : State) : State :=
  if s.status.phase = .fault then s else (cmd s).state

/-- A word that is no command: ignored in FAULT, otherwise `IllegalCmd(w)` (30_encoding R95, R97; 60_exceptions
R237). -/
def illegalWord (w : Word) (s : State) : State := unlessFault (fun s => s.stop .illegalCmd w) s

end Sys2Proof.Machine
end

