-- ==== Sys2Proof/Machine/Operands.lean ====
section
/-! DEFINITION. The implicit operands of the commands (30_encoding R94): container numbers and strings read from DEC,
cipher blocks, the key and the keystream. -/

namespace Sys2Proof.Machine

/-- `BE32(S, a)` (20_memory R62): four bytes at any address joined, most significant first, unsigned. Law `be32_toNat`
gives the rule's sum. -/
def State.be32 (s : State) (sp : Space) (a : Nat) : Word :=
  s.byteAt sp a ++ s.byteAt sp (a + 1) ++ s.byteAt sp (a + 2) ++ s.byteAt sp (a + 3)

/-- The key as one byte string, `MemRead(KEY, 0, KEY_LEN)` (20_memory R63). -/
def State.keyBytes (c : Cfg) (s : State) : List Byte := s.memRead .key 0 c.keyLen

/-- Cipher block `b` of the header region, `MemRead(RAW, b*BLK, BLK)` (20_memory R63). -/
def State.cipherBlock (c : Cfg) (s : State) (b : Nat) : List Byte := s.memRead .raw (b * c.blk) c.blk

/-- The byte string XOR of two strings of equal length (00_scope R9). -/
def xorBytes (u v : List Byte) : List Byte := List.zipWith (fun a b => a ^^^ b) u v

/-- Keystream byte `j`: `XSEED[j mod nat(XLEN)]` (40_cipher_commands R117). -/
def State.keystream (s : State) (j : Nat) : Byte := s.byteAt .xseed (j % s.xlen.toNat)

/-- The container's magic marker, `MemRead(DEC, 0, 4)` (41_container_commands R141). -/
def State.magicField (s : State) : List Byte := s.memRead .dec 0 4

/-- The header's entry count (41_container_commands R141). -/
def State.countField (s : State) : Word := s.be32 .dec 4

/-- The header's table offset (41_container_commands R141). -/
def State.tableOffField (s : State) : Word := s.be32 .dec 8

/-- The header's data offset (41_container_commands R141). -/
def State.dataOffField (s : State) : Word := s.be32 .dec 12

/-- Field `plen` of the TOC entry at `c` (41_container_commands R143). -/
def State.plenField (s : State) (c : Nat) : Word := s.be32 .dec c

/-- The path of the TOC entry at `c` with `n` path bytes (41_container_commands R143). -/
def State.pathField (s : State) (c n : Nat) : List Byte := s.memRead .dec (c + 4) n

/-- Field `off` of the TOC entry at `c` with `n` path bytes (41_container_commands R143). -/
def State.offField (s : State) (c n : Nat) : Word := s.be32 .dec (c + 4 + n)

/-- Field `size` of the TOC entry at `c` with `n` path bytes (41_container_commands R143). -/
def State.sizeField (s : State) (c n : Nat) : Word := s.be32 .dec (c + 8 + n)

/-- The segments of a path: the maximal runs of bytes between occurrences of 0x2F, one more than there are separators,
some possibly empty (41_container_commands R150). -/
def segments : List Byte → List (List Byte)
  | [] => [[]]
  | b :: bs =>
    if b = 0x2F#8 then [] :: segments bs
    else
      match segments bs with
      | [] => [[b]]
      | seg :: rest => (b :: seg) :: rest

/-- `HasDotDot(path)`: some segment is the two-byte string `2E 2E` (41_container_commands R150). -/
def hasDotDot (path : List Byte) : Bool := (segments path).any (fun seg => seg == [0x2E#8, 0x2E#8])

end Sys2Proof.Machine
end

