-- ==== Sys2Proof/Machine/Flags.lean ====
section
/-! DEFINITION. Register STATUS as a word, the flags and the check behind CBC_DONE (10_state R23, R37;
40_cipher_commands R115). -/

namespace Sys2Proof.Machine

/-- `nat(STATE)` (10_state R36). -/
def Phase.code : Phase → Nat
  | .idle => 0
  | .iter => 1
  | .ended => 2
  | .fault => 3

/-- STATUS as a host reads it: `nat(STATE) + 4*EVALID + 8*CBC_DONE + 16*XOR_DONE + 256*nat(ERR)` (10_state R23). -/
def Status.word (st : Status) : Word :=
  BitVec.ofNat 32 (st.phase.code + 4 * st.evalid.toNat + 8 * st.cbcDone.toNat + 16 * st.xorDone.toNat +
    256 * st.err.toNat)

/-- `REG.STATUS.CBC_DONE <- v`. -/
def State.setCbcDone (s : State) (v : Bool) : State := { s with status := { s.status with cbcDone := v } }

/-- `REG.STATUS.XOR_DONE <- v`. -/
def State.setXorDone (s : State) (v : Bool) : State := { s with status := { s.status with xorDone := v } }

/-- `REG.STATUS.STATE <- p`. -/
def State.setPhase (s : State) (p : Phase) : State := { s with status := { s.status with phase := p } }

/-- The flags a cipher command writes at entry: CBC_DONE to 0 if it has a CBC stage, XOR_DONE to 0 if it has an XOR
stage (40_cipher_commands R112, 10_state R37). -/
def State.dropDone (s : State) (cbc xor : Bool) : State :=
  { s with status := { s.status with
      cbcDone := if cbc then false else s.status.cbcDone
      xorDone := if xor then false else s.status.xorDone } }

/-- `PadOK()` (40_cipher_commands R115): with `p = nat(DEC[HDR-1])`, `1 <= p <= BLK` and `DEC[HDR-j] = p` for every `j`
in `1 .. p`. -/
def State.padOk (c : Cfg) (s : State) : Bool :=
  let p := s.byteAt .dec (c.hdr - 1)
  decide (1 ≤ p.toNat) && decide (p.toNat ≤ c.blk) &&
    (List.range p.toNat).all (fun j => s.byteAt .dec (c.hdr - (j + 1)) == p)

end Sys2Proof.Machine
end

