-- ==== Sys2Proof/Machine/Cipher.lean ====
section
/-! DEFINITION. The cipher commands `DECRYPT`, `CBC_DEC`, `XOR_EXP` (40_cipher_commands). -/

namespace Sys2Proof.Machine

/-- `CipherChecks(w, cbc, xor)` (40_cipher_commands R112), in the rule's order. -/
def cipherChecks (c : Cfg) (w : Word) (cbc xor : Bool) (s : State) : Flow :=
  if s.status.phase ≠ .idle then s.stop .sequence w
  else
    let s := s.dropDone cbc xor
    if c.bufMax < s.len.toNat then s.stop .config 0#32
    else if xor = true ∧ ¬(1 ≤ s.xlen.toNat ∧ s.xlen.toNat ≤ c.xseedMax) then s.stop .config 0#32
    else if s.len.toNat < c.hdr then s.stop .truncated 0#32
    else .running s

/-- `n` turns of the CBC stage's loop from block `b` on; `prev` is the previous ciphertext block (40_cipher_commands
R113, R114; 10_state R38). -/
def cbcBlocks (c : Cfg) (key : List Byte) : Nat → Nat → List Byte → State → State
  | 0, _, _, s => s
  | n + 1, b, prev, s =>
    cbcBlocks c key n (b + 1) (s.cipherBlock c b)
      (s.memWrite .dec (b * c.blk) (xorBytes (c.blockDec key (s.cipherBlock c b)) prev))

/-- `CbcStage()` (40_cipher_commands R114): all `HDR` bytes of DEC are written before the padding is checked. -/
def cbcStage (c : Cfg) (s : State) : Flow :=
  let s := cbcBlocks c (s.keyBytes c) (c.hdr / c.blk) 0 c.ivConst s
  if s.padOk c then .running (s.setCbcDone true) else s.stop .badPadding 0#32

/-- `n` turns of the XOR stage's loop from address `i` on (40_cipher_commands R118). -/
def xorBytesFrom (c : Cfg) : Nat → Nat → State → State
  | 0, _, s => s
  | n + 1, i, s => xorBytesFrom c n (i + 1) (s.setByte .dec i (s.byteAt .raw i ^^^ s.keystream (i - c.hdr)))

/-- `XorStage()` (40_cipher_commands R118); it cannot fail. -/
def xorStage (c : Cfg) (s : State) : Flow :=
  .running ((xorBytesFrom c (s.len.toNat - c.hdr) c.hdr s).setXorDone true)

/-- `CBC_DEC` under a configuration (40_cipher_commands R116). -/
def cbcDecCmd (c : Cfg) (s : State) : Flow := (cipherChecks c (encode .cbcDec) true false s).andThen (cbcStage c)

/-- `XOR_EXP` under a configuration (40_cipher_commands R119). -/
def xorExpCmd (c : Cfg) (s : State) : Flow := (cipherChecks c (encode .xorExp) false true s).andThen (xorStage c)

/-- `DECRYPT` under a configuration (40_cipher_commands R120): a `BadPadding` of the CBC stage ends the command. -/
def decryptCmd (c : Cfg) (s : State) : Flow :=
  ((cipherChecks c (encode .decrypt) true true s).andThen (cbcStage c)).andThen (xorStage c)

/-- `CBC_DEC` (40_cipher_commands R116). -/
def execCbcDec (s : State) : Host.Outcome State Fault Refusal := .next (unlessFault (cbcDecCmd wde1) s)

/-- `XOR_EXP` (40_cipher_commands R119). -/
def execXorExp (s : State) : Host.Outcome State Fault Refusal := .next (unlessFault (xorExpCmd wde1) s)

/-- `DECRYPT` (40_cipher_commands R120). -/
def execDecrypt (s : State) : Host.Outcome State Fault Refusal := .next (unlessFault (decryptCmd wde1) s)

end Sys2Proof.Machine
end

