-- ==== Sys2Proof/Machine/Container.lean ====
section
/-! DEFINITION. The container commands `PARSE_HDR`, `NEXT`, `SCAN` (41_container_commands). Every sum in a check is over
natural numbers (00_scope R9). -/

namespace Sys2Proof.Machine

/-- The ERRINFO of a `TruncatedTable` from the header step (60_exceptions R235). -/
def headerInfo : Word := 0xFFFFFFFF#32

/-- The opening lines of `HeaderStep` (41_container_commands R142): header registers, cursor, index and descriptor
to 0. -/
def State.dropToc (s : State) : State := ({ s with toc := .zero } : State).clearDescriptor

/-- COUNT, TABOFF and DATAOFF latched from `DEC[4..15]` (41_container_commands R142, 10_state R26). -/
def State.latchHeader (s : State) : State :=
  { s with toc := { s.toc with count := s.countField, tabOff := s.tableOffField, dataOff := s.dataOffField } }

/-- CUR to TABOFF, IDX to 0, STATE to ITER: the cursor at entry 0 (41_container_commands R142, R156; IDX is 0 already
after `HeaderStep`). -/
def State.openTable (s : State) : State :=
  { s with toc := { s.toc with cur := s.toc.tabOff, idx := 0#32 }, status := { s.status with phase := .iter } }

/-- `HeaderStep()` (41_container_commands R142), with the span check of R145. -/
def headerStep (c : Cfg) (s : State) : Flow :=
  let s := s.dropToc
  if c.bufMax < s.len.toNat then s.stop .config 0#32
  else if s.len.toNat < c.headerSize then s.stop .truncatedTable headerInfo
  else if s.magicField ≠ c.magic then s.stop .badMagic 0#32
  else
    let s := s.latchHeader
    if s.toc.count.toNat ≠ 0 ∧ s.len.toNat < s.toc.tabOff.toNat + c.entryMin * s.toc.count.toNat then
      s.stop .truncatedTable headerInfo
    else .running s.openTable

/-- The closing lines of `EntryStep` (41_container_commands R147): the descriptor of the entry at `cu` with `n` path
bytes, EVALID to 1, cursor and index advanced. -/
def State.yieldEntry (s : State) (cu n : Nat) (off size : Word) : State :=
  { s with
    desc :=
      { pathOff := BitVec.ofNat 32 (cu + 4), pathLen := BitVec.ofNat 32 n, off := off, len := size,
        start := BitVec.ofNat 32 (s.toc.dataOff.toNat + off.toNat) }
    status := { s.status with evalid := true }
    toc := { s.toc with cur := BitVec.ofNat 32 (cu + 12 + n), idx := s.toc.idx + 1#32 } }

/-- `EntryStep()` (41_container_commands R147): read and check the entry at CUR, write the descriptor, advance. -/
def entryStep (s : State) : Flow :=
  let total := s.len.toNat
  let cu := s.toc.cur.toNat
  let n := (s.plenField cu).toNat
  let off := s.offField cu n
  let size := s.sizeField cu n
  if total < cu + 4 then s.stop .truncatedTable s.toc.idx
  else if total < cu + 4 + n then s.stop .truncatedTable s.toc.idx
  else if hasDotDot (s.pathField cu n) = true then s.stop .pathTraversal s.toc.idx
  else if total < cu + 12 + n then s.stop .truncatedTable s.toc.idx
  else if total < s.toc.dataOff.toNat + off.toNat + size.toNat then s.stop .entryRange s.toc.idx
  else .running (s.yieldEntry cu n off size)

/-- `NEXT` outside FAULT (41_container_commands R146). -/
def nextCmd (s : State) : Flow :=
  if s.status.phase = .idle then s.stop .sequence (encode .next)
  else
    let s := s.clearDescriptor
    if s.status.phase = .ended then .running s
    else if s.toc.idx = s.toc.count then .running (s.setPhase .ended)
    else entryStep s

/-- At most `n` turns of `SCAN`'s loop "while REG.IDX != REG.COUNT" (41_container_commands R156). -/
def scanEntries : Nat → State → Flow
  | 0, s => .running s
  | n + 1, s =>
    if s.toc.idx = s.toc.count then .running s else (entryStep s.clearDescriptor).andThen (scanEntries n)

/-- `SCAN` under a configuration (41_container_commands R156). The loop starts at IDX = 0 and each turn adds one to IDX
or raises, so COUNT turns are all there can be (log 11). -/
def scanCmd (c : Cfg) (s : State) : Flow :=
  (headerStep c s).andThen fun s =>
    (scanEntries s.toc.count.toNat s).andThen fun s => .running s.clearDescriptor.openTable

/-- `PARSE_HDR` (41_container_commands R142). -/
def execParseHdr (s : State) : Host.Outcome State Fault Refusal := .next (unlessFault (headerStep wde1) s)

/-- `NEXT` (41_container_commands R146). -/
def execNext (s : State) : Host.Outcome State Fault Refusal := .next (unlessFault nextCmd s)

/-- `SCAN` (41_container_commands R156). -/
def execScan (s : State) : Host.Outcome State Fault Refusal := .next (unlessFault (scanCmd wde1) s)

end Sys2Proof.Machine
end

