-- ==== Sys2Proof/Machine/Control.lean ====
section
/-! DEFINITION. The control commands `NOP` and `CLEAR` (42_control_and_host R180, R181). -/

namespace Sys2Proof.Machine

/-- `NOP` (42_control_and_host R180): "changes no state at all"; in FAULT it is ignored, "which is the same thing". -/
def execNop (s : State) : Host.Outcome State Fault Refusal := .next (unlessFault .running s)

/-- `CLEAR` (42_control_and_host R181): legal in every state, FAULT included. -/
def execClear (s : State) : Host.Outcome State Fault Refusal := .next s.clearAll

end Sys2Proof.Machine
end

