-- ==== Sys2Proof/Machine/Dispatch.lean ====
section
/-! DEFINITION. One arm per command: which meaning each runs (30_encoding R93, R97). -/

namespace Sys2Proof.Machine

def exec (i : Instr) (s : State) : Host.Outcome State Fault Refusal :=
  match i with
  -- control
  | .nop => Sys2Proof.Machine.execNop s
  -- cipher
  | .decrypt => Sys2Proof.Machine.execDecrypt s
  | .cbcDec => Sys2Proof.Machine.execCbcDec s
  | .xorExp => Sys2Proof.Machine.execXorExp s
  -- container
  | .parseHdr => Sys2Proof.Machine.execParseHdr s
  | .next => Sys2Proof.Machine.execNext s
  | .scan => Sys2Proof.Machine.execScan s
  -- control
  | .clear => Sys2Proof.Machine.execClear s

end Sys2Proof.Machine
end

