-- ==== Sys2Proof/Machine/Port.lean ====
section
/-! DEFINITION. The nine host transactions (42_control_and_host R183 to R190): the engine's one port. -/

namespace Sys2Proof.Machine

/-- `exec(w)` of 30_encoding R97: a word written to CMD runs the command it encodes, or is illegal. `CLEAR`'s and FAULT's
precedence stand in the meanings and in `illegalWord`. -/
def execWord (w : Word) (s : State) : Host.Outcome State Fault Refusal :=
  match decode w with
  | .ok i => exec i s
  | .error _ => .next (illegalWord w s)

/-- The value of `RegRead(off)` (42_control_and_host R184): CMD and every reserved offset read 0 (10_state R22, R31;
log 9). -/
def State.regValue (s : State) (off : Nat) : Word :=
  if off = 0x04 then s.status.word
  else if off = 0x08 then s.len
  else if off = 0x0C then s.xlen
  else if off = 0x10 then s.toc.count
  else if off = 0x14 then s.toc.tabOff
  else if off = 0x18 then s.toc.dataOff
  else if off = 0x1C then s.toc.cur
  else if off = 0x20 then s.toc.idx
  else if off = 0x24 then s.desc.pathOff
  else if off = 0x28 then s.desc.pathLen
  else if off = 0x2C then s.desc.off
  else if off = 0x30 then s.desc.len
  else if off = 0x34 then s.desc.start
  else if off = 0x38 then s.errInfo
  else 0#32

/-- `RegWrite(off, v)` at an offset other than CMD's (42_control_and_host R185): LEN and XLEN store in IDLE, everything
else ignores the write. -/
def State.storeReg (s : State) (off : Nat) (v : Word) : State :=
  if s.status.phase = .idle then
    if off = 0x08 then { s with len := v } else if off = 0x0C then { s with xlen := v } else s
  else s

/-- A byte write of the host: ignored past the end of the space, no error (20_memory R69). -/
def State.hostWrite (c : Cfg) (s : State) (sp : Space) (a : Nat) (b : Byte) : State :=
  if a < sp.size c then s.setByte sp a b else s

/-- A byte read of the host: 0x00 past the end of the space (20_memory R69). -/
def State.hostRead (c : Cfg) (s : State) (sp : Space) (a : Nat) : Byte :=
  if a < sp.size c then s.byteAt sp a else 0x00#8

/-- A read transaction returns a value and changes no other state (20_memory R68). -/
def State.answer (s : State) (r : Reply) : State := { s with reply := some r }

/-- One transaction, whole (42_control_and_host R183 to R190; 20_memory R67). A register transaction at an offset that
is no multiple of 4 is refused (20_memory R66). -/
def transact (t : Transaction) (s : State) : Host.Outcome State Fault Refusal :=
  match t with
  | .hwReset => .next s.hwReset
  | .regRead off =>
    if off % 4 = 0 then .next (s.answer (.word (s.regValue off))) else .refused (.notATransaction off)
  | .regWrite off v =>
    if off % 4 = 0 then (if off = 0x00 then execWord v s else .next (s.storeReg off v))
    else .refused (.notATransaction off)
  | .rawWrite a b => .next (s.hostWrite wde1 .raw a b)
  | .rawRead a => .next (s.answer (.byte (s.hostRead wde1 .raw a)))
  | .decWrite a b => .next (s.hostWrite wde1 .dec a b)
  | .decRead a => .next (s.answer (.byte (s.hostRead wde1 .dec a)))
  | .keyWrite i b => .next (s.hostWrite wde1 .key i b)
  | .seedWrite i b => .next (s.hostWrite wde1 .xseed i b)

/-- The next transaction of the host's sequence taken off it, nothing returned yet. -/
def State.takeInbox (s : State) (rest : List Transaction) : State := { s with inbox := rest, reply := none }

/-- One move of the machine: the next transaction of the host's sequence, whole (20_memory R72). With none waiting
nothing moves: "the engine never moves on its own" (42_control_and_host R183; log 2). -/
def serve (s : State) : Host.Outcome State Fault Refusal :=
  match s.inbox with
  | [] => .next s
  | t :: rest => transact t (s.takeInbox rest)

/-- The transaction that delivers a command word numbered as the opcode table numbers bits: "A command is delivered by
`RegWrite(0x00, w)` and nothing else" (30_encoding R90). -/
def commandTransaction (nbits w : Nat) : Transaction := .regWrite 0x00 (BitVec.ofNat 32 (tableBits nbits w))

end Sys2Proof.Machine
end

