-- ==== Sys2Proof/Machine/Step.lean ====
section
/-! DEFINITION. The step relation: "one step per host transaction and no other step" (42_control_and_host R183). -/

namespace Sys2Proof.Machine

/-- One step of the machine. -/
def step (s : State) : Host.Outcome State Fault Refusal := serve s

/-- The state in which the host's next transaction writes the given command word to CMD: there is no fetch (00_scope
R2), a command comes from the host's sequence (log 1). -/
def State.withFetchWord (s : State) (nbits w : Nat) : State :=
  { s with inbox := commandTransaction nbits w :: s.inbox }

end Sys2Proof.Machine
end

