-- ==== Sys2Proof/Machine/Reference.lean ====
section
/-! DEFINITION. The reference encryptor `RefEncrypt` (40_cipher_commands R122), which is no part of the engine: it says
what packages the round trip is about. -/

namespace Sys2Proof.Machine

/-- The cipher blocks of `n` plaintext blocks: `C_b = BlockEnc(K, T_b xor C_(b-1))`, the block before the first given
(40_cipher_commands R122). -/
def refCbc (blk : Nat) (enc : List Byte → List Byte) : Nat → List Byte → List Byte → List Byte
  | 0, _, _ => []
  | n + 1, prev, t =>
    let block := enc (xorBytes (t.take blk) prev)
    block ++ refCbc blk enc n block (t.drop blk)

/-- The remainder XOR the seed, repeated, keystream byte `j` meeting the first byte (40_cipher_commands R117, R122). -/
def refXor (seed : List Byte) : Nat → List Byte → List Byte
  | _, [] => []
  | j, b :: bs => (b ^^^ seed.getD (j % seed.length) 0x00#8) :: refXor seed (j + 1) bs

/-- `RefEncrypt(T)` under a key and a seed (40_cipher_commands R122): the header region in CBC mode "written without
adding a padding block", the remainder XOR the keystream. -/
def refEncrypt (c : Cfg) (blockEnc : List Byte → List Byte → List Byte) (key seed t : List Byte) : List Byte :=
  refCbc c.blk (blockEnc key) (c.hdr / c.blk) c.ivConst (t.take c.hdr) ++ refXor seed 0 (t.drop c.hdr)

end Sys2Proof.Machine
end

