-- ==== Sys2Proof/Machine/Script.lean ====
section
/-! DEFINITION. The notation of host programs (30_encoding R98, R99): each line and each pseudo-command as the
transactions it stands for. -/

namespace Sys2Proof.Machine.Script

/-- The byte offset of a register inside REG (10_state, section 2). -/
def regOffset : RegName → Nat
  | .cmd => 0x00
  | .status => 0x04
  | .len => 0x08
  | .xlen => 0x0C
  | .count => 0x10
  | .tabOff => 0x14
  | .dataOff => 0x18
  | .cur => 0x1C
  | .idx => 0x20
  | .ePathOff => 0x24
  | .ePathLen => 0x28
  | .eOff => 0x2C
  | .eLen => 0x30
  | .eStart => 0x34
  | .errInfo => 0x38

/-- One transaction per byte at ascending indices: the shape of `wraw`, `wdec`, `wkey` and `wseed` (R98). -/
def eachByte (t : Nat → Byte → Transaction) : Nat → List Byte → List Transaction
  | _, [] => []
  | a, b :: bs => t a b :: eachByte t (a + 1) bs

/-- `reset` (R98). -/
def reset : List Transaction := [.hwReset]

/-- `cmd <MNEMONIC>` (R98). -/
def cmd (i : Instr) : List Transaction := [.regWrite (regOffset .cmd) (encode i)]

/-- `wreg <NAME>, <value>` (R98). -/
def wreg (r : RegName) (v : Word) : List Transaction := [.regWrite (regOffset r) v]

/-- `rreg <NAME>` (R98). -/
def rreg (r : RegName) : List Transaction := [.regRead (regOffset r)]

/-- `wraw <addr>, <bytes>` (R98). -/
def wraw (a : Nat) (bs : List Byte) : List Transaction := eachByte .rawWrite a bs

/-- `wdec <addr>, <bytes>` (R98). -/
def wdec (a : Nat) (bs : List Byte) : List Transaction := eachByte .decWrite a bs

/-- `wkey <idx>, <bytes>` (R98). -/
def wkey (i : Nat) (bs : List Byte) : List Transaction := eachByte .keyWrite i bs

/-- `wseed <idx>, <bytes>` (R98). -/
def wseed (i : Nat) (bs : List Byte) : List Transaction := eachByte .seedWrite i bs

/-- `rraw <addr>, <n>` (R98). -/
def rraw (a n : Nat) : List Transaction := (List.range n).map (fun j => .rawRead (a + j))

/-- `rdec <addr>, <n>` (R98). -/
def rdec (a n : Nat) : List Transaction := (List.range n).map (fun j => .decRead (a + j))

/-- `loadpkg <bytes>` (R99). -/
def loadpkg (bs : List Byte) : List Transaction := wraw 0 bs ++ wreg .len (BitVec.ofNat 32 bs.length)

/-- `loadkm <key bytes>; <seed bytes>` (R99). -/
def loadkm (key seed : List Byte) : List Transaction :=
  wkey 0 key ++ wseed 0 seed ++ wreg .xlen (BitVec.ofNat 32 seed.length)

/-- `decode` (R99). -/
def decodePkg : List Transaction := cmd .decrypt ++ cmd .parseHdr

/-- `drain` (R99) after `n` repetitions of `cmd NEXT`, `rreg STATUS`: it is the host, outside the engine, that stops at
the first STATUS showing END or FAULT (log 16). -/
def drain : Nat → List Transaction
  | 0 => []
  | n + 1 => cmd .next ++ rreg .status ++ drain n

end Sys2Proof.Machine.Script
end

