-- ==== Sys2Proof/Safety.lean ====
section
/-! DEFINITION. The terms in which claims about the engine are stated: the transform byte by byte, the invariant of the
state, what a yielded descriptor guarantees, and when a run on a package is over. -/

namespace Sys2Proof.Machine

/-! ### The transform, one byte at a time -/

/-- `C_(b-1)` with `C_(-1) = IV_CONST` (40_cipher_commands R113). -/
def prevBlock (c : Cfg) (s : State) : Nat → List Byte
  | 0 => c.ivConst
  | b + 1 => s.cipherBlock c b

/-- The plaintext block `P_b = BlockDec(K, C_b) xor C_(b-1)` (40_cipher_commands R113). -/
def plainBlock (c : Cfg) (s : State) (b : Nat) : List Byte :=
  xorBytes (c.blockDec (s.keyBytes c) (s.cipherBlock c b)) (prevBlock c s b)

/-- Byte `i` of the header region decrypted: byte `i mod BLK` of plaintext block `i div BLK`. -/
def cbcByte (c : Cfg) (s : State) (i : Nat) : Byte := (plainBlock c s (i / c.blk)).getD (i % c.blk) 0x00#8

/-- Byte `i >= HDR` of the remainder decrypted (40_cipher_commands R117, R118). -/
def xorByte (c : Cfg) (s : State) (i : Nat) : Byte := s.byteAt .raw i ^^^ s.keystream (i - c.hdr)

/-- The last bytes of a header region of `hdr` bytes are valid padding (40_cipher_commands R115): its last byte is `p`
with `1 <= p <= blk`, and so is each of the last `p` bytes. -/
def ValidPadding (blk hdr : Nat) (byte : Nat → Byte) : Prop :=
  1 ≤ (byte (hdr - 1)).toNat ∧ (byte (hdr - 1)).toNat ≤ blk ∧
    ∀ j, 1 ≤ j → j ≤ (byte (hdr - 1)).toNat → byte (hdr - j) = byte (hdr - 1)

/-- The entry checks of a cipher command pass (40_cipher_commands R112). -/
def CipherReady (c : Cfg) (xor : Bool) (s : State) : Prop :=
  s.status.phase = .idle ∧ s.len.toNat ≤ c.bufMax ∧
    (xor = true → 1 ≤ s.xlen.toNat ∧ s.xlen.toNat ≤ c.xseedMax) ∧ c.hdr ≤ s.len.toNat

/-! ### The container -/

/-- The container header at the start of DEC passes every check of the header step (41_container_commands R142). -/
def HeaderOk (c : Cfg) (s : State) : Prop :=
  s.len.toNat ≤ c.bufMax ∧ c.headerSize ≤ s.len.toNat ∧ s.magicField = c.magic ∧
    (s.countField.toNat ≠ 0 → s.tableOffField.toNat + c.entryMin * s.countField.toNat ≤ s.len.toNat)

/-- The TOC entry at address `cu`, under data offset `dataOff`, passes every check of `EntryStep` (41_container_commands
R147). -/
def EntryOk (s : State) (dataOff : Word) (cu : Nat) : Prop :=
  cu + 12 + (s.plenField cu).toNat ≤ s.len.toNat ∧
    hasDotDot (s.pathField cu (s.plenField cu).toNat) = false ∧
    dataOff.toNat + (s.offField cu (s.plenField cu).toNat).toNat + (s.sizeField cu (s.plenField cu).toNat).toNat ≤
      s.len.toNat

/-- Where the entry after the one at `cu` starts (41_container_commands R143). -/
def nextEntry (s : State) (cu : Nat) : Nat := cu + 12 + (s.plenField cu).toNat

/-- Where entry `k` of the table that starts at `cu` starts. -/
def entryAddr (s : State) (cu : Nat) : Nat → Nat
  | 0 => cu
  | k + 1 => nextEntry s (entryAddr s cu k)

/-- What a yielded descriptor guarantees (41_container_commands R154). -/
def DescriptorSafe (s : State) : Prop :=
  s.desc.pathOff.toNat + s.desc.pathLen.toNat ≤ s.len.toNat ∧
    s.desc.start.toNat + s.desc.len.toNat ≤ s.len.toNat ∧
    s.desc.start.toNat = s.toc.dataOff.toNat + s.desc.off.toNat ∧
    hasDotDot (s.memRead .dec s.desc.pathOff.toNat s.desc.pathLen.toNat) = false ∧
    s.toc.cur.toNat ≤ s.len.toNat

/-! ### The invariant -/

/-- The engine is iterating or has iterated a table. -/
def Parsed (s : State) : Prop := s.status.phase = .iter ∨ s.status.phase = .ended

/-- What holds of the registers in every reachable state. -/
structure RegInv (c : Cfg) (s : State) : Prop where
  /-- "`STATUS.ERR != 0` exactly when `STATE = FAULT`" (10_state R36). -/
  err_iff_fault : s.status.err ≠ 0x00#8 ↔ s.status.phase = .fault
  /-- ERR is 0 or one of the nine codes (60_exceptions R231). -/
  err_legal : s.status.err = 0x00#8 ∨ ∃ e : ErrCause, s.status.err = e.code
  /-- ERRINFO is "0 when `STATUS.ERR = 0`" (10_state R30). -/
  info_zero : s.status.err = 0x00#8 → s.errInfo = 0#32
  /-- "`EVALID = 1` implies `STATE = ITER`" (10_state R37). -/
  evalid_iter : s.status.evalid = true → s.status.phase = .iter
  /-- "When `STATUS.EVALID = 0` all five read 0" (10_state R29). -/
  desc_zero : s.status.evalid = false → s.desc = .zero
  /-- In IDLE no header is latched (10_state R26, R36). -/
  toc_idle : s.status.phase = .idle → s.toc = .zero
  /-- "`0 <= nat(IDX) <= nat(COUNT)` whenever STATE is ITER or END" (10_state R28). -/
  idx_le : Parsed s → s.toc.idx.toNat ≤ s.toc.count.toNat
  /-- In END all COUNT entries were yielded (10_state R36). -/
  idx_end : s.status.phase = .ended → s.toc.idx = s.toc.count
  /-- A parsed package fits the buffers and holds its header (41_container_commands R142, 20_memory R70). -/
  len_parsed : Parsed s → s.len.toNat ≤ c.bufMax ∧ c.headerSize ≤ s.len.toNat
  /-- With a table the cursor is at most LEN (10_state R27; with COUNT = 0 it holds whatever TABOFF holds). -/
  cur_le : Parsed s → s.toc.count ≠ 0#32 → s.toc.cur.toNat ≤ s.len.toNat
  /-- A valid descriptor stays inside the package (41_container_commands R154). -/
  desc_range : s.status.evalid = true →
    s.desc.pathOff.toNat + s.desc.pathLen.toNat ≤ s.len.toNat ∧
      s.desc.start.toNat + s.desc.len.toNat ≤ s.len.toNat ∧
      s.desc.start.toNat = s.toc.dataOff.toNat + s.desc.off.toNat

/-- What holds of the byte spaces: the canonical form, and no cell past the end of its space (20_memory R60). -/
def MemInv (c : Cfg) (s : State) : Prop :=
  ∀ sp : Space, Memory.wf sp.blank (s.cells sp) ∧ Memory.within (sp.size c) (s.cells sp)

/-- The invariant of the engine. -/
def EngineInv (c : Cfg) (s : State) : Prop := RegInv c s ∧ MemInv c s

/-! ### Legality, and what a claim may leave out of sight -/

/-- Where 30_encoding R96 says "Sequence": a cipher command in ITER or END, `NEXT` in IDLE. -/
def sequenceError : Instr → Phase → Bool
  | .nop, _ => false
  | .decrypt, p => p == .iter || p == .ended
  | .cbcDec, p => p == .iter || p == .ended
  | .xorExp, p => p == .iter || p == .ended
  | .parseHdr, _ => false
  | .next, p => p == .idle
  | .scan, _ => false
  | .clear, _ => false

/-- How a cipher command of this hardware ends without reaching a stage (40_cipher_commands R112): ignored in FAULT,
`Sequence` in ITER and END; in IDLE `Config` before `Truncated`, DEC untouched. -/
def CipherEntryErrors (i : Instr) (cbc xor : Bool) (s : State) : Prop :=
  (s.status.phase = .fault → exec i s = .next s) ∧
  (Parsed s → exec i s = .next (s.raise .sequence (encode i))) ∧
  (s.status.phase = .idle →
    (bufMax < s.len.toNat ∨ (xor = true ∧ ¬(1 ≤ s.xlen.toNat ∧ s.xlen.toNat ≤ 16)) →
      exec i s = .next ((s.dropDone cbc xor).raise .config 0#32)) ∧
    (s.len.toNat ≤ bufMax → (xor = true → 1 ≤ s.xlen.toNat ∧ s.xlen.toNat ≤ 16) → s.len.toNat < 1024 →
      exec i s = .next ((s.dropDone cbc xor).raise .truncated 0#32)))

/-- `t` is `s` but for the bytes of KEY and XSEED. -/
def SameButKeys (s t : State) : Prop := t = { s with key := t.key, xseed := t.xseed }

/-- `t` is `s` but for the flags CBC_DONE and XOR_DONE. -/
def SameButDone (s t : State) : Prop :=
  t = { s with status := { s.status with cbcDone := t.status.cbcDone, xorDone := t.status.xorDone } }

/-- Commands run one after the other, stopping at the first fault or refusal. -/
def runCommands : List Instr → State → Host.Outcome State Fault Refusal
  | [], s => .next s
  | i :: is, s =>
    match exec i s with
    | .next t => runCommands is t
    | .fault r => .fault r
    | .refused r => .refused r

/-! ### The end of a run -/

/-- A run on one package has come to its END or to FAULT (70_reset_and_hazards R289 (a), (b)). -/
def RunOver (s : State) : Prop := s.status.phase = .ended ∨ s.status.phase = .fault

/-- A safe run: every transaction of the host's sequence was taken, none refused. -/
def ServesAll (s : State) : Prop := ∃ t : State, Sys2Proof.core.run s.inbox.length s = .next t ∧ t.inbox = []

end Sys2Proof.Machine
end

