-- ==== Sys2Proof/Certificates/Slice0/Obligations.lean ====
section
/-! DEFINITION. The statements about the engine, one `def Obligations.<Name> : Prop` each; OBLIGATIONS.json says for each
which rule it formalises. Where one names the fields `inbox`, `reply` and `resets`, those are the model's own (logs 1, 10,
4); `IV_CONST`, `BUF_MAX` and the block cipher are those of logs 5, 6 and 7. -/

open Sys2Proof Sys2Proof.Machine

/-! ### Encoding -/

/-- 30_encoding R92: a word names a command exactly when `[31:8]` is zero and `[7:0]` is its opcode; equivalently when it
equals the command's word. -/
def Obligations.DecodeNamesExactlyOneCommand : Prop :=
  ∀ (w : Word) (i : Instr),
    (decode w = .ok i ↔ w.extractLsb 31 8 = 0#24 ∧ (w.extractLsb 7 0, i) ∈ opcodeMap) ∧
    (decode w = .ok i ↔ w = encode i)

/-- Every command, all of them well formed, decodes from its own word (30_encoding R92, R93). -/
def Obligations.DecodeOfEncodeIsTheCommand : Prop := ∀ i : Instr, i.wf = true → decode (encode i) = .ok i

/-- The eight words, written out from the opcode map (30_encoding R93), and two given as the opcode table numbers bits
(log 14). -/
def Obligations.WordsOfTheOpcodeMapDecode : Prop :=
  decode 0x00000000#32 = .ok .nop ∧ decode 0x00000001#32 = .ok .decrypt ∧ decode 0x00000002#32 = .ok .cbcDec ∧
    decode 0x00000003#32 = .ok .xorExp ∧ decode 0x00000010#32 = .ok .parseHdr ∧ decode 0x00000011#32 = .ok .next ∧
    decode 0x00000012#32 = .ok .scan ∧ decode 0x0000007F#32 = .ok .clear ∧
    decodeTableWord 32 0x12 = some .scan ∧ decodeTableWord 32 0x100 = none

/-- 30_encoding R95: the illegal words, and what writing one does. -/
def Obligations.IllegalWordsRaiseIllegalCmd : Prop :=
  ∀ (w : Word) (s : State),
    ((∃ e, decode w = .error e) ↔
      (0x04 ≤ w.toNat ∧ w.toNat ≤ 0x0F) ∨ (0x13 ≤ w.toNat ∧ w.toNat ≤ 0x7E) ∨ (0x80 ≤ w.toNat ∧ w.toNat ≤ 0xFF) ∨
        w.extractLsb 31 8 ≠ 0#24) ∧
    ((∃ e, decode w = .error e) → s.status.phase ≠ .fault → execWord w s = .next (s.raise .illegalCmd w)) ∧
    ((∃ e, decode w = .error e) → s.status.phase = .fault → execWord w s = .next s)

/-- 30_encoding R97: the order of the decode-time checks. -/
def Obligations.CommandWordChecksInOrder : Prop :=
  ∀ (w : Word) (s : State), execWord w s =
    if w = 0x0000007F#32 then exec .clear s
    else if s.status.phase = .fault then .next s
    else
      match decode w with
      | .error _ => .next (s.raise .illegalCmd w)
      | .ok i => if sequenceError i s.status.phase = true then .next (s.raise .sequence w) else exec i s

/-! ### The step and the transactions -/

/-- A step whose transaction writes a command's word to CMD runs that command, on the state with the transaction taken
off the host's sequence and nothing returned. -/
def Obligations.StepRunsTheDecodedCommand : Prop :=
  ∀ (s : State) (w : Word) (i : Instr) (rest : List Transaction),
    s.inbox = .regWrite 0x00 w :: rest → decode w = .ok i →
      step s = exec i { s with inbox := rest, reply := none }

/-- The host's fixed way of placing a command (log 1): the very next step runs it. -/
def Obligations.StepRunsThePlacedCommand : Prop :=
  ∀ (s : State) (i : Instr), step (s.withFetchWord 32 (encode i).toNat) = exec i { s with reply := none }

/-- The engine never moves on its own (42_control_and_host R183); answering the same state is the model's choice, log 2. -/
def Obligations.NothingMovesWithoutATransaction : Prop := ∀ s : State, s.inbox = [] → step s = .next s

/-- A step never faults; it is refused exactly on a register transaction at an offset that is no multiple of 4
(20_memory R66); else it takes one transaction off the host's sequence. -/
def Obligations.StepTakesEveryTransaction : Prop :=
  ∀ s : State,
    (∀ f, step s ≠ .fault f) ∧
    (∀ r, step s = .refused r ↔ ∃ off rest, off % 4 ≠ 0 ∧ r = .notATransaction off ∧
      (s.inbox = .regRead off :: rest ∨ ∃ v, s.inbox = .regWrite off v :: rest)) ∧
    (∀ x rest, s.inbox = x :: rest → x.wf = true → ∃ t, step s = .next t ∧ t.inbox = rest)

/-- A sequence of transactions of this engine is served to its end, in order. -/
def Obligations.EverySequenceOfTransactionsIsServed : Prop :=
  ∀ s : State, (∀ x ∈ s.inbox, x.wf = true) → ServesAll s

/-- 10_state R23: the word STATUS reads as, and its fields. -/
def Obligations.StatusWordFields : Prop :=
  Phase.code .idle = 0 ∧ Phase.code .iter = 1 ∧ Phase.code .ended = 2 ∧ Phase.code .fault = 3 ∧
  ∀ st : Status,
    st.word.toNat = st.phase.code + 4 * (if st.evalid then 1 else 0) + 8 * (if st.cbcDone then 1 else 0) +
      16 * (if st.xorDone then 1 else 0) + 256 * st.err.toNat ∧
    (st.word.extractLsb 1 0).toNat = st.phase.code ∧ st.word.getLsbD 2 = st.evalid ∧ st.word.getLsbD 3 = st.cbcDone ∧
    st.word.getLsbD 4 = st.xorDone ∧ st.word.extractLsb 7 5 = 0#3 ∧ st.word.extractLsb 15 8 = st.err ∧
    st.word.extractLsb 31 16 = 0#16

/-- 42_control_and_host R184; that every offset from 0x3C on reads 0, however large the register window, is the model's
reading (log 9). -/
def Obligations.RegReadReturnsTheRegister : Prop :=
  ∀ (s : State) (off : Nat) (rest : List Transaction), s.inbox = .regRead off :: rest → off % 4 = 0 →
    ∃ v : Word, step s = .next { s with inbox := rest, reply := some (.word v) } ∧
      (off = 0x04 → v = s.status.word) ∧ (off = 0x08 → v = s.len) ∧ (off = 0x0C → v = s.xlen) ∧
      (off = 0x10 → v = s.toc.count) ∧ (off = 0x14 → v = s.toc.tabOff) ∧ (off = 0x18 → v = s.toc.dataOff) ∧
      (off = 0x1C → v = s.toc.cur) ∧ (off = 0x20 → v = s.toc.idx) ∧ (off = 0x24 → v = s.desc.pathOff) ∧
      (off = 0x28 → v = s.desc.pathLen) ∧ (off = 0x2C → v = s.desc.off) ∧ (off = 0x30 → v = s.desc.len) ∧
      (off = 0x34 → v = s.desc.start) ∧ (off = 0x38 → v = s.errInfo) ∧ (off = 0x00 ∨ 0x3C ≤ off → v = 0x00000000#32)

/-- 42_control_and_host R185. -/
def Obligations.RegWriteStoresLenAndXlenInIdle : Prop :=
  ∀ (s : State) (off : Nat) (v : Word) (rest : List Transaction), s.inbox = .regWrite off v :: rest → off % 4 = 0 →
    (off = 0x00 → step s = execWord v { s with inbox := rest, reply := none }) ∧
    (off = 0x08 → s.status.phase = .idle → step s = .next { s with inbox := rest, reply := none, len := v }) ∧
    (off = 0x0C → s.status.phase = .idle → step s = .next { s with inbox := rest, reply := none, xlen := v }) ∧
    (off ≠ 0x00 → s.status.phase ≠ .idle ∨ (off ≠ 0x08 ∧ off ≠ 0x0C) →
      step s = .next { s with inbox := rest, reply := none })

/-- 42_control_and_host R186. -/
def Obligations.RawTransactionsReachRawAlone : Prop :=
  (∀ (s : State) (a : Nat) (b : Byte) (rest : List Transaction), s.inbox = .rawWrite a b :: rest →
    ∃ t, step s = .next t ∧ t = { s with inbox := rest, reply := none, raw := t.raw } ∧
      ∀ x, t.byteAt .raw x = if x = a ∧ a < bufMax then b else s.byteAt .raw x) ∧
  (∀ (s : State) (a : Nat) (rest : List Transaction), s.inbox = .rawRead a :: rest →
    step s = .next { s with
      inbox := rest
      reply := some (.byte (if a < bufMax then s.byteAt .raw a else 0x00#8)) }) ∧
  (∀ (i : Instr) (s t : State), exec i s = .next t → t.raw = s.raw)

/-- 42_control_and_host R187: what a `DecWrite` and a `DecRead` do, in every state. -/
def Obligations.DecTransactionsReachDecAlone : Prop :=
  (∀ (s : State) (a : Nat) (b : Byte) (rest : List Transaction), s.inbox = .decWrite a b :: rest →
    ∃ t, step s = .next t ∧ t = { s with inbox := rest, reply := none, dec := t.dec } ∧
      ∀ x, t.byteAt .dec x = if x = a ∧ a < bufMax then b else s.byteAt .dec x) ∧
  (∀ (s : State) (a : Nat) (rest : List Transaction), s.inbox = .decRead a :: rest →
    step s = .next { s with
      inbox := rest
      reply := some (.byte (if a < bufMax then s.byteAt .dec a else 0x00#8)) })

/-- 42_control_and_host R188, R189: what a `KeyWrite` and a `SeedWrite` store, on states whose stores are in canonical
form (which every reachable state is in: `StepKeepsTheInvariant`). -/
def Obligations.KeyAndSeedWritesStoreInRange : Prop :=
  (∀ (s : State) (i : Nat) (b : Byte) (rest : List Transaction), Memory.wf Space.key.blank s.key →
    s.inbox = .keyWrite i b :: rest →
    ∃ t, step s = .next t ∧ t = { s with inbox := rest, reply := none, key := t.key } ∧
      ∀ x, t.byteAt .key x = if x = i ∧ i < 32 then b else s.byteAt .key x) ∧
  (∀ (s : State) (i : Nat) (b : Byte) (rest : List Transaction), Memory.wf Space.xseed.blank s.xseed →
    s.inbox = .seedWrite i b :: rest →
    ∃ t, step s = .next t ∧ t = { s with inbox := rest, reply := none, xseed := t.xseed } ∧
      ∀ x, t.byteAt .xseed x = if x = i ∧ i < 16 then b else s.byteAt .xseed x)

/-- 10_state R41: the values hardware reset sets. RAW and DEC are unspecified: nothing is stated of their bytes. -/
def Obligations.ResetSetsEveryRegisterToZero : Prop :=
  let r := State.reset
  r.status.word = 0x00000000#32 ∧ r.status.phase = .idle ∧ r.status.evalid = false ∧ r.status.cbcDone = false ∧
    r.status.xorDone = false ∧ r.status.err = 0x00#8 ∧ r.len = 0#32 ∧ r.xlen = 0#32 ∧ r.toc.count = 0#32 ∧
    r.toc.tabOff = 0#32 ∧ r.toc.dataOff = 0#32 ∧ r.toc.cur = 0#32 ∧ r.toc.idx = 0#32 ∧ r.desc.pathOff = 0#32 ∧
    r.desc.pathLen = 0#32 ∧ r.desc.off = 0#32 ∧ r.desc.len = 0#32 ∧ r.desc.start = 0#32 ∧ r.errInfo = 0#32 ∧
    (∀ i, r.byteAt .key i = 0x00#8) ∧ (∀ i, r.byteAt .xseed i = 0x00#8)

/-- 42_control_and_host R190: `HwReset` in any state; the bytes of RAW and DEC after it are new free values (the model's
choice of a form for "unspecified", log 3). -/
def Obligations.HwResetSetsTheResetState : Prop :=
  ∀ (s : State) (rest : List Transaction), s.inbox = .hwReset :: rest →
    ∃ t, step s = .next t ∧ t = { State.reset with inbox := rest, reply := none, resets := s.resets + 1 } ∧
      (∀ i, t.byteAt .key i = 0x00#8) ∧ (∀ i, t.byteAt .xseed i = 0x00#8) ∧
      (∀ a, t.byteAt .raw a = Config.rawAfterReset (s.resets + 1) a) ∧
      (∀ a, t.byteAt .dec a = Config.decAfterReset (s.resets + 1) a)

/-! ### Errors -/

/-- 60_exceptions R240: error entry, whole. -/
def Obligations.ErrorEntryLatchesAndClears : Prop :=
  ∀ (s : State) (e : ErrCause) (info : Word), s.raise e info =
    { s with
      status := { phase := .fault, evalid := false, cbcDone := s.status.cbcDone, xorDone := s.status.xorDone, err := e.code }
      errInfo := info
      desc := { pathOff := 0#32, pathLen := 0#32, off := 0#32, len := 0#32, start := 0#32 } }

/-- The nine codes (60_exceptions R231): pairwise different, none 0x00, the class in the high four bits. -/
def Obligations.ErrorCodesAreTheNine : Prop :=
  ErrCause.code .truncated = 0x11#8 ∧ ErrCause.code .badPadding = 0x12#8 ∧ ErrCause.code .badMagic = 0x21#8 ∧
    ErrCause.code .truncatedTable = 0x22#8 ∧ ErrCause.code .pathTraversal = 0x23#8 ∧
    ErrCause.code .entryRange = 0x24#8 ∧ ErrCause.code .illegalCmd = 0x31#8 ∧ ErrCause.code .sequence = 0x32#8 ∧
    ErrCause.code .config = 0x33#8 ∧ (∀ e, ErrCause.code e ≠ 0x00#8) ∧ ∀ e f, ErrCause.code e = ErrCause.code f → e = f

/-- FAULT is left by `CLEAR` and by `HwReset` alone; until then the first error stays latched and no other register,
flag, header or descriptor changes (60_exceptions R241, R244). -/
def Obligations.FaultIsLeftByClearOrResetAlone : Prop :=
  ∀ s t : State, s.status.phase = .fault → step s = .next t →
    (t.status = s.status ∧ t.errInfo = s.errInfo ∧ t.toc = s.toc ∧ t.desc = s.desc ∧ t.len = s.len ∧ t.xlen = s.xlen) ∨
    ∃ rest, s.inbox = .hwReset :: rest ∨ s.inbox = .regWrite 0x00 0x0000007F#32 :: rest

/-- In FAULT every command word but that of `CLEAR` is ignored: the whole state stays (60_exceptions R241). -/
def Obligations.FaultIgnoresEveryWordButClear : Prop :=
  ∀ (w : Word) (s : State), s.status.phase = .fault → w ≠ 0x0000007F#32 → execWord w s = .next s

/-! ### Control commands -/

/-- 42_control_and_host R180. -/
def Obligations.NopChangesNothing : Prop := ∀ s : State, exec .nop s = .next s

/-- 42_control_and_host R181: every register, KEY and XSEED to 0, RAW and DEC untouched, in every state; and that is the
state after hardware reset but for RAW and DEC (and the model's own fields). -/
def Obligations.ClearZeroesAllButTheBuffers : Prop :=
  ∀ s : State, ∃ t, exec .clear s = .next t ∧
    t = { State.reset with
      raw := s.raw, dec := s.dec, resets := s.resets, inbox := s.inbox, reply := s.reply } ∧
    t.status.word = 0#32 ∧ t.len = 0#32 ∧ t.xlen = 0#32 ∧ t.toc.count = 0#32 ∧ t.toc.tabOff = 0#32 ∧
    t.toc.dataOff = 0#32 ∧ t.toc.cur = 0#32 ∧ t.toc.idx = 0#32 ∧ t.desc.pathOff = 0#32 ∧ t.desc.pathLen = 0#32 ∧
    t.desc.off = 0#32 ∧ t.desc.len = 0#32 ∧ t.desc.start = 0#32 ∧ t.errInfo = 0#32 ∧
    (∀ i, t.byteAt .key i = 0x00#8) ∧ (∀ i, t.byteAt .xseed i = 0x00#8) ∧
    (∀ a, t.byteAt .raw a = s.byteAt .raw a) ∧ ∀ a, t.byteAt .dec a = s.byteAt .dec a

/-! ### Cipher commands -/

/-- 40_cipher_commands R116: `CBC_DEC`. The entry errors; with valid padding the header region is decrypted into
`DEC[0 .. 1023]`, CBC_DONE set and all else unchanged; else the same bytes are written and `BadPadding` raised. -/
def Obligations.CbcDecDecryptsTheHeaderRegion : Prop :=
  ∀ s : State,
    CipherEntryErrors .cbcDec true false s ∧
    (CipherReady wde1 false s → ValidPadding 16 1024 (cbcByte wde1 s) →
      ∃ t, exec .cbcDec s = .next t ∧
        t = { s with status := { s.status with cbcDone := true }, dec := t.dec } ∧
        ∀ x, t.byteAt .dec x = if x < 1024 then cbcByte wde1 s x else s.byteAt .dec x) ∧
    (CipherReady wde1 false s → ¬ValidPadding 16 1024 (cbcByte wde1 s) →
      ∃ t, exec .cbcDec s = .next t ∧
        t = { s with
          status := { phase := .fault, evalid := false, cbcDone := false, xorDone := s.status.xorDone, err := 0x12#8 }
          errInfo := 0#32
          desc := .zero
          dec := t.dec } ∧
        ∀ x, t.byteAt .dec x = if x < 1024 then cbcByte wde1 s x else s.byteAt .dec x)

/-- 40_cipher_commands R119: `XOR_EXP`. The entry errors; else the remainder is XOR-ed with the cyclic keystream into
`DEC[1024 .. LEN-1]`, XOR_DONE set and all else unchanged. -/
def Obligations.XorExpExpandsTheRemainder : Prop :=
  ∀ s : State,
    CipherEntryErrors .xorExp false true s ∧
    (CipherReady wde1 true s →
      ∃ t, exec .xorExp s = .next t ∧
        t = { s with status := { s.status with xorDone := true }, dec := t.dec } ∧
        ∀ x, t.byteAt .dec x =
          if 1024 ≤ x ∧ x < s.len.toNat then s.byteAt .raw x ^^^ s.byteAt .xseed ((x - 1024) % s.xlen.toNat)
          else s.byteAt .dec x)

/-- 40_cipher_commands R120: `DECRYPT`. The entry errors; with valid padding the whole package is decrypted into
`DEC[0 .. LEN-1]`, both flags set and all else unchanged; else the XOR stage does not run. -/
def Obligations.DecryptDecryptsThePackage : Prop :=
  ∀ s : State,
    CipherEntryErrors .decrypt true true s ∧
    (CipherReady wde1 true s → ValidPadding 16 1024 (cbcByte wde1 s) →
      ∃ t, exec .decrypt s = .next t ∧
        t = { s with status := { s.status with cbcDone := true, xorDone := true }, dec := t.dec } ∧
        ∀ x, t.byteAt .dec x =
          if x < 1024 then cbcByte wde1 s x
          else if x < s.len.toNat then s.byteAt .raw x ^^^ s.byteAt .xseed ((x - 1024) % s.xlen.toNat)
          else s.byteAt .dec x) ∧
    (CipherReady wde1 true s → ¬ValidPadding 16 1024 (cbcByte wde1 s) →
      ∃ t, exec .decrypt s = .next t ∧
        t = { s with
          status := { phase := .fault, evalid := false, cbcDone := false, xorDone := false, err := 0x12#8 }
          errInfo := 0#32
          desc := .zero
          dec := t.dec } ∧
        ∀ x, t.byteAt .dec x = if x < 1024 then cbcByte wde1 s x else s.byteAt .dec x)

/-- `DECRYPT` equals `CBC_DEC` followed by `XOR_EXP` where it succeeds (from 40_cipher_commands R120; log 17 says why not
after a `BadPadding`). -/
def Obligations.DecryptIsCbcDecThenXorExp : Prop :=
  ∀ s : State, CipherReady wde1 true s → ValidPadding 16 1024 (cbcByte wde1 s) →
    ∃ t u, exec .cbcDec s = .next t ∧ exec .xorExp t = .next u ∧ exec .decrypt s = .next u

/-- A cipher command that succeeded, run again with nothing changed, succeeds again and leaves the same DEC and the same
flags (20_memory R68). -/
def Obligations.CipherCommandsAreIdempotent : Prop :=
  ∀ (i : Instr) (s t : State), i = .decrypt ∨ i = .cbcDec ∨ i = .xorExp → exec i s = .next t →
    t.status.phase = .idle →
    ∃ u, exec i t = .next u ∧ u = { t with dec := u.dec } ∧ ∀ x, u.byteAt .dec x = t.byteAt .dec x

/-- 40_cipher_commands R121: two packages decrypted with success. Byte `i` of the header region comes out equal where KEY
and the RAW bytes of its own block and the one before are equal; byte `i` of the remainder where XLEN, the seed and
`RAW[i]` are. Nothing else of the two states need agree (LEN, the other RAW bytes, DEC before). -/
def Obligations.OutputByteDependsOnItsBlocksAlone : Prop :=
  ∀ (s t s' t' : State) (i : Nat), exec .decrypt s = .next s' → exec .decrypt t = .next t' →
    s'.status.phase = .idle → t'.status.phase = .idle → i < s.len.toNat → i < t.len.toNat →
    (i < 1024 → (∀ j < 32, t.byteAt .key j = s.byteAt .key j) →
      (∀ a, i / 16 * 16 ≤ a + 16 → a < i / 16 * 16 + 16 → t.byteAt .raw a = s.byteAt .raw a) →
      t'.byteAt .dec i = s'.byteAt .dec i) ∧
    (1024 ≤ i → t.xlen = s.xlen → (∀ j < s.xlen.toNat, t.byteAt .xseed j = s.byteAt .xseed j) →
      t.byteAt .raw i = s.byteAt .raw i → t'.byteAt .dec i = s'.byteAt .dec i)

/-- 40_cipher_commands R122 under every configuration (00_scope R6): `DECRYPT` undoes `RefEncrypt`. -/
def Obligations.DecryptUndoesRefEncryptInEveryConfiguration : Prop :=
  ∀ (c : Cfg) (enc : List Byte → List Byte → List Byte) (s : State) (text : List Byte),
    c.WellFormed → c.BlockTotal →
    (∀ key block : List Byte, key.length = c.keyLen → block.length = c.blk →
      (enc key block).length = c.blk ∧ c.blockDec key (enc key block) = block) →
    CipherReady c true s → text.length = s.len.toNat → ValidPadding c.blk c.hdr (fun i => text.getD i 0x00#8) →
    s.memRead .raw 0 s.len.toNat = refEncrypt c enc (s.keyBytes c) (s.memRead .xseed 0 s.xlen.toNat) text →
    ∃ t, decryptCmd c s = .running t ∧ t.memRead .dec 0 s.len.toNat = text ∧
      t.status = { s.status with cbcDone := true, xorDone := true }

/-- 40_cipher_commands R122 for the hardware itself, with AES-256 (PRESUMED, log 7): no assumption on the cipher is left. -/
def Obligations.DecryptUndoesRefEncrypt : Prop :=
  ∀ (s : State) (text : List Byte), CipherReady wde1 true s → text.length = s.len.toNat →
    ValidPadding 16 1024 (fun i => text.getD i 0x00#8) →
    s.memRead .raw 0 s.len.toNat =
      refEncrypt wde1 Aes.blockEnc (s.keyBytes wde1) (s.memRead .xseed 0 s.xlen.toNat) text →
    ∃ t, exec .decrypt s = .next t ∧ t.memRead .dec 0 s.len.toNat = text ∧
      t = { s with status := { s.status with cbcDone := true, xorDone := true }, dec := t.dec }

/-! ### The block cipher -/

/-- 43_block_cipher_aes R210 and R209: the inverse cipher undoes the cipher and the other way round, for every key. -/
def Obligations.BlockDecIsABijection : Prop :=
  ∀ key block : List Byte, block.length = 16 →
    Aes.blockDec key (Aes.blockEnc key block) = block ∧ Aes.blockEnc key (Aes.blockDec key block) = block

/-- 43_block_cipher_aes R203: `SBox` from the field's inverse, and `InvSBox` its inverse permutation. -/
def Obligations.SBoxIsTheAffineImageOfTheInverse : Prop :=
  ∀ a : Byte,
    (∃ b : Byte, (a = 0x00#8 → b = 0x00#8) ∧ (a ≠ 0x00#8 → Aes.mul a b = 0x01#8) ∧
      Aes.sbox a = b ^^^ b.rotateLeft 1 ^^^ b.rotateLeft 2 ^^^ b.rotateLeft 3 ^^^ b.rotateLeft 4 ^^^ 0x63#8) ∧
    Aes.invSbox (Aes.sbox a) = a ∧ Aes.sbox (Aes.invSbox a) = a

/-- A value of 43_block_cipher_aes R212: the inverse cipher of the zero block under the zero key. -/
def Obligations.BlockDecOfZeroUnderZero : Prop :=
  Aes.blockDec (List.replicate 32 0x00#8) (List.replicate 16 0x00#8) =
    [0x67#8, 0x67#8, 0x1C#8, 0xE1#8, 0xFA#8, 0x91#8, 0xDD#8, 0xEB#8,
     0x0F#8, 0x8F#8, 0xBB#8, 0xB3#8, 0x66#8, 0xB5#8, 0x31#8, 0xB4#8]

/-! ### Container commands -/

/-- 41_container_commands R142: `PARSE_HDR`, every outcome in the rule's order. -/
def Obligations.ParseHdrLatchesAndChecks : Prop :=
  ∀ s : State, s.status.phase ≠ .fault →
    (bufMax < s.len.toNat →
      exec .parseHdr s = .next { s.raise .config 0#32 with toc := .zero }) ∧
    (s.len.toNat ≤ bufMax → s.len.toNat < 16 →
      exec .parseHdr s = .next { s.raise .truncatedTable 0xFFFFFFFF#32 with toc := .zero }) ∧
    (s.len.toNat ≤ bufMax → 16 ≤ s.len.toNat → s.memRead .dec 0 4 ≠ [0xBE#8, 0xBA#8, 0x66#8, 0x58#8] →
      exec .parseHdr s = .next { s.raise .badMagic 0#32 with toc := .zero }) ∧
    (s.len.toNat ≤ bufMax → 16 ≤ s.len.toNat → s.memRead .dec 0 4 = [0xBE#8, 0xBA#8, 0x66#8, 0x58#8] →
      (s.be32 .dec 4).toNat ≠ 0 ∧ s.len.toNat < (s.be32 .dec 8).toNat + 12 * (s.be32 .dec 4).toNat →
      exec .parseHdr s = .next { s.raise .truncatedTable 0xFFFFFFFF#32 with
        toc := { count := s.be32 .dec 4, tabOff := s.be32 .dec 8, dataOff := s.be32 .dec 12, cur := 0#32, idx := 0#32 } }) ∧
    (s.len.toNat ≤ bufMax → 16 ≤ s.len.toNat → s.memRead .dec 0 4 = [0xBE#8, 0xBA#8, 0x66#8, 0x58#8] →
      ((s.be32 .dec 4).toNat = 0 ∨ (s.be32 .dec 8).toNat + 12 * (s.be32 .dec 4).toNat ≤ s.len.toNat) →
      exec .parseHdr s = .next { s with
        toc := { count := s.be32 .dec 4, tabOff := s.be32 .dec 8, dataOff := s.be32 .dec 12, cur := s.be32 .dec 8,
                 idx := 0#32 }
        desc := .zero
        status := { s.status with phase := .iter, evalid := false } })

/-- 41_container_commands R146 and R147: `NEXT` in every state but FAULT, every outcome in the rules' order. -/
def Obligations.NextYieldsEndsOrRaises : Prop :=
  ∀ s : State,
    let cu := s.toc.cur.toNat
    let n := (s.be32 .dec cu).toNat
    let off := s.be32 .dec (cu + 4 + n)
    let size := s.be32 .dec (cu + 8 + n)
    (s.status.phase = .idle → exec .next s = .next (s.raise .sequence 0x00000011#32)) ∧
    (s.status.phase = .ended →
      exec .next s = .next { s with desc := .zero, status := { s.status with evalid := false } }) ∧
    (s.status.phase = .iter → s.toc.idx = s.toc.count →
      exec .next s = .next { s with desc := .zero, status := { s.status with phase := .ended, evalid := false } }) ∧
    (s.status.phase = .iter → s.toc.idx ≠ s.toc.count →
      (s.len.toNat < cu + 4 → exec .next s = .next (s.raise .truncatedTable s.toc.idx)) ∧
      (cu + 4 ≤ s.len.toNat → s.len.toNat < cu + 4 + n → exec .next s = .next (s.raise .truncatedTable s.toc.idx)) ∧
      (cu + 4 + n ≤ s.len.toNat → hasDotDot (s.memRead .dec (cu + 4) n) = true →
        exec .next s = .next (s.raise .pathTraversal s.toc.idx)) ∧
      (cu + 4 + n ≤ s.len.toNat → hasDotDot (s.memRead .dec (cu + 4) n) = false → s.len.toNat < cu + 12 + n →
        exec .next s = .next (s.raise .truncatedTable s.toc.idx)) ∧
      (cu + 12 + n ≤ s.len.toNat → hasDotDot (s.memRead .dec (cu + 4) n) = false →
        s.len.toNat < s.toc.dataOff.toNat + off.toNat + size.toNat →
        exec .next s = .next (s.raise .entryRange s.toc.idx)) ∧
      (cu + 12 + n ≤ s.len.toNat → hasDotDot (s.memRead .dec (cu + 4) n) = false →
        s.toc.dataOff.toNat + off.toNat + size.toNat ≤ s.len.toNat →
        ∃ t, exec .next s = .next t ∧
          t = { s with
            desc := t.desc
            status := { s.status with evalid := true }
            toc := { s.toc with cur := t.toc.cur, idx := s.toc.idx + 1#32 } } ∧
          t.desc.pathOff.toNat = cu + 4 ∧ t.desc.pathLen.toNat = n ∧ t.desc.off = off ∧ t.desc.len = size ∧
          t.desc.start.toNat = s.toc.dataOff.toNat + off.toNat ∧ t.toc.cur.toNat = cu + 12 + n))

/-- 41_container_commands R154: what a yielded descriptor guarantees, whatever state `NEXT` started in but FAULT. -/
def Obligations.NextYieldsSafeDescriptors : Prop :=
  ∀ s t : State, s.status.phase ≠ .fault → exec .next s = .next t → t.status.evalid = true → DescriptorSafe t

/-- From 41_container_commands R150: `HasDotDot` says that `2E 2E` stands in the path between separators or its ends. -/
def Obligations.HasDotDotFindsTheSegment : Prop :=
  ∀ path : List Byte, hasDotDot path = true ↔
    ∃ before after : List Byte, path = before ++ [0x2E#8, 0x2E#8] ++ after ∧
      (before = [] ∨ before.getLast? = some 0x2F#8) ∧ (after = [] ∨ after.head? = some 0x2F#8)

/-- 41_container_commands R150: the segments are the runs between separators, one more than there are separators, and
`HasDotDot` holds exactly when one of them is `2E 2E`. -/
def Obligations.SegmentsAreTheRunsBetweenSeparators : Prop :=
  ∀ path : List Byte,
    List.intercalate [0x2F#8] (segments path) = path ∧ (∀ seg ∈ segments path, 0x2F#8 ∉ seg) ∧
      (segments path).length = path.count 0x2F#8 + 1 ∧ (hasDotDot path = true ↔ [0x2E#8, 0x2E#8] ∈ segments path)

/-- 41_container_commands R156: outside FAULT, `SCAN` succeeds exactly when the header and every entry are good, and then
leaves exactly the state a successful `PARSE_HDR` leaves. -/
def Obligations.ScanSucceedsExactlyOnAGoodTable : Prop :=
  ∀ s : State, s.status.phase ≠ .fault →
    ((HeaderOk wde1 s ∧ ∀ k < s.countField.toNat, EntryOk s s.dataOffField (entryAddr s s.tableOffField.toNat k)) →
      ∃ t, exec .scan s = .next t ∧ exec .parseHdr s = .next t ∧ t.status.phase = .iter) ∧
    (∀ t, exec .scan s = .next t → t.status.phase = .iter →
      HeaderOk wde1 s ∧ ∀ k < s.countField.toNat, EntryOk s s.dataOffField (entryAddr s s.tableOffField.toNat k))

/-- 41_container_commands R156: after a successful `SCAN`, COUNT commands `NEXT` each yield an entry, in table order, and
the one after reaches END; nothing but the descriptor, EVALID, CUR, IDX and at last STATE changes on the way. -/
def Obligations.ScanPromisesCountEntriesThenEnd : Prop :=
  ∀ s t : State, s.status.phase ≠ .fault → exec .scan s = .next t → t.status.phase = .iter →
    (∀ k < t.toc.count.toNat,
      let cu := entryAddr t t.toc.tabOff.toNat k
      let n := (t.be32 .dec cu).toNat
      ∃ u, runCommands (List.replicate (k + 1) .next) t = .next u ∧
        u = { t with
          desc := u.desc
          status := { t.status with evalid := true }
          toc := { t.toc with cur := u.toc.cur, idx := u.toc.idx } } ∧
        u.toc.idx.toNat = k + 1 ∧ u.toc.cur.toNat = entryAddr t t.toc.tabOff.toNat (k + 1) ∧
        u.desc.pathOff.toNat = cu + 4 ∧ u.desc.pathLen.toNat = n ∧ u.desc.off = t.be32 .dec (cu + 4 + n) ∧
        u.desc.len = t.be32 .dec (cu + 8 + n) ∧
        u.desc.start.toNat = t.toc.dataOff.toNat + (t.be32 .dec (cu + 4 + n)).toNat) ∧
    ∃ u, runCommands (List.replicate (t.toc.count.toNat + 1) .next) t = .next u ∧
      u = { t with
        desc := .zero
        status := { t.status with phase := .ended, evalid := false }
        toc := { t.toc with cur := u.toc.cur, idx := t.toc.count } } ∧
      u.toc.cur.toNat = entryAddr t t.toc.tabOff.toNat t.toc.count.toNat

/-- 41_container_commands R156, 60_exceptions R243: a failing `SCAN` reports what `PARSE_HDR` reports when the header is
bad, and else the first failing check of the first bad entry in table order, with CUR and IDX at it and ERRINFO its
index. -/
def Obligations.ScanReportsTheFirstBadEntry : Prop :=
  ∀ s : State, s.status.phase ≠ .fault →
    (¬HeaderOk wde1 s → exec .scan s = exec .parseHdr s) ∧
    ∀ k, HeaderOk wde1 s → k < s.countField.toNat →
      (∀ j < k, EntryOk s s.dataOffField (entryAddr s s.tableOffField.toNat j)) →
      ¬EntryOk s s.dataOffField (entryAddr s s.tableOffField.toNat k) →
      let cu := entryAddr s s.tableOffField.toNat k
      let n := (s.be32 .dec cu).toNat
      ∃ t, exec .scan s = .next t ∧
        t = { s with
          toc := { count := s.countField, tabOff := s.tableOffField, dataOff := s.dataOffField, cur := t.toc.cur,
                   idx := t.toc.idx }
          desc := .zero
          status := { s.status with phase := .fault, evalid := false, err := t.status.err }
          errInfo := t.toc.idx } ∧
        t.toc.cur.toNat = cu ∧ t.toc.idx.toNat = k ∧
        t.status.err =
          if s.len.toNat < cu + 4 ∨ s.len.toNat < cu + 4 + n then 0x22#8
          else if hasDotDot (s.memRead .dec (cu + 4) n) = true then 0x23#8
          else if s.len.toNat < cu + 12 + n then 0x22#8
          else 0x24#8

/-- 20_memory R62: `BE32` is the rule's sum, most significant byte first, and so are the six numbers the engine reads from
the container: the header fields a good `PARSE_HDR` or `SCAN` latches, the fields of the entry at CUR that `NEXT` yields. -/
def Obligations.ContainerNumbersAreBigEndian : Prop :=
  ∀ s : State,
    let sum := fun a : Nat => (s.byteAt .dec a).toNat * 2 ^ 24 + (s.byteAt .dec (a + 1)).toNat * 2 ^ 16 +
      (s.byteAt .dec (a + 2)).toNat * 2 ^ 8 + (s.byteAt .dec (a + 3)).toNat
    let cu := s.toc.cur.toNat
    (∀ a, (s.be32 .dec a).toNat = sum a) ∧
    (∀ t, s.status.phase ≠ .fault → exec .parseHdr s = .next t ∨ exec .scan s = .next t → t.status.phase = .iter →
      t.toc.count.toNat = sum 4 ∧ t.toc.tabOff.toNat = sum 8 ∧ t.toc.dataOff.toNat = sum 12) ∧
    (∀ t, s.status.phase ≠ .fault → exec .next s = .next t → t.status.evalid = true →
      t.desc.pathLen.toNat = sum cu ∧ t.desc.off.toNat = sum (cu + 4 + sum cu) ∧
        t.desc.len.toNat = sum (cu + 8 + sum cu))

/-! ### All commands -/

/-- Every command, in every state, answers a next state (from 42_control_and_host R183). -/
def Obligations.EveryCommandCompletes : Prop := ∀ (i : Instr) (s : State), ∃ t, exec i s = .next t

/-- 10_state R42: what each command leaves unchanged. RAW and the model's own fields by every command; KEY, XSEED, LEN,
XLEN by every command but `CLEAR`; DEC by all but the cipher commands; the header registers by all but the container
commands and `CLEAR`. -/
def Obligations.CommandsLeaveTheRestUnchanged : Prop :=
  ∀ (i : Instr) (s t : State), exec i s = .next t →
    t.raw = s.raw ∧ (∀ a, t.byteAt .raw a = s.byteAt .raw a) ∧ t.resets = s.resets ∧ t.inbox = s.inbox ∧
    t.reply = s.reply ∧
    (i ≠ .clear → t.key = s.key ∧ t.xseed = s.xseed ∧ t.len = s.len ∧ t.xlen = s.xlen) ∧
    (i ≠ .decrypt → i ≠ .cbcDec → i ≠ .xorExp → t.dec = s.dec ∧ ∀ a, t.byteAt .dec a = s.byteAt .dec a) ∧
    (i ≠ .parseHdr → i ≠ .next → i ≠ .scan → i ≠ .clear → t.toc = s.toc) ∧
    (i ≠ .decrypt → i ≠ .cbcDec → i ≠ .xorExp → i ≠ .clear →
      t.status.cbcDone = s.status.cbcDone ∧ t.status.xorDone = s.status.xorDone)

/-- No command writes a byte of DEC at or past LEN (10_state R35, 20_memory R70). -/
def Obligations.NoCommandWritesPastLen : Prop :=
  ∀ (i : Instr) (s t : State), exec i s = .next t → ∀ a, s.len.toNat ≤ a → t.byteAt .dec a = s.byteAt .dec a

/-- LEN changes only by a host write in IDLE, by `CLEAR` and by `HwReset` (10_state R24). -/
def Obligations.LenIsLockedOutsideIdle : Prop :=
  ∀ s t : State, step s = .next t → t.len ≠ s.len →
    ∃ rest, s.inbox = .hwReset :: rest ∨ s.inbox = .regWrite 0x00 0x0000007F#32 :: rest ∨
      (s.status.phase = .idle ∧ ∃ v, s.inbox = .regWrite 0x08 v :: rest)

/-- CBC_DONE and XOR_DONE gate nothing: two states that differ in them alone still differ in them alone after the same
command (10_state R37). -/
def Obligations.DoneFlagsGateNothing : Prop :=
  ∀ (i : Instr) (s t s' : State), SameButDone s t → exec i s = .next s' → ∃ t', exec i t = .next t' ∧ SameButDone s' t'

/-- KEY and XSEED are out of the host's sight: two machines that differ in them alone answer every transaction but a
cipher command alike, and still differ in them alone (10_state R32, R33; 20_memory R76). -/
def Obligations.KeyMaterialIsNotReadBack : Prop :=
  ∀ s t s' : State, SameButKeys s t → step s = .next s' →
    (∀ w rest, s.inbox = .regWrite 0x00 w :: rest →
      decode w ≠ .ok .decrypt ∧ decode w ≠ .ok .cbcDec ∧ decode w ≠ .ok .xorExp) →
    ∃ t', step t = .next t' ∧ SameButKeys s' t'

/-- `CBC_DEC` does not read XSEED and `XOR_EXP` does not read KEY (10_state R32, R33, R42). -/
def Obligations.EachStageReadsItsOwnKeyMaterial : Prop :=
  (∀ (s s' : State) (m : Memory), exec .cbcDec s = .next s' → exec .cbcDec { s with xseed := m } = .next { s' with xseed := m }) ∧
  (∀ (s s' : State) (m : Memory), exec .xorExp s = .next s' → exec .xorExp { s with key := m } = .next { s' with key := m })

/-! ### The invariant -/

/-- Every transaction keeps the invariant of the engine. -/
def Obligations.StepKeepsTheInvariant : Prop := ∀ s t : State, EngineInv wde1 s → step s = .next t → EngineInv wde1 t

/-- The state after hardware reset has the invariant. -/
def Obligations.ResetHasTheInvariant : Prop := EngineInv wde1 State.reset
end

