-- ==== Sys2Proof/Laws/Aes.lean ====
section
/-! SUPPORT. Laws of the block cipher's parts: addition, the linear product, the rows, the round keys. -/

namespace Sys2Proof.Machine.Aes

/-- Adding the same word twice gives the word back. -/
@[simp] theorem Col.add_add_self (u v : Col) : (u.add v).add v = u := by
  cases u; simp [Col.add]

/-- `AddRoundKey` is its own inverse (R205). -/
@[simp] theorem addRoundKey_addRoundKey (w : List Col) (r : Nat) (s : Block) :
    addRoundKey w r (addRoundKey w r s) = s := by
  simp [addRoundKey]

/-- `InvShiftRows` undoes `ShiftRows` (R206). -/
@[simp] theorem invShiftRows_shiftRows (s : Block) : invShiftRows (shiftRows s) = s := rfl

/-- `ShiftRows` undoes `InvShiftRows` (R206). -/
@[simp] theorem shiftRows_invShiftRows (s : Block) : shiftRows (invShiftRows s) = s := rfl

/-- The product is linear in its second factor (R202). -/
theorem mulBits_xor (n : Nat) (a b b' : Byte) : mulBits n a (b ^^^ b') = mulBits n a b ^^^ mulBits n a b' := by
  induction n with
  | zero => simp [mulBits]
  | succ n ih =>
    simp only [mulBits, ih, BitVec.getLsbD_xor]
    have hx : ∀ x y z : Byte, x ^^^ y ^^^ z = x ^^^ z ^^^ y := fun x y z => by
      rw [BitVec.xor_assoc, BitVec.xor_comm y z, ← BitVec.xor_assoc]
    have hz : ∀ x y z : Byte, x ^^^ z ^^^ (y ^^^ z) = x ^^^ y := fun x y z => by
      rw [hx, ← BitVec.xor_assoc, BitVec.xor_assoc (x ^^^ y), BitVec.xor_self, BitVec.xor_zero]
    cases b.getLsbD n <;> cases b'.getLsbD n <;> simp [hz]
    · rw [BitVec.xor_assoc]
    · rw [hx]

theorem mul_xor (a b b' : Byte) : mul a (b ^^^ b') = mul a b ^^^ mul a b' := mulBits_xor 8 a b b'

/-- A block is the sixteen bytes of its state (R201). -/
theorem ofBytes_toBytes (s : Block) : ofBytes (toBytes s) = s := rfl

/-- Filling the state and reading it out gives the block back (R201). -/
theorem toBytes_ofBytes {v : List Byte} (h : v.length = 16) : toBytes (ofBytes v) = v := by
  obtain ⟨v0, v1, v2, v3, v4, v5, v6, v7, v8, v9, va, vb, vc, vd, ve, vf, rfl⟩ :
      ∃ v0 v1 v2 v3 v4 v5 v6 v7 v8 v9 va vb vc vd ve vf : Byte,
        v = [v0, v1, v2, v3, v4, v5, v6, v7, v8, v9, va, vb, vc, vd, ve, vf] := by
    match v, h with
    | [v0, v1, v2, v3, v4, v5, v6, v7, v8, v9, va, vb, vc, vd, ve, vf], _ =>
      exact ⟨v0, v1, v2, v3, v4, v5, v6, v7, v8, v9, va, vb, vc, vd, ve, vf, rfl⟩
  rfl

end Sys2Proof.Machine.Aes
end

