-- ==== Sys2Proof/Laws/Memory.lean ====
section
/-! SUPPORT. Laws of one space's list of cells: read after write, the canonical form, bounds, and that equal memories are
equal data. -/

namespace Sys2Proof.Machine

@[simp] theorem Memory.peek_nil (a : Nat) : Memory.peek [] a = none := rfl

theorem Memory.peek_cons (k : Nat) (v : Byte) (m : Memory) (a : Nat) :
    Memory.peek ((k, v) :: m) a = if k = a then some v else Memory.peek m a := rfl

/-- A listed byte stands in a cell. -/
theorem Memory.mem_of_peek {m : Memory} {a : Nat} {b : Byte} (h : Memory.peek m a = some b) : (a, b) ∈ m := by
  induction m with
  | nil => simp at h
  | cons x m ih =>
    obtain ⟨k, v⟩ := x
    rw [Memory.peek_cons] at h
    split at h
    · next hk => simp at h; subst hk; subst h; simp
    · exact List.mem_cons_of_mem _ (ih h)

/-- With strictly rising addresses, a cell is what is read at its address. -/
theorem Memory.peek_of_mem {m : Memory} (h : m.Pairwise (fun x y => x.1 < y.1)) {a : Nat} {b : Byte}
    (hm : (a, b) ∈ m) : Memory.peek m a = some b := by
  induction m with
  | nil => simp at hm
  | cons x m ih =>
    obtain ⟨k, v⟩ := x
    rw [List.pairwise_cons] at h
    rw [Memory.peek_cons]
    rcases List.mem_cons.1 hm with hx | hx
    · simp_all
    · have := h.1 _ hx
      have hk : k ≠ a := by simp at this; omega
      simp [hk, ih h.2 hx]

@[simp] theorem Memory.peek_insert_self (m : Memory) (a : Nat) (b : Byte) : (m.insert a b).peek a = some b := by
  induction m with
  | nil => simp [Memory.insert, Memory.peek_cons]
  | cons x m ih =>
    obtain ⟨k, v⟩ := x
    simp only [Memory.insert]
    split_ifs with h1 h2
    · simp [Memory.peek_cons]
    · simp [Memory.peek_cons]
    · simp [Memory.peek_cons, Ne.symm h2, ih]

theorem Memory.peek_insert_ne (m : Memory) {a x : Nat} (b : Byte) (h : x ≠ a) : (m.insert a b).peek x = m.peek x := by
  induction m with
  | nil => simp [Memory.insert, Memory.peek_cons, Ne.symm h]
  | cons y m ih =>
    obtain ⟨k, v⟩ := y
    simp only [Memory.insert]
    split_ifs with h1 h2
    · simp [Memory.peek_cons, Ne.symm h]
    · subst h2; simp [Memory.peek_cons, Ne.symm h]
    · simp [Memory.peek_cons, ih]

theorem Memory.peek_erase_ne (m : Memory) {a x : Nat} (h : x ≠ a) : (m.erase a).peek x = m.peek x := by
  induction m with
  | nil => rfl
  | cons y m ih =>
    obtain ⟨k, v⟩ := y
    simp only [Memory.erase]
    split_ifs with h1
    · subst h1; simp [Memory.peek_cons, Ne.symm h]
    · simp [Memory.peek_cons, ih]

theorem Memory.peek_eq_none_of_lt {m : Memory} {a : Nat} (h : ∀ x ∈ m, a < x.1) : m.peek a = none := by
  induction m with
  | nil => rfl
  | cons y m ih =>
    obtain ⟨k, v⟩ := y
    have hk : a < k := h _ (List.mem_cons_self ..)
    rw [Memory.peek_cons, if_neg (by omega)]
    exact ih (fun x hx => h x (List.mem_cons_of_mem _ hx))

theorem Memory.peek_erase_self {m : Memory} (h : m.Pairwise (fun x y => x.1 < y.1)) (a : Nat) :
    (m.erase a).peek a = none := by
  induction m with
  | nil => rfl
  | cons y m ih =>
    obtain ⟨k, v⟩ := y
    rw [List.pairwise_cons] at h
    simp only [Memory.erase]
    split_ifs with h1
    · subst h1; exact Memory.peek_eq_none_of_lt (fun x hx => h.1 x hx)
    · simp [Memory.peek_cons, h1, ih h.2]

/-- A cell of the memory after an insertion is the inserted one or an old one. -/
theorem Memory.mem_insert {m : Memory} {a : Nat} {b : Byte} {x : Host.Cell} (h : x ∈ m.insert a b) :
    x = (a, b) ∨ x ∈ m := by
  induction m with
  | nil => simpa [Memory.insert] using h
  | cons y m ih =>
    obtain ⟨k, v⟩ := y
    simp only [Memory.insert] at h
    split_ifs at h with h1 h2
    · simpa using h
    · rcases List.mem_cons.1 h with h | h
      · exact .inl h
      · exact .inr (List.mem_cons_of_mem _ h)
    · rcases List.mem_cons.1 h with h | h
      · exact .inr (by simp [h])
      · exact (ih h).imp id (List.mem_cons_of_mem _)

/-- A cell of the memory after an erasure is an old one. -/
theorem Memory.mem_erase {m : Memory} {a : Nat} {x : Host.Cell} (h : x ∈ m.erase a) : x ∈ m := by
  induction m with
  | nil => simp [Memory.erase] at h
  | cons y m ih =>
    obtain ⟨k, v⟩ := y
    simp only [Memory.erase] at h
    split_ifs at h with h1
    · exact List.mem_cons_of_mem _ h
    · rcases List.mem_cons.1 h with h | h
      · simp [h]
      · exact List.mem_cons_of_mem _ (ih h)

theorem Memory.pairwise_insert {m : Memory} (h : m.Pairwise (fun x y => x.1 < y.1)) (a : Nat) (b : Byte) :
    (m.insert a b).Pairwise (fun x y => x.1 < y.1) := by
  induction m with
  | nil => simp [Memory.insert]
  | cons y m ih =>
    obtain ⟨k, v⟩ := y
    have h' := List.pairwise_cons.1 h
    simp only [Memory.insert]
    split_ifs with h1 h2
    · refine List.pairwise_cons.2 ⟨fun x hx => ?_, h⟩
      rcases List.mem_cons.1 hx with rfl | hx
      · exact h1
      · exact Nat.lt_trans h1 (h'.1 _ hx)
    · subst h2; exact List.pairwise_cons.2 ⟨fun x hx => h'.1 x hx, h'.2⟩
    · refine List.pairwise_cons.2 ⟨fun x hx => ?_, ih h'.2⟩
      rcases Memory.mem_insert hx with rfl | hx
      · show k < a; omega
      · exact h'.1 _ hx

theorem Memory.pairwise_erase {m : Memory} (h : m.Pairwise (fun x y => x.1 < y.1)) (a : Nat) :
    (m.erase a).Pairwise (fun x y => x.1 < y.1) := by
  induction m with
  | nil => simp [Memory.erase]
  | cons y m ih =>
    obtain ⟨k, v⟩ := y
    have h' := List.pairwise_cons.1 h
    simp only [Memory.erase]
    split_ifs with h1
    · exact h'.2
    · exact List.pairwise_cons.2 ⟨fun x hx => h'.1 _ (Memory.mem_erase hx), ih h'.2⟩

/-- The empty memory is in canonical form. -/
theorem Memory.wf_nil (blank : Option Byte) : Memory.wf blank [] := by simp [Memory.wf]

/-- Every write keeps the canonical form. -/
theorem Memory.wf_write {blank : Option Byte} {m : Memory} (h : Memory.wf blank m) (a : Nat) (b : Byte) :
    Memory.wf blank (m.write blank a b) := by
  unfold Memory.write
  split_ifs with hb
  · exact ⟨Memory.pairwise_erase h.1 a, fun x hx => h.2 x (Memory.mem_erase hx)⟩
  · refine ⟨Memory.pairwise_insert h.1 a b, fun x hx => ?_⟩
    rcases Memory.mem_insert hx with rfl | hx
    · exact hb
    · exact h.2 x hx

/-- A write inside the space keeps every cell inside it. -/
theorem Memory.within_write {size : Nat} {m : Memory} (h : Memory.within size m) (blank : Option Byte) {a : Nat}
    (b : Byte) (ha : a < size) : Memory.within size (m.write blank a b) := by
  unfold Memory.write
  split_ifs
  · exact fun x hx => h x (Memory.mem_erase hx)
  · intro x hx
    rcases Memory.mem_insert hx with rfl | hx
    · exact ha
    · exact h x hx

/-- Reading another address after a write. -/
theorem Memory.peek_write_ne (blank : Option Byte) (m : Memory) {a x : Nat} (b : Byte) (h : x ≠ a) :
    (m.write blank a b).peek x = m.peek x := by
  unfold Memory.write
  split_ifs
  · exact Memory.peek_erase_ne m h
  · exact Memory.peek_insert_ne m b h

/-- What the written address lists after a write: the byte, or nothing where an unlisted address holds that byte. -/
theorem Memory.peek_write_self {blank : Option Byte} {m : Memory} (h : Memory.wf blank m) (a : Nat) (b : Byte) :
    (m.write blank a b).peek a = if blank = some b then none else some b := by
  unfold Memory.write
  split_ifs
  · exact Memory.peek_erase_self h.1 a
  · exact Memory.peek_insert_self m a b

/-- Equal memories are equal data: two canonical lists that list the same byte at every address are one list. -/
theorem Memory.ext_of_wf {blank : Option Byte} {m m' : Memory} (h : Memory.wf blank m) (h' : Memory.wf blank m')
    (heq : ∀ a, m.peek a = m'.peek a) : m = m' := by
  induction m generalizing m' with
  | nil =>
    cases m' with
    | nil => rfl
    | cons y m' => have := heq y.1; simp [Memory.peek] at this
  | cons x m ih =>
    cases m' with
    | nil => have := heq x.1; simp [Memory.peek] at this
    | cons y m' =>
      obtain ⟨k, v⟩ := x
      obtain ⟨k', v'⟩ := y
      have hp := List.pairwise_cons.1 h.1
      have hp' := List.pairwise_cons.1 h'.1
      have hk : k = k' := by
        rcases Nat.lt_trichotomy k k' with hlt | heq' | hlt
        · have h1 := heq k
          rw [Memory.peek_cons, Memory.peek_cons, if_pos rfl, if_neg (by omega)] at h1
          have := hp'.1 _ (Memory.mem_of_peek h1.symm)
          simp at this; omega
        · exact heq'
        · have h1 := heq k'
          rw [Memory.peek_cons, Memory.peek_cons, if_pos rfl, if_neg (by omega)] at h1
          have := hp.1 _ (Memory.mem_of_peek h1)
          simp at this; omega
      subst hk
      have hv : v = v' := by simpa [Memory.peek_cons] using heq k
      subst hv
      have htail : m = m' := by
        refine ih ⟨hp.2, fun x hx => h.2 x (List.mem_cons_of_mem _ hx)⟩
          ⟨hp'.2, fun x hx => h'.2 x (List.mem_cons_of_mem _ hx)⟩ (fun a => ?_)
        by_cases ha : k = a
        · subst ha
          rw [Memory.peek_eq_none_of_lt (fun x hx => hp.1 x hx), Memory.peek_eq_none_of_lt (fun x hx => hp'.1 x hx)]
        · simpa [Memory.peek_cons, ha] using heq a
      rw [htail]

end Sys2Proof.Machine
end

