-- ==== Sys2Proof/Laws/State.lean ====
section
/-! SUPPORT. One lemma per field of State per update, true by unfolding, for simp. -/

namespace Sys2Proof.Machine

variable (s : State)

/-! ### clearDescriptor -/

@[simp] theorem State.clearDescriptor_status : (s.clearDescriptor).status = { s.status with evalid := false } := rfl

@[simp] theorem State.clearDescriptor_len : (s.clearDescriptor).len = s.len := rfl

@[simp] theorem State.clearDescriptor_xlen : (s.clearDescriptor).xlen = s.xlen := rfl

@[simp] theorem State.clearDescriptor_toc : (s.clearDescriptor).toc = s.toc := rfl

@[simp] theorem State.clearDescriptor_desc : (s.clearDescriptor).desc = .zero := rfl

@[simp] theorem State.clearDescriptor_errInfo : (s.clearDescriptor).errInfo = s.errInfo := rfl

@[simp] theorem State.clearDescriptor_key : (s.clearDescriptor).key = s.key := rfl

@[simp] theorem State.clearDescriptor_xseed : (s.clearDescriptor).xseed = s.xseed := rfl

@[simp] theorem State.clearDescriptor_raw : (s.clearDescriptor).raw = s.raw := rfl

@[simp] theorem State.clearDescriptor_dec : (s.clearDescriptor).dec = s.dec := rfl

@[simp] theorem State.clearDescriptor_resets : (s.clearDescriptor).resets = s.resets := rfl

@[simp] theorem State.clearDescriptor_inbox : (s.clearDescriptor).inbox = s.inbox := rfl

@[simp] theorem State.clearDescriptor_reply : (s.clearDescriptor).reply = s.reply := rfl

/-! ### raise -/

@[simp] theorem State.raise_status (e : ErrCause) (info : Word) :
    (s.raise e info).status =
      { s.status with phase := .fault, evalid := false, err := e.code } := rfl

@[simp] theorem State.raise_len (e : ErrCause) (info : Word) : (s.raise e info).len = s.len := rfl

@[simp] theorem State.raise_xlen (e : ErrCause) (info : Word) : (s.raise e info).xlen = s.xlen := rfl

@[simp] theorem State.raise_toc (e : ErrCause) (info : Word) : (s.raise e info).toc = s.toc := rfl

@[simp] theorem State.raise_desc (e : ErrCause) (info : Word) : (s.raise e info).desc = .zero := rfl

@[simp] theorem State.raise_errInfo (e : ErrCause) (info : Word) : (s.raise e info).errInfo = info := rfl

@[simp] theorem State.raise_key (e : ErrCause) (info : Word) : (s.raise e info).key = s.key := rfl

@[simp] theorem State.raise_xseed (e : ErrCause) (info : Word) : (s.raise e info).xseed = s.xseed := rfl

@[simp] theorem State.raise_raw (e : ErrCause) (info : Word) : (s.raise e info).raw = s.raw := rfl

@[simp] theorem State.raise_dec (e : ErrCause) (info : Word) : (s.raise e info).dec = s.dec := rfl

@[simp] theorem State.raise_resets (e : ErrCause) (info : Word) : (s.raise e info).resets = s.resets := rfl

@[simp] theorem State.raise_inbox (e : ErrCause) (info : Word) : (s.raise e info).inbox = s.inbox := rfl

@[simp] theorem State.raise_reply (e : ErrCause) (info : Word) : (s.raise e info).reply = s.reply := rfl

/-! ### clearAll -/

@[simp] theorem State.clearAll_status : (s.clearAll).status = .reset := rfl

@[simp] theorem State.clearAll_len : (s.clearAll).len = 0#32 := rfl

@[simp] theorem State.clearAll_xlen : (s.clearAll).xlen = 0#32 := rfl

@[simp] theorem State.clearAll_toc : (s.clearAll).toc = .zero := rfl

@[simp] theorem State.clearAll_desc : (s.clearAll).desc = .zero := rfl

@[simp] theorem State.clearAll_errInfo : (s.clearAll).errInfo = 0#32 := rfl

@[simp] theorem State.clearAll_key : (s.clearAll).key = [] := rfl

@[simp] theorem State.clearAll_xseed : (s.clearAll).xseed = [] := rfl

@[simp] theorem State.clearAll_raw : (s.clearAll).raw = s.raw := rfl

@[simp] theorem State.clearAll_dec : (s.clearAll).dec = s.dec := rfl

@[simp] theorem State.clearAll_resets : (s.clearAll).resets = s.resets := rfl

@[simp] theorem State.clearAll_inbox : (s.clearAll).inbox = s.inbox := rfl

@[simp] theorem State.clearAll_reply : (s.clearAll).reply = s.reply := rfl

/-! ### hwReset -/

@[simp] theorem State.hwReset_status : (s.hwReset).status = .reset := rfl

@[simp] theorem State.hwReset_len : (s.hwReset).len = 0#32 := rfl

@[simp] theorem State.hwReset_xlen : (s.hwReset).xlen = 0#32 := rfl

@[simp] theorem State.hwReset_toc : (s.hwReset).toc = .zero := rfl

@[simp] theorem State.hwReset_desc : (s.hwReset).desc = .zero := rfl

@[simp] theorem State.hwReset_errInfo : (s.hwReset).errInfo = 0#32 := rfl

@[simp] theorem State.hwReset_key : (s.hwReset).key = [] := rfl

@[simp] theorem State.hwReset_xseed : (s.hwReset).xseed = [] := rfl

@[simp] theorem State.hwReset_raw : (s.hwReset).raw = [] := rfl

@[simp] theorem State.hwReset_dec : (s.hwReset).dec = [] := rfl

@[simp] theorem State.hwReset_resets : (s.hwReset).resets = s.resets + 1 := rfl

@[simp] theorem State.hwReset_inbox : (s.hwReset).inbox = s.inbox := rfl

@[simp] theorem State.hwReset_reply : (s.hwReset).reply = s.reply := rfl

/-! ### setCbcDone -/

@[simp] theorem State.setCbcDone_status (v : Bool) : (s.setCbcDone v).status = { s.status with cbcDone := v } := rfl

@[simp] theorem State.setCbcDone_len (v : Bool) : (s.setCbcDone v).len = s.len := rfl

@[simp] theorem State.setCbcDone_xlen (v : Bool) : (s.setCbcDone v).xlen = s.xlen := rfl

@[simp] theorem State.setCbcDone_toc (v : Bool) : (s.setCbcDone v).toc = s.toc := rfl

@[simp] theorem State.setCbcDone_desc (v : Bool) : (s.setCbcDone v).desc = s.desc := rfl

@[simp] theorem State.setCbcDone_errInfo (v : Bool) : (s.setCbcDone v).errInfo = s.errInfo := rfl

@[simp] theorem State.setCbcDone_key (v : Bool) : (s.setCbcDone v).key = s.key := rfl

@[simp] theorem State.setCbcDone_xseed (v : Bool) : (s.setCbcDone v).xseed = s.xseed := rfl

@[simp] theorem State.setCbcDone_raw (v : Bool) : (s.setCbcDone v).raw = s.raw := rfl

@[simp] theorem State.setCbcDone_dec (v : Bool) : (s.setCbcDone v).dec = s.dec := rfl

@[simp] theorem State.setCbcDone_resets (v : Bool) : (s.setCbcDone v).resets = s.resets := rfl

@[simp] theorem State.setCbcDone_inbox (v : Bool) : (s.setCbcDone v).inbox = s.inbox := rfl

@[simp] theorem State.setCbcDone_reply (v : Bool) : (s.setCbcDone v).reply = s.reply := rfl

/-! ### setXorDone -/

@[simp] theorem State.setXorDone_status (v : Bool) : (s.setXorDone v).status = { s.status with xorDone := v } := rfl

@[simp] theorem State.setXorDone_len (v : Bool) : (s.setXorDone v).len = s.len := rfl

@[simp] theorem State.setXorDone_xlen (v : Bool) : (s.setXorDone v).xlen = s.xlen := rfl

@[simp] theorem State.setXorDone_toc (v : Bool) : (s.setXorDone v).toc = s.toc := rfl

@[simp] theorem State.setXorDone_desc (v : Bool) : (s.setXorDone v).desc = s.desc := rfl

@[simp] theorem State.setXorDone_errInfo (v : Bool) : (s.setXorDone v).errInfo = s.errInfo := rfl

@[simp] theorem State.setXorDone_key (v : Bool) : (s.setXorDone v).key = s.key := rfl

@[simp] theorem State.setXorDone_xseed (v : Bool) : (s.setXorDone v).xseed = s.xseed := rfl

@[simp] theorem State.setXorDone_raw (v : Bool) : (s.setXorDone v).raw = s.raw := rfl

@[simp] theorem State.setXorDone_dec (v : Bool) : (s.setXorDone v).dec = s.dec := rfl

@[simp] theorem State.setXorDone_resets (v : Bool) : (s.setXorDone v).resets = s.resets := rfl

@[simp] theorem State.setXorDone_inbox (v : Bool) : (s.setXorDone v).inbox = s.inbox := rfl

@[simp] theorem State.setXorDone_reply (v : Bool) : (s.setXorDone v).reply = s.reply := rfl

/-! ### setPhase -/

@[simp] theorem State.setPhase_status (p : Phase) : (s.setPhase p).status = { s.status with phase := p } := rfl

@[simp] theorem State.setPhase_len (p : Phase) : (s.setPhase p).len = s.len := rfl

@[simp] theorem State.setPhase_xlen (p : Phase) : (s.setPhase p).xlen = s.xlen := rfl

@[simp] theorem State.setPhase_toc (p : Phase) : (s.setPhase p).toc = s.toc := rfl

@[simp] theorem State.setPhase_desc (p : Phase) : (s.setPhase p).desc = s.desc := rfl

@[simp] theorem State.setPhase_errInfo (p : Phase) : (s.setPhase p).errInfo = s.errInfo := rfl

@[simp] theorem State.setPhase_key (p : Phase) : (s.setPhase p).key = s.key := rfl

@[simp] theorem State.setPhase_xseed (p : Phase) : (s.setPhase p).xseed = s.xseed := rfl

@[simp] theorem State.setPhase_raw (p : Phase) : (s.setPhase p).raw = s.raw := rfl

@[simp] theorem State.setPhase_dec (p : Phase) : (s.setPhase p).dec = s.dec := rfl

@[simp] theorem State.setPhase_resets (p : Phase) : (s.setPhase p).resets = s.resets := rfl

@[simp] theorem State.setPhase_inbox (p : Phase) : (s.setPhase p).inbox = s.inbox := rfl

@[simp] theorem State.setPhase_reply (p : Phase) : (s.setPhase p).reply = s.reply := rfl

/-! ### dropDone -/

@[simp] theorem State.dropDone_status (cbc xor : Bool) :
    (s.dropDone cbc xor).status =
      { s.status with cbcDone := if cbc then false else s.status.cbcDone, xorDone := if xor then false else s.status.xorDone } := rfl

@[simp] theorem State.dropDone_len (cbc xor : Bool) : (s.dropDone cbc xor).len = s.len := rfl

@[simp] theorem State.dropDone_xlen (cbc xor : Bool) : (s.dropDone cbc xor).xlen = s.xlen := rfl

@[simp] theorem State.dropDone_toc (cbc xor : Bool) : (s.dropDone cbc xor).toc = s.toc := rfl

@[simp] theorem State.dropDone_desc (cbc xor : Bool) : (s.dropDone cbc xor).desc = s.desc := rfl

@[simp] theorem State.dropDone_errInfo (cbc xor : Bool) : (s.dropDone cbc xor).errInfo = s.errInfo := rfl

@[simp] theorem State.dropDone_key (cbc xor : Bool) : (s.dropDone cbc xor).key = s.key := rfl

@[simp] theorem State.dropDone_xseed (cbc xor : Bool) : (s.dropDone cbc xor).xseed = s.xseed := rfl

@[simp] theorem State.dropDone_raw (cbc xor : Bool) : (s.dropDone cbc xor).raw = s.raw := rfl

@[simp] theorem State.dropDone_dec (cbc xor : Bool) : (s.dropDone cbc xor).dec = s.dec := rfl

@[simp] theorem State.dropDone_resets (cbc xor : Bool) : (s.dropDone cbc xor).resets = s.resets := rfl

@[simp] theorem State.dropDone_inbox (cbc xor : Bool) : (s.dropDone cbc xor).inbox = s.inbox := rfl

@[simp] theorem State.dropDone_reply (cbc xor : Bool) : (s.dropDone cbc xor).reply = s.reply := rfl

/-! ### dropToc -/

@[simp] theorem State.dropToc_status : (s.dropToc).status = { s.status with evalid := false } := rfl

@[simp] theorem State.dropToc_len : (s.dropToc).len = s.len := rfl

@[simp] theorem State.dropToc_xlen : (s.dropToc).xlen = s.xlen := rfl

@[simp] theorem State.dropToc_toc : (s.dropToc).toc = .zero := rfl

@[simp] theorem State.dropToc_desc : (s.dropToc).desc = .zero := rfl

@[simp] theorem State.dropToc_errInfo : (s.dropToc).errInfo = s.errInfo := rfl

@[simp] theorem State.dropToc_key : (s.dropToc).key = s.key := rfl

@[simp] theorem State.dropToc_xseed : (s.dropToc).xseed = s.xseed := rfl

@[simp] theorem State.dropToc_raw : (s.dropToc).raw = s.raw := rfl

@[simp] theorem State.dropToc_dec : (s.dropToc).dec = s.dec := rfl

@[simp] theorem State.dropToc_resets : (s.dropToc).resets = s.resets := rfl

@[simp] theorem State.dropToc_inbox : (s.dropToc).inbox = s.inbox := rfl

@[simp] theorem State.dropToc_reply : (s.dropToc).reply = s.reply := rfl

/-! ### latchHeader -/

@[simp] theorem State.latchHeader_status : (s.latchHeader).status = s.status := rfl

@[simp] theorem State.latchHeader_len : (s.latchHeader).len = s.len := rfl

@[simp] theorem State.latchHeader_xlen : (s.latchHeader).xlen = s.xlen := rfl

@[simp] theorem State.latchHeader_toc :
    (s.latchHeader).toc =
      { s.toc with count := s.countField, tabOff := s.tableOffField, dataOff := s.dataOffField } := rfl

@[simp] theorem State.latchHeader_desc : (s.latchHeader).desc = s.desc := rfl

@[simp] theorem State.latchHeader_errInfo : (s.latchHeader).errInfo = s.errInfo := rfl

@[simp] theorem State.latchHeader_key : (s.latchHeader).key = s.key := rfl

@[simp] theorem State.latchHeader_xseed : (s.latchHeader).xseed = s.xseed := rfl

@[simp] theorem State.latchHeader_raw : (s.latchHeader).raw = s.raw := rfl

@[simp] theorem State.latchHeader_dec : (s.latchHeader).dec = s.dec := rfl

@[simp] theorem State.latchHeader_resets : (s.latchHeader).resets = s.resets := rfl

@[simp] theorem State.latchHeader_inbox : (s.latchHeader).inbox = s.inbox := rfl

@[simp] theorem State.latchHeader_reply : (s.latchHeader).reply = s.reply := rfl

/-! ### openTable -/

@[simp] theorem State.openTable_status : (s.openTable).status = { s.status with phase := .iter } := rfl

@[simp] theorem State.openTable_len : (s.openTable).len = s.len := rfl

@[simp] theorem State.openTable_xlen : (s.openTable).xlen = s.xlen := rfl

@[simp] theorem State.openTable_toc : (s.openTable).toc = { s.toc with cur := s.toc.tabOff, idx := 0#32 } := rfl

@[simp] theorem State.openTable_desc : (s.openTable).desc = s.desc := rfl

@[simp] theorem State.openTable_errInfo : (s.openTable).errInfo = s.errInfo := rfl

@[simp] theorem State.openTable_key : (s.openTable).key = s.key := rfl

@[simp] theorem State.openTable_xseed : (s.openTable).xseed = s.xseed := rfl

@[simp] theorem State.openTable_raw : (s.openTable).raw = s.raw := rfl

@[simp] theorem State.openTable_dec : (s.openTable).dec = s.dec := rfl

@[simp] theorem State.openTable_resets : (s.openTable).resets = s.resets := rfl

@[simp] theorem State.openTable_inbox : (s.openTable).inbox = s.inbox := rfl

@[simp] theorem State.openTable_reply : (s.openTable).reply = s.reply := rfl

/-! ### yieldEntry -/

@[simp] theorem State.yieldEntry_status (cu n : Nat) (off size : Word) :
    (s.yieldEntry cu n off size).status =
      { s.status with evalid := true } := rfl

@[simp] theorem State.yieldEntry_len (cu n : Nat) (off size : Word) : (s.yieldEntry cu n off size).len = s.len := rfl

@[simp] theorem State.yieldEntry_xlen (cu n : Nat) (off size : Word) :
    (s.yieldEntry cu n off size).xlen =
      s.xlen := rfl

@[simp] theorem State.yieldEntry_toc (cu n : Nat) (off size : Word) :
    (s.yieldEntry cu n off size).toc =
      { s.toc with cur := BitVec.ofNat 32 (cu + 12 + n), idx := s.toc.idx + 1#32 } := rfl

@[simp] theorem State.yieldEntry_desc (cu n : Nat) (off size : Word) :
    (s.yieldEntry cu n off size).desc =
      { pathOff := BitVec.ofNat 32 (cu + 4), pathLen := BitVec.ofNat 32 n, off := off, len := size, start := BitVec.ofNat 32 (s.toc.dataOff.toNat + off.toNat) } := rfl

@[simp] theorem State.yieldEntry_errInfo (cu n : Nat) (off size : Word) :
    (s.yieldEntry cu n off size).errInfo =
      s.errInfo := rfl

@[simp] theorem State.yieldEntry_key (cu n : Nat) (off size : Word) : (s.yieldEntry cu n off size).key = s.key := rfl

@[simp] theorem State.yieldEntry_xseed (cu n : Nat) (off size : Word) :
    (s.yieldEntry cu n off size).xseed =
      s.xseed := rfl

@[simp] theorem State.yieldEntry_raw (cu n : Nat) (off size : Word) : (s.yieldEntry cu n off size).raw = s.raw := rfl

@[simp] theorem State.yieldEntry_dec (cu n : Nat) (off size : Word) : (s.yieldEntry cu n off size).dec = s.dec := rfl

@[simp] theorem State.yieldEntry_resets (cu n : Nat) (off size : Word) :
    (s.yieldEntry cu n off size).resets =
      s.resets := rfl

@[simp] theorem State.yieldEntry_inbox (cu n : Nat) (off size : Word) :
    (s.yieldEntry cu n off size).inbox =
      s.inbox := rfl

@[simp] theorem State.yieldEntry_reply (cu n : Nat) (off size : Word) :
    (s.yieldEntry cu n off size).reply =
      s.reply := rfl

/-! ### answer -/

@[simp] theorem State.answer_status (r : Reply) : (s.answer r).status = s.status := rfl

@[simp] theorem State.answer_len (r : Reply) : (s.answer r).len = s.len := rfl

@[simp] theorem State.answer_xlen (r : Reply) : (s.answer r).xlen = s.xlen := rfl

@[simp] theorem State.answer_toc (r : Reply) : (s.answer r).toc = s.toc := rfl

@[simp] theorem State.answer_desc (r : Reply) : (s.answer r).desc = s.desc := rfl

@[simp] theorem State.answer_errInfo (r : Reply) : (s.answer r).errInfo = s.errInfo := rfl

@[simp] theorem State.answer_key (r : Reply) : (s.answer r).key = s.key := rfl

@[simp] theorem State.answer_xseed (r : Reply) : (s.answer r).xseed = s.xseed := rfl

@[simp] theorem State.answer_raw (r : Reply) : (s.answer r).raw = s.raw := rfl

@[simp] theorem State.answer_dec (r : Reply) : (s.answer r).dec = s.dec := rfl

@[simp] theorem State.answer_resets (r : Reply) : (s.answer r).resets = s.resets := rfl

@[simp] theorem State.answer_inbox (r : Reply) : (s.answer r).inbox = s.inbox := rfl

@[simp] theorem State.answer_reply (r : Reply) : (s.answer r).reply = some r := rfl

/-! ### takeInbox -/

@[simp] theorem State.takeInbox_status (rest : List Transaction) : (s.takeInbox rest).status = s.status := rfl

@[simp] theorem State.takeInbox_len (rest : List Transaction) : (s.takeInbox rest).len = s.len := rfl

@[simp] theorem State.takeInbox_xlen (rest : List Transaction) : (s.takeInbox rest).xlen = s.xlen := rfl

@[simp] theorem State.takeInbox_toc (rest : List Transaction) : (s.takeInbox rest).toc = s.toc := rfl

@[simp] theorem State.takeInbox_desc (rest : List Transaction) : (s.takeInbox rest).desc = s.desc := rfl

@[simp] theorem State.takeInbox_errInfo (rest : List Transaction) : (s.takeInbox rest).errInfo = s.errInfo := rfl

@[simp] theorem State.takeInbox_key (rest : List Transaction) : (s.takeInbox rest).key = s.key := rfl

@[simp] theorem State.takeInbox_xseed (rest : List Transaction) : (s.takeInbox rest).xseed = s.xseed := rfl

@[simp] theorem State.takeInbox_raw (rest : List Transaction) : (s.takeInbox rest).raw = s.raw := rfl

@[simp] theorem State.takeInbox_dec (rest : List Transaction) : (s.takeInbox rest).dec = s.dec := rfl

@[simp] theorem State.takeInbox_resets (rest : List Transaction) : (s.takeInbox rest).resets = s.resets := rfl

@[simp] theorem State.takeInbox_inbox (rest : List Transaction) : (s.takeInbox rest).inbox = rest := rfl

@[simp] theorem State.takeInbox_reply (rest : List Transaction) : (s.takeInbox rest).reply = none := rfl

/-! ### withCells, setByte, memWrite, storeReg, hostWrite: the fields that are no byte space -/

@[simp] theorem State.withCells_status (sp : Space) (m : Memory) : (s.withCells sp m).status = s.status := by cases sp <;> rfl

@[simp] theorem State.setByte_status (sp : Space) (a : Nat) (b : Byte) : (s.setByte sp a b).status = s.status := by
  simp [State.setByte]

@[simp] theorem State.memWrite_status (sp : Space) (a : Nat) (v : List Byte) : (s.memWrite sp a v).status = s.status := by
  induction v generalizing s a with
  | nil => rfl
  | cons b bs ih => simp [State.memWrite, ih]

@[simp] theorem State.hostWrite_status (c : Cfg) (sp : Space) (a : Nat) (b : Byte) :
    (s.hostWrite c sp a b).status = s.status := by
  unfold State.hostWrite; split <;> simp

@[simp] theorem State.withCells_len (sp : Space) (m : Memory) : (s.withCells sp m).len = s.len := by cases sp <;> rfl

@[simp] theorem State.setByte_len (sp : Space) (a : Nat) (b : Byte) : (s.setByte sp a b).len = s.len := by
  simp [State.setByte]

@[simp] theorem State.memWrite_len (sp : Space) (a : Nat) (v : List Byte) : (s.memWrite sp a v).len = s.len := by
  induction v generalizing s a with
  | nil => rfl
  | cons b bs ih => simp [State.memWrite, ih]

@[simp] theorem State.hostWrite_len (c : Cfg) (sp : Space) (a : Nat) (b : Byte) :
    (s.hostWrite c sp a b).len = s.len := by
  unfold State.hostWrite; split <;> simp

@[simp] theorem State.withCells_xlen (sp : Space) (m : Memory) : (s.withCells sp m).xlen = s.xlen := by cases sp <;> rfl

@[simp] theorem State.setByte_xlen (sp : Space) (a : Nat) (b : Byte) : (s.setByte sp a b).xlen = s.xlen := by
  simp [State.setByte]

@[simp] theorem State.memWrite_xlen (sp : Space) (a : Nat) (v : List Byte) : (s.memWrite sp a v).xlen = s.xlen := by
  induction v generalizing s a with
  | nil => rfl
  | cons b bs ih => simp [State.memWrite, ih]

@[simp] theorem State.hostWrite_xlen (c : Cfg) (sp : Space) (a : Nat) (b : Byte) :
    (s.hostWrite c sp a b).xlen = s.xlen := by
  unfold State.hostWrite; split <;> simp

@[simp] theorem State.withCells_toc (sp : Space) (m : Memory) : (s.withCells sp m).toc = s.toc := by cases sp <;> rfl

@[simp] theorem State.setByte_toc (sp : Space) (a : Nat) (b : Byte) : (s.setByte sp a b).toc = s.toc := by
  simp [State.setByte]

@[simp] theorem State.memWrite_toc (sp : Space) (a : Nat) (v : List Byte) : (s.memWrite sp a v).toc = s.toc := by
  induction v generalizing s a with
  | nil => rfl
  | cons b bs ih => simp [State.memWrite, ih]

@[simp] theorem State.hostWrite_toc (c : Cfg) (sp : Space) (a : Nat) (b : Byte) :
    (s.hostWrite c sp a b).toc = s.toc := by
  unfold State.hostWrite; split <;> simp

@[simp] theorem State.withCells_desc (sp : Space) (m : Memory) : (s.withCells sp m).desc = s.desc := by cases sp <;> rfl

@[simp] theorem State.setByte_desc (sp : Space) (a : Nat) (b : Byte) : (s.setByte sp a b).desc = s.desc := by
  simp [State.setByte]

@[simp] theorem State.memWrite_desc (sp : Space) (a : Nat) (v : List Byte) : (s.memWrite sp a v).desc = s.desc := by
  induction v generalizing s a with
  | nil => rfl
  | cons b bs ih => simp [State.memWrite, ih]

@[simp] theorem State.hostWrite_desc (c : Cfg) (sp : Space) (a : Nat) (b : Byte) :
    (s.hostWrite c sp a b).desc = s.desc := by
  unfold State.hostWrite; split <;> simp

@[simp] theorem State.withCells_errInfo (sp : Space) (m : Memory) : (s.withCells sp m).errInfo = s.errInfo := by cases sp <;> rfl

@[simp] theorem State.setByte_errInfo (sp : Space) (a : Nat) (b : Byte) : (s.setByte sp a b).errInfo = s.errInfo := by
  simp [State.setByte]

@[simp] theorem State.memWrite_errInfo (sp : Space) (a : Nat) (v : List Byte) : (s.memWrite sp a v).errInfo = s.errInfo := by
  induction v generalizing s a with
  | nil => rfl
  | cons b bs ih => simp [State.memWrite, ih]

@[simp] theorem State.hostWrite_errInfo (c : Cfg) (sp : Space) (a : Nat) (b : Byte) :
    (s.hostWrite c sp a b).errInfo = s.errInfo := by
  unfold State.hostWrite; split <;> simp

@[simp] theorem State.withCells_resets (sp : Space) (m : Memory) : (s.withCells sp m).resets = s.resets := by cases sp <;> rfl

@[simp] theorem State.setByte_resets (sp : Space) (a : Nat) (b : Byte) : (s.setByte sp a b).resets = s.resets := by
  simp [State.setByte]

@[simp] theorem State.memWrite_resets (sp : Space) (a : Nat) (v : List Byte) : (s.memWrite sp a v).resets = s.resets := by
  induction v generalizing s a with
  | nil => rfl
  | cons b bs ih => simp [State.memWrite, ih]

@[simp] theorem State.hostWrite_resets (c : Cfg) (sp : Space) (a : Nat) (b : Byte) :
    (s.hostWrite c sp a b).resets = s.resets := by
  unfold State.hostWrite; split <;> simp

@[simp] theorem State.withCells_inbox (sp : Space) (m : Memory) : (s.withCells sp m).inbox = s.inbox := by cases sp <;> rfl

@[simp] theorem State.setByte_inbox (sp : Space) (a : Nat) (b : Byte) : (s.setByte sp a b).inbox = s.inbox := by
  simp [State.setByte]

@[simp] theorem State.memWrite_inbox (sp : Space) (a : Nat) (v : List Byte) : (s.memWrite sp a v).inbox = s.inbox := by
  induction v generalizing s a with
  | nil => rfl
  | cons b bs ih => simp [State.memWrite, ih]

@[simp] theorem State.hostWrite_inbox (c : Cfg) (sp : Space) (a : Nat) (b : Byte) :
    (s.hostWrite c sp a b).inbox = s.inbox := by
  unfold State.hostWrite; split <;> simp

@[simp] theorem State.withCells_reply (sp : Space) (m : Memory) : (s.withCells sp m).reply = s.reply := by cases sp <;> rfl

@[simp] theorem State.setByte_reply (sp : Space) (a : Nat) (b : Byte) : (s.setByte sp a b).reply = s.reply := by
  simp [State.setByte]

@[simp] theorem State.memWrite_reply (sp : Space) (a : Nat) (v : List Byte) : (s.memWrite sp a v).reply = s.reply := by
  induction v generalizing s a with
  | nil => rfl
  | cons b bs ih => simp [State.memWrite, ih]

@[simp] theorem State.hostWrite_reply (c : Cfg) (sp : Space) (a : Nat) (b : Byte) :
    (s.hostWrite c sp a b).reply = s.reply := by
  unfold State.hostWrite; split <;> simp

@[simp] theorem State.storeReg_status (off : Nat) (v : Word) : (s.storeReg off v).status = s.status := by
  unfold State.storeReg; split_ifs <;> rfl

@[simp] theorem State.storeReg_toc (off : Nat) (v : Word) : (s.storeReg off v).toc = s.toc := by
  unfold State.storeReg; split_ifs <;> rfl

@[simp] theorem State.storeReg_desc (off : Nat) (v : Word) : (s.storeReg off v).desc = s.desc := by
  unfold State.storeReg; split_ifs <;> rfl

@[simp] theorem State.storeReg_errInfo (off : Nat) (v : Word) : (s.storeReg off v).errInfo = s.errInfo := by
  unfold State.storeReg; split_ifs <;> rfl

@[simp] theorem State.storeReg_key (off : Nat) (v : Word) : (s.storeReg off v).key = s.key := by
  unfold State.storeReg; split_ifs <;> rfl

@[simp] theorem State.storeReg_xseed (off : Nat) (v : Word) : (s.storeReg off v).xseed = s.xseed := by
  unfold State.storeReg; split_ifs <;> rfl

@[simp] theorem State.storeReg_raw (off : Nat) (v : Word) : (s.storeReg off v).raw = s.raw := by
  unfold State.storeReg; split_ifs <;> rfl

@[simp] theorem State.storeReg_dec (off : Nat) (v : Word) : (s.storeReg off v).dec = s.dec := by
  unfold State.storeReg; split_ifs <;> rfl

@[simp] theorem State.storeReg_resets (off : Nat) (v : Word) : (s.storeReg off v).resets = s.resets := by
  unfold State.storeReg; split_ifs <;> rfl

@[simp] theorem State.storeReg_inbox (off : Nat) (v : Word) : (s.storeReg off v).inbox = s.inbox := by
  unfold State.storeReg; split_ifs <;> rfl

@[simp] theorem State.storeReg_reply (off : Nat) (v : Word) : (s.storeReg off v).reply = s.reply := by
  unfold State.storeReg; split_ifs <;> rfl

/-! ### The cells of the byte spaces -/

@[simp] theorem State.cells_withCells_self (sp : Space) (m : Memory) : (s.withCells sp m).cells sp = m := by
  cases sp <;> rfl

theorem State.cells_withCells_ne {sp sp' : Space} (h : sp' ≠ sp) (m : Memory) :
    (s.withCells sp m).cells sp' = s.cells sp' := by
  cases sp <;> cases sp' <;> first | rfl | exact absurd rfl h

@[simp] theorem State.cells_clearDescriptor (sp : Space) :
    (s.clearDescriptor).cells sp = s.cells sp := by cases sp <;> rfl

@[simp] theorem State.byteAt_clearDescriptor (sp : Space) (a : Nat) :
    (s.clearDescriptor).byteAt sp a = s.byteAt sp a := by cases sp <;> rfl

@[simp] theorem State.cells_raise (e : ErrCause) (info : Word) (sp : Space) :
    (s.raise e info).cells sp = s.cells sp := by cases sp <;> rfl

@[simp] theorem State.byteAt_raise (e : ErrCause) (info : Word) (sp : Space) (a : Nat) :
    (s.raise e info).byteAt sp a = s.byteAt sp a := by cases sp <;> rfl

@[simp] theorem State.cells_setCbcDone (v : Bool) (sp : Space) :
    (s.setCbcDone v).cells sp = s.cells sp := by cases sp <;> rfl

@[simp] theorem State.byteAt_setCbcDone (v : Bool) (sp : Space) (a : Nat) :
    (s.setCbcDone v).byteAt sp a = s.byteAt sp a := by cases sp <;> rfl

@[simp] theorem State.cells_setXorDone (v : Bool) (sp : Space) :
    (s.setXorDone v).cells sp = s.cells sp := by cases sp <;> rfl

@[simp] theorem State.byteAt_setXorDone (v : Bool) (sp : Space) (a : Nat) :
    (s.setXorDone v).byteAt sp a = s.byteAt sp a := by cases sp <;> rfl

@[simp] theorem State.cells_setPhase (p : Phase) (sp : Space) :
    (s.setPhase p).cells sp = s.cells sp := by cases sp <;> rfl

@[simp] theorem State.byteAt_setPhase (p : Phase) (sp : Space) (a : Nat) :
    (s.setPhase p).byteAt sp a = s.byteAt sp a := by cases sp <;> rfl

@[simp] theorem State.cells_dropDone (cbc xor : Bool) (sp : Space) :
    (s.dropDone cbc xor).cells sp = s.cells sp := by cases sp <;> rfl

@[simp] theorem State.byteAt_dropDone (cbc xor : Bool) (sp : Space) (a : Nat) :
    (s.dropDone cbc xor).byteAt sp a = s.byteAt sp a := by cases sp <;> rfl

@[simp] theorem State.cells_dropToc (sp : Space) :
    (s.dropToc).cells sp = s.cells sp := by cases sp <;> rfl

@[simp] theorem State.byteAt_dropToc (sp : Space) (a : Nat) :
    (s.dropToc).byteAt sp a = s.byteAt sp a := by cases sp <;> rfl

@[simp] theorem State.cells_latchHeader (sp : Space) :
    (s.latchHeader).cells sp = s.cells sp := by cases sp <;> rfl

@[simp] theorem State.byteAt_latchHeader (sp : Space) (a : Nat) :
    (s.latchHeader).byteAt sp a = s.byteAt sp a := by cases sp <;> rfl

@[simp] theorem State.cells_openTable (sp : Space) :
    (s.openTable).cells sp = s.cells sp := by cases sp <;> rfl

@[simp] theorem State.byteAt_openTable (sp : Space) (a : Nat) :
    (s.openTable).byteAt sp a = s.byteAt sp a := by cases sp <;> rfl

@[simp] theorem State.cells_yieldEntry (cu n : Nat) (off size : Word) (sp : Space) :
    (s.yieldEntry cu n off size).cells sp = s.cells sp := by cases sp <;> rfl

@[simp] theorem State.byteAt_yieldEntry (cu n : Nat) (off size : Word) (sp : Space) (a : Nat) :
    (s.yieldEntry cu n off size).byteAt sp a = s.byteAt sp a := by cases sp <;> rfl

@[simp] theorem State.cells_answer (r : Reply) (sp : Space) :
    (s.answer r).cells sp = s.cells sp := by cases sp <;> rfl

@[simp] theorem State.byteAt_answer (r : Reply) (sp : Space) (a : Nat) :
    (s.answer r).byteAt sp a = s.byteAt sp a := by cases sp <;> rfl

@[simp] theorem State.cells_takeInbox (rest : List Transaction) (sp : Space) :
    (s.takeInbox rest).cells sp = s.cells sp := by cases sp <;> rfl

@[simp] theorem State.byteAt_takeInbox (rest : List Transaction) (sp : Space) (a : Nat) :
    (s.takeInbox rest).byteAt sp a = s.byteAt sp a := by cases sp <;> rfl

@[simp] theorem State.cells_storeReg (off : Nat) (v : Word) (sp : Space) :
    (s.storeReg off v).cells sp = s.cells sp := by cases sp <;> simp [State.cells]

@[simp] theorem State.byteAt_storeReg (off : Nat) (v : Word) (sp : Space) (a : Nat) :
    (s.storeReg off v).byteAt sp a = s.byteAt sp a := by simp [State.byteAt]

/-! ### Byte strings and container numbers over updates that keep every cell -/

@[simp] theorem State.memRead_clearDescriptor (sp : Space) (a k : Nat) :
    (s.clearDescriptor).memRead sp a k = s.memRead sp a k := by
  induction k generalizing a with
  | zero => rfl
  | succ k ih => simp [State.memRead, ih]

@[simp] theorem State.be32_clearDescriptor (sp : Space) (a : Nat) :
    (s.clearDescriptor).be32 sp a = s.be32 sp a := by simp [State.be32]

@[simp] theorem State.memRead_raise (e : ErrCause) (info : Word) (sp : Space) (a k : Nat) :
    (s.raise e info).memRead sp a k = s.memRead sp a k := by
  induction k generalizing a with
  | zero => rfl
  | succ k ih => simp [State.memRead, ih]

@[simp] theorem State.be32_raise (e : ErrCause) (info : Word) (sp : Space) (a : Nat) :
    (s.raise e info).be32 sp a = s.be32 sp a := by simp [State.be32]

@[simp] theorem State.memRead_setCbcDone (v : Bool) (sp : Space) (a k : Nat) :
    (s.setCbcDone v).memRead sp a k = s.memRead sp a k := by
  induction k generalizing a with
  | zero => rfl
  | succ k ih => simp [State.memRead, ih]

@[simp] theorem State.be32_setCbcDone (v : Bool) (sp : Space) (a : Nat) :
    (s.setCbcDone v).be32 sp a = s.be32 sp a := by simp [State.be32]

@[simp] theorem State.memRead_setXorDone (v : Bool) (sp : Space) (a k : Nat) :
    (s.setXorDone v).memRead sp a k = s.memRead sp a k := by
  induction k generalizing a with
  | zero => rfl
  | succ k ih => simp [State.memRead, ih]

@[simp] theorem State.be32_setXorDone (v : Bool) (sp : Space) (a : Nat) :
    (s.setXorDone v).be32 sp a = s.be32 sp a := by simp [State.be32]

@[simp] theorem State.memRead_setPhase (p : Phase) (sp : Space) (a k : Nat) :
    (s.setPhase p).memRead sp a k = s.memRead sp a k := by
  induction k generalizing a with
  | zero => rfl
  | succ k ih => simp [State.memRead, ih]

@[simp] theorem State.be32_setPhase (p : Phase) (sp : Space) (a : Nat) :
    (s.setPhase p).be32 sp a = s.be32 sp a := by simp [State.be32]

@[simp] theorem State.memRead_dropDone (cbc xor : Bool) (sp : Space) (a k : Nat) :
    (s.dropDone cbc xor).memRead sp a k = s.memRead sp a k := by
  induction k generalizing a with
  | zero => rfl
  | succ k ih => simp [State.memRead, ih]

@[simp] theorem State.be32_dropDone (cbc xor : Bool) (sp : Space) (a : Nat) :
    (s.dropDone cbc xor).be32 sp a = s.be32 sp a := by simp [State.be32]

@[simp] theorem State.memRead_dropToc (sp : Space) (a k : Nat) :
    (s.dropToc).memRead sp a k = s.memRead sp a k := by
  induction k generalizing a with
  | zero => rfl
  | succ k ih => simp [State.memRead, ih]

@[simp] theorem State.be32_dropToc (sp : Space) (a : Nat) :
    (s.dropToc).be32 sp a = s.be32 sp a := by simp [State.be32]

@[simp] theorem State.memRead_latchHeader (sp : Space) (a k : Nat) :
    (s.latchHeader).memRead sp a k = s.memRead sp a k := by
  induction k generalizing a with
  | zero => rfl
  | succ k ih => simp [State.memRead, ih]

@[simp] theorem State.be32_latchHeader (sp : Space) (a : Nat) :
    (s.latchHeader).be32 sp a = s.be32 sp a := by simp [State.be32]

@[simp] theorem State.memRead_openTable (sp : Space) (a k : Nat) :
    (s.openTable).memRead sp a k = s.memRead sp a k := by
  induction k generalizing a with
  | zero => rfl
  | succ k ih => simp [State.memRead, ih]

@[simp] theorem State.be32_openTable (sp : Space) (a : Nat) :
    (s.openTable).be32 sp a = s.be32 sp a := by simp [State.be32]

@[simp] theorem State.memRead_yieldEntry (cu n : Nat) (off size : Word) (sp : Space) (a k : Nat) :
    (s.yieldEntry cu n off size).memRead sp a k = s.memRead sp a k := by
  induction k generalizing a with
  | zero => rfl
  | succ k ih => simp [State.memRead, ih]

@[simp] theorem State.be32_yieldEntry (cu n : Nat) (off size : Word) (sp : Space) (a : Nat) :
    (s.yieldEntry cu n off size).be32 sp a = s.be32 sp a := by simp [State.be32]

@[simp] theorem State.memRead_answer (r : Reply) (sp : Space) (a k : Nat) :
    (s.answer r).memRead sp a k = s.memRead sp a k := by
  induction k generalizing a with
  | zero => rfl
  | succ k ih => simp [State.memRead, ih]

@[simp] theorem State.be32_answer (r : Reply) (sp : Space) (a : Nat) :
    (s.answer r).be32 sp a = s.be32 sp a := by simp [State.be32]

@[simp] theorem State.memRead_takeInbox (rest : List Transaction) (sp : Space) (a k : Nat) :
    (s.takeInbox rest).memRead sp a k = s.memRead sp a k := by
  induction k generalizing a with
  | zero => rfl
  | succ k ih => simp [State.memRead, ih]

@[simp] theorem State.be32_takeInbox (rest : List Transaction) (sp : Space) (a : Nat) :
    (s.takeInbox rest).be32 sp a = s.be32 sp a := by simp [State.be32]

end Sys2Proof.Machine
end

