-- ==== Sys2Proof/Laws/Spaces.lean ====
section
/-! SUPPORT. Laws of the byte spaces of a state: read after write, byte strings, container numbers, and that the canonical
form and the bounds are kept. -/

namespace Sys2Proof.Machine

variable {s t : State}

/-! ### One byte -/

theorem State.byteAt_def (s : State) (sp : Space) (a : Nat) :
    s.byteAt sp a = ((s.cells sp).peek a).getD (sp.unlisted s.resets a) := rfl

/-- Reading depends on the cells of the space and the number of resets alone. -/
theorem State.byteAt_congr {sp : Space} (hc : t.cells sp = s.cells sp) (hr : t.resets = s.resets) (a : Nat) :
    t.byteAt sp a = s.byteAt sp a := by
  rw [State.byteAt_def, State.byteAt_def, hc, hr]

@[simp] theorem State.cells_setByte_self (s : State) (sp : Space) (a : Nat) (b : Byte) :
    (s.setByte sp a b).cells sp = (s.cells sp).write sp.blank a b := by
  simp [State.setByte]

theorem State.cells_setByte_ne (s : State) {sp sp' : Space} (h : sp' ≠ sp) (a : Nat) (b : Byte) :
    (s.setByte sp a b).cells sp' = s.cells sp' := by
  simp [State.setByte, State.cells_withCells_ne _ h]

/-- An unlisted byte of a space with a fixed content reads as that content. -/
theorem Space.unlisted_of_blank {sp : Space} {b : Byte} (h : sp.blank = some b) (resets a : Nat) :
    sp.unlisted resets a = b := by
  cases sp <;> simp [Space.blank] at h <;> simp [Space.unlisted, h]

/-- Read after write, the same address (00_scope R10). -/
theorem State.byteAt_setByte_self {sp : Space} (h : Memory.wf sp.blank (s.cells sp)) (a : Nat) (b : Byte) :
    (s.setByte sp a b).byteAt sp a = b := by
  rw [State.byteAt_def, State.cells_setByte_self, Memory.peek_write_self h]
  split_ifs with hb
  · simpa using Space.unlisted_of_blank hb _ _
  · rfl

/-- Read after write, another address or another space: the five spaces do not overlap (20_memory R60). -/
theorem State.byteAt_setByte_ne {sp sp' : Space} {a x : Nat} (b : Byte) (h : sp' ≠ sp ∨ x ≠ a) :
    (s.setByte sp a b).byteAt sp' x = s.byteAt sp' x := by
  rw [State.byteAt_def, State.byteAt_def]
  simp only [State.setByte_resets]
  by_cases hs : sp' = sp
  · subst hs
    have hx : x ≠ a := h.resolve_left (fun hn => hn rfl)
    rw [State.cells_setByte_self, Memory.peek_write_ne _ _ _ hx]
  · rw [State.cells_setByte_ne _ hs]

/-- A buffer (RAW or DEC) needs no canonical form for read after write. -/
theorem State.byteAt_setByte_dec (s : State) (a : Nat) (b : Byte) (x : Nat) :
    (s.setByte .dec a b).byteAt .dec x = if x = a then b else s.byteAt .dec x := by
  split_ifs with h
  · subst h
    simp [State.byteAt_def, State.setByte, State.cells, State.withCells, Space.blank, Memory.write]
  · exact State.byteAt_setByte_ne b (.inr h)

theorem State.wf_setByte {sp : Space} (h : ∀ q : Space, Memory.wf q.blank (s.cells q)) (a : Nat) (b : Byte)
    (q : Space) : Memory.wf q.blank ((s.setByte sp a b).cells q) := by
  by_cases hq : q = sp
  · subst hq; rw [State.cells_setByte_self]; exact Memory.wf_write (h q) a b
  · rw [State.cells_setByte_ne _ hq]; exact h q

theorem State.within_setByte {sp : Space} {size : Space → Nat} (h : ∀ q : Space, Memory.within (size q) (s.cells q))
    {a : Nat} (b : Byte) (ha : a < size sp) (q : Space) : Memory.within (size q) ((s.setByte sp a b).cells q) := by
  by_cases hq : q = sp
  · subst hq; rw [State.cells_setByte_self]; exact Memory.within_write (h q) _ b ha
  · rw [State.cells_setByte_ne _ hq]; exact h q

/-! ### Byte strings -/

@[simp] theorem State.memRead_length (s : State) (sp : Space) (a n : Nat) : (s.memRead sp a n).length = n := by
  induction n generalizing a with
  | zero => rfl
  | succ n ih => simp [State.memRead, ih]

/-- Byte `i` of `MemRead(S, a, n)` is `S[a + i]` (00_scope R10). -/
theorem State.memRead_getD (s : State) (sp : Space) (a : Nat) {n i : Nat} (d : Byte) (h : i < n) :
    (s.memRead sp a n).getD i d = s.byteAt sp (a + i) := by
  induction n generalizing a i with
  | zero => omega
  | succ n ih =>
    cases i with
    | zero => simp [State.memRead]
    | succ i =>
      simp only [State.memRead, List.getD_cons_succ]
      rw [ih (a + 1) (by omega)]
      congr 1
      omega

theorem State.memRead_congr {sp sp' : Space} {a a' n : Nat}
    (h : ∀ i < n, t.byteAt sp' (a' + i) = s.byteAt sp (a + i)) : t.memRead sp' a' n = s.memRead sp a n := by
  induction n generalizing a a' with
  | zero => rfl
  | succ n ih =>
    simp only [State.memRead]
    refine congrArg₂ _ (by simpa using h 0 (by omega)) (ih fun i hi => ?_)
    have := h (i + 1) (by omega)
    rwa [show a' + (i + 1) = a' + 1 + i by omega, show a + (i + 1) = a + 1 + i by omega] at this

/-- `MemRead` of a byte string in a longer one. -/
theorem State.memRead_add (s : State) (sp : Space) (a n m : Nat) :
    s.memRead sp a (n + m) = s.memRead sp a n ++ s.memRead sp (a + n) m := by
  induction n generalizing a with
  | zero => simp [State.memRead]
  | succ n ih =>
    rw [show n + 1 + m = (n + m) + 1 by omega]
    simp [State.memRead, ih, show a + 1 + n = a + (n + 1) by omega]

theorem State.cells_memWrite_ne (s : State) {sp sp' : Space} (h : sp' ≠ sp) (a : Nat) (v : List Byte) :
    (s.memWrite sp a v).cells sp' = s.cells sp' := by
  induction v generalizing s a with
  | nil => rfl
  | cons b bs ih => simp [State.memWrite, ih, State.cells_setByte_ne _ h]

/-- `MemWrite(S, a, n, v)`, read back from DEC: byte `v[x - a]` inside, the old byte outside (00_scope R10). -/
theorem State.byteAt_memWrite_dec (s : State) (a : Nat) (v : List Byte) (x : Nat) :
    (s.memWrite .dec a v).byteAt .dec x =
      if a ≤ x ∧ x < a + v.length then v.getD (x - a) 0x00#8 else s.byteAt .dec x := by
  induction v generalizing s a with
  | nil => simp [State.memWrite]
  | cons b bs ih =>
    simp only [State.memWrite, ih, State.byteAt_setByte_dec, List.length_cons]
    by_cases h1 : x = a
    · subst h1
      rw [if_neg (by omega), if_pos rfl, if_pos (by omega)]
      simp
    · by_cases h2 : a + 1 ≤ x ∧ x < a + 1 + bs.length
      · rw [if_pos h2, if_pos (by omega)]
        obtain ⟨k, rfl⟩ := Nat.exists_eq_add_of_le h2.1
        rw [show a + 1 + k - (a + 1) = k by omega, show a + 1 + k - a = k + 1 by omega, List.getD_cons_succ]
      · rw [if_neg h2, if_neg h1, if_neg (by omega)]

theorem State.byteAt_memWrite_ne (s : State) {sp sp' : Space} (h : sp' ≠ sp) (a : Nat) (v : List Byte) (x : Nat) :
    (s.memWrite sp a v).byteAt sp' x = s.byteAt sp' x :=
  State.byteAt_congr (State.cells_memWrite_ne s h a v) (by simp) x

theorem State.wf_memWrite {sp : Space} (h : ∀ q : Space, Memory.wf q.blank (s.cells q)) (a : Nat) (v : List Byte)
    (q : Space) : Memory.wf q.blank ((s.memWrite sp a v).cells q) := by
  induction v generalizing s a with
  | nil => exact h q
  | cons b bs ih => exact ih (fun q => State.wf_setByte h a b q) (a + 1)

theorem State.within_memWrite {sp : Space} {size : Space → Nat}
    (h : ∀ q : Space, Memory.within (size q) (s.cells q)) (a : Nat) (v : List Byte) (hv : a + v.length ≤ size sp)
    (q : Space) : Memory.within (size q) ((s.memWrite sp a v).cells q) := by
  induction v generalizing s a with
  | nil => exact h q
  | cons b bs ih =>
    simp only [List.length_cons] at hv
    exact ih (fun q => State.within_setByte h b (by omega) q) (a + 1) (by omega)

/-- A raw buffer needs no canonical form for read after write. -/
theorem State.byteAt_setByte_raw (s : State) (a : Nat) (b : Byte) (x : Nat) :
    (s.setByte .raw a b).byteAt .raw x = if x = a then b else s.byteAt .raw x := by
  split_ifs with h
  · subst h
    simp [State.byteAt_def, State.setByte, State.cells, State.withCells, Space.blank, Memory.write]
  · exact State.byteAt_setByte_ne b (.inr h)

/-- Writing a byte string to RAW leaves the bytes below it alone. -/
theorem State.byteAt_memWrite_raw_lt (s : State) {a x : Nat} (v : List Byte) (h : x < a) :
    (s.memWrite .raw a v).byteAt .raw x = s.byteAt .raw x := by
  induction v generalizing s a with
  | nil => rfl
  | cons b bs ih =>
    rw [State.memWrite, ih (s.setByte .raw a b) (by omega), State.byteAt_setByte_raw, if_neg (by omega)]

/-- A byte string written to RAW is read back. -/
theorem State.memRead_memWrite_raw (s : State) (a : Nat) (v : List Byte) :
    (s.memWrite .raw a v).memRead .raw a v.length = v := by
  induction v generalizing s a with
  | nil => rfl
  | cons b bs ih =>
    simp only [State.memWrite, List.length_cons, State.memRead, ih]
    rw [State.byteAt_memWrite_raw_lt _ _ (by omega), State.byteAt_setByte_raw, if_pos rfl]

/-! ### Container numbers -/

/-- Appending a byte to a number shifts it by one byte. -/
theorem toNat_append_byte {w : Nat} (x : BitVec w) (b : Byte) : (x ++ b).toNat = x.toNat * 2 ^ 8 + b.toNat := by
  rw [BitVec.toNat_append, ← Nat.shiftLeft_add_eq_or_of_lt b.isLt, Nat.shiftLeft_eq]

/-- `BE32` is the sum of rule R62 (20_memory). -/
theorem State.be32_toNat (s : State) (sp : Space) (a : Nat) :
    (s.be32 sp a).toNat = (s.byteAt sp a).toNat * 2 ^ 24 + (s.byteAt sp (a + 1)).toNat * 2 ^ 16 +
      (s.byteAt sp (a + 2)).toNat * 2 ^ 8 + (s.byteAt sp (a + 3)).toNat := by
  simp only [State.be32, toNat_append_byte]
  omega

theorem State.be32_congr {sp : Space} {a : Nat} (h : ∀ i < 4, t.byteAt sp (a + i) = s.byteAt sp (a + i)) :
    t.be32 sp a = s.be32 sp a := by
  have h0 := h 0 (by omega); have h1 := h 1 (by omega); have h2 := h 2 (by omega); have h3 := h 3 (by omega)
  simp only [Nat.add_zero] at h0
  simp only [State.be32, h0, h1, h2, h3]

end Sys2Proof.Machine
end

