-- ==== Sys2Proof/Laws/Cipher.lean ====
section
/-! SUPPORT. What the cipher commands' shared procedures can do, said once for each (40_cipher_commands). -/

namespace Sys2Proof.Machine

variable {c : Cfg} {s t u : State}

/-! ### States that differ in DEC alone -/

/-- `t` is `s` but for DEC. -/
def SameButDec (s t : State) : Prop := t = { s with dec := t.dec }

theorem SameButDec.refl (s : State) : SameButDec s s := rfl

theorem SameButDec.trans (h : SameButDec s t) (h' : SameButDec t u) : SameButDec s u := by
  unfold SameButDec at *
  rw [h', h]

theorem SameButDec.cells (h : SameButDec s t) {sp : Space} (hsp : sp ≠ .dec) : t.cells sp = s.cells sp := by
  rw [h]; cases sp <;> first | rfl | exact absurd rfl hsp

theorem SameButDec.byteAt (h : SameButDec s t) {sp : Space} (hsp : sp ≠ .dec) (a : Nat) :
    t.byteAt sp a = s.byteAt sp a :=
  State.byteAt_congr (h.cells hsp) (by rw [h]) a

theorem SameButDec.keyBytes (h : SameButDec s t) : t.keyBytes c = s.keyBytes c :=
  State.memRead_congr fun _ _ => h.byteAt (by decide) _

theorem SameButDec.cipherBlock (h : SameButDec s t) (b : Nat) : t.cipherBlock c b = s.cipherBlock c b :=
  State.memRead_congr fun _ _ => h.byteAt (by decide) _

theorem SameButDec.prevBlock (h : SameButDec s t) (b : Nat) : prevBlock c t b = prevBlock c s b := by
  cases b with
  | zero => rfl
  | succ b => exact h.cipherBlock b

theorem SameButDec.plainBlock (h : SameButDec s t) (b : Nat) : plainBlock c t b = plainBlock c s b := by
  simp only [Machine.plainBlock, h.keyBytes, h.cipherBlock, h.prevBlock]

theorem SameButDec.keystream (h : SameButDec s t) (j : Nat) : t.keystream j = s.keystream j := by
  unfold State.keystream
  rw [h.byteAt (by decide), show t.xlen = s.xlen by rw [h]]

theorem SameButDec.setByte (s : State) (a : Nat) (b : Byte) : SameButDec s (s.setByte .dec a b) := rfl

theorem SameButDec.memWrite (s : State) (a : Nat) (v : List Byte) : SameButDec s (s.memWrite .dec a v) := by
  induction v generalizing s a with
  | nil => rfl
  | cons b bs ih => exact (SameButDec.setByte s a b).trans (ih _ _)

/-! ### The entry checks -/

/-- `CipherChecks` passes exactly when the command is ready, and then it has only dropped the flags of its stages; a
failing check raises the first of `Sequence`, `Config`, `Truncated` (40_cipher_commands R112). -/
theorem cipherChecks_cases (c : Cfg) (w : Word) (cbc xor : Bool) (s : State) :
    (CipherReady c xor s ∧ cipherChecks c w cbc xor s = .running (s.dropDone cbc xor)) ∨
    (s.status.phase ≠ .idle ∧ cipherChecks c w cbc xor s = .raised (s.raise .sequence w)) ∨
    (s.status.phase = .idle ∧ (c.bufMax < s.len.toNat ∨ (xor = true ∧ ¬(1 ≤ s.xlen.toNat ∧ s.xlen.toNat ≤ c.xseedMax))) ∧
      cipherChecks c w cbc xor s = .raised ((s.dropDone cbc xor).raise .config 0#32)) ∨
    (s.status.phase = .idle ∧ s.len.toNat ≤ c.bufMax ∧ (xor = true → 1 ≤ s.xlen.toNat ∧ s.xlen.toNat ≤ c.xseedMax) ∧
      s.len.toNat < c.hdr ∧ cipherChecks c w cbc xor s = .raised ((s.dropDone cbc xor).raise .truncated 0#32)) := by
  unfold cipherChecks State.stop CipherReady
  by_cases hp : s.status.phase = .idle
  · by_cases h1 : c.bufMax < s.len.toNat
    · right; right; left; simp [hp, h1]
    · by_cases h2 : xor = true ∧ ¬(1 ≤ s.xlen.toNat ∧ s.xlen.toNat ≤ c.xseedMax)
      · right; right; left
        refine ⟨hp, .inr h2, ?_⟩
        rw [if_neg (not_not.2 hp)]
        exact (if_neg h1).trans (if_pos h2)
      · have h2' : xor = true → 1 ≤ s.xlen.toNat ∧ s.xlen.toNat ≤ c.xseedMax := fun hx => by
          by_contra hn; exact h2 ⟨hx, hn⟩
        by_cases h3 : s.len.toNat < c.hdr
        · right; right; right
          refine ⟨hp, by omega, h2', h3, ?_⟩
          rw [if_neg (not_not.2 hp)]
          exact (if_neg h1).trans ((if_neg h2).trans (if_pos h3))
        · left
          refine ⟨⟨hp, by omega, h2', by omega⟩, ?_⟩
          rw [if_neg (not_not.2 hp)]
          exact (if_neg h1).trans ((if_neg h2).trans (if_neg h3))
  · right; left; simp [hp]

/-- A ready cipher command passes its entry checks. -/
theorem cipherChecks_ready {xor : Bool} (h : CipherReady c xor s) (w : Word) (cbc : Bool) :
    cipherChecks c w cbc xor s = .running (s.dropDone cbc xor) := by
  obtain ⟨hp, h1, h2, h3⟩ := h
  rcases cipherChecks_cases c w cbc xor s with h | ⟨h, _⟩ | ⟨_, h | h, _⟩ | ⟨_, _, _, h, _⟩
  · exact h.2
  · exact absurd hp h
  · omega
  · exact absurd (h2 h.1) h.2
  · omega

/-! ### The CBC stage -/

theorem xorBytes_length (u v : List Byte) : (xorBytes u v).length = min u.length v.length := by simp [xorBytes]

theorem prevBlock_length (hw : c.WellFormed) (s : State) (b : Nat) : (prevBlock c s b).length = c.blk := by
  cases b with
  | zero => exact hw.2.2.2.2.2.2.1
  | succ b => simp [prevBlock, State.cipherBlock]

theorem plainBlock_length (hw : c.WellFormed) (ht : c.BlockTotal) (s : State) (b : Nat) :
    (plainBlock c s b).length = c.blk := by
  rw [plainBlock, xorBytes_length, prevBlock_length hw, ht _ _ (by simp [State.keyBytes]) (by simp [State.cipherBlock]),
    Nat.min_self]

/-- `n` turns of the CBC stage's loop from block `b` write the plaintext blocks `b .. b+n-1` to DEC and nothing else
(40_cipher_commands R113, R114). -/
theorem cbcBlocks_spec (hw : c.WellFormed) (ht : c.BlockTotal) (n b : Nat) (s : State) :
    SameButDec s (cbcBlocks c (s.keyBytes c) n b (prevBlock c s b) s) ∧
      ∀ x, (cbcBlocks c (s.keyBytes c) n b (prevBlock c s b) s).byteAt .dec x =
        if b * c.blk ≤ x ∧ x < (b + n) * c.blk then cbcByte c s x else s.byteAt .dec x := by
  induction n generalizing b s with
  | zero =>
    refine ⟨rfl, fun x => ?_⟩
    rw [Nat.add_zero, if_neg (by omega)]
    rfl
  | succ n ih =>
    have hblk : 1 ≤ c.blk := hw.1
    set s1 := s.memWrite .dec (b * c.blk) (plainBlock c s b) with hs1
    have h1 : SameButDec s s1 := SameButDec.memWrite s _ _
    have hunf : cbcBlocks c (s.keyBytes c) (n + 1) b (prevBlock c s b) s =
        cbcBlocks c (s1.keyBytes c) n (b + 1) (prevBlock c s1 (b + 1)) s1 := by
      rw [h1.keyBytes, h1.prevBlock]; rfl
    rw [hunf]
    obtain ⟨i1, i2⟩ := ih (b + 1) s1
    refine ⟨h1.trans i1, fun x => ?_⟩
    have hcbc : cbcByte c s1 x = cbcByte c s x := by simp only [cbcByte, h1.plainBlock]
    have hmul : (b + 1) * c.blk = b * c.blk + c.blk := by rw [Nat.add_mul, Nat.one_mul]
    have hmul' : (b + (n + 1)) * c.blk = (b + 1 + n) * c.blk := by congr 1; omega
    have hmono : (b + 1) * c.blk ≤ (b + 1 + n) * c.blk := Nat.mul_le_mul_right _ (by omega)
    rw [i2 x, hcbc, hs1, State.byteAt_memWrite_dec, plainBlock_length hw ht]
    by_cases hA : (b + 1) * c.blk ≤ x ∧ x < (b + 1 + n) * c.blk
    · rw [if_pos hA, if_pos (by omega)]
    · rw [if_neg hA]
      by_cases hB : b * c.blk ≤ x ∧ x < b * c.blk + c.blk
      · rw [if_pos hB, if_pos (by omega)]
        have hdiv : x / c.blk = b := by
          refine Nat.div_eq_of_lt_le (by omega) (by omega)
        have hmod : x % c.blk = x - b * c.blk := by
          have := Nat.div_add_mod x c.blk
          rw [hdiv, Nat.mul_comm] at this
          omega
        rw [cbcByte, hdiv, hmod]
      · rw [if_neg hB, if_neg (by omega)]

/-- What DEC holds when the CBC stage checks the padding: the CBC output on `[0, HDR)`, the old bytes elsewhere
(40_cipher_commands R114, R124). -/
theorem cbcStage_dec (hw : c.WellFormed) (ht : c.BlockTotal) (s : State) :
    SameButDec s (cbcBlocks c (s.keyBytes c) (c.hdr / c.blk) 0 c.ivConst s) ∧
      ∀ x, (cbcBlocks c (s.keyBytes c) (c.hdr / c.blk) 0 c.ivConst s).byteAt .dec x =
        if x < c.hdr then cbcByte c s x else s.byteAt .dec x := by
  have h := cbcBlocks_spec hw ht (c.hdr / c.blk) 0 s
  have hm : c.hdr / c.blk * c.blk = c.hdr := Nat.div_mul_cancel (Nat.dvd_of_mod_eq_zero hw.2.2.1)
  simp only [Nat.zero_mul, Nat.zero_le, true_and, Nat.zero_add, hm] at h
  exact h

/-- `PadOK` is the padding rule (40_cipher_commands R115). -/
theorem padOk_iff (c : Cfg) (s : State) : s.padOk c = true ↔ ValidPadding c.blk c.hdr (s.byteAt .dec) := by
  simp only [State.padOk, ValidPadding, Bool.and_eq_true, decide_eq_true_eq, List.all_eq_true, List.mem_range, beq_iff_eq,
    and_assoc]
  refine and_congr_right fun _ => and_congr_right fun _ => ⟨fun h j hj hj' => ?_, fun h j hj => h (j + 1) (by omega) (by omega)⟩
  have := h (j - 1) (by omega)
  rwa [show j - 1 + 1 = j by omega] at this

/-- `PadOK` reads DEC alone. -/
theorem padOk_congr (c : Cfg) (h : ∀ x, t.byteAt .dec x = s.byteAt .dec x) : t.padOk c = s.padOk c := by
  simp only [State.padOk, h]

/-- The padding rule looks at the header region alone. -/
theorem ValidPadding.congr {blk hdr : Nat} {f g : Nat → Byte} (hh : 1 ≤ hdr)
    (h : ∀ x < hdr, f x = g x) : ValidPadding blk hdr f ↔ ValidPadding blk hdr g := by
  unfold ValidPadding
  rw [h (hdr - 1) (by omega)]
  refine and_congr_right fun h1 => and_congr_right fun h2 => forall_congr' fun j => ?_
  refine forall_congr' fun hj => forall_congr' fun hj' => ?_
  rw [h (hdr - j) (by omega)]

/-- The CBC stage ends well exactly when the decrypted header region has valid padding (40_cipher_commands R114). -/
theorem cbcStage_cases (hw : c.WellFormed) (ht : c.BlockTotal) (s : State) :
    ∃ t, SameButDec s t ∧ (∀ x, t.byteAt .dec x = if x < c.hdr then cbcByte c s x else s.byteAt .dec x) ∧
      ((ValidPadding c.blk c.hdr (cbcByte c s) ∧ cbcStage c s = .running (t.setCbcDone true)) ∨
        (¬ValidPadding c.blk c.hdr (cbcByte c s) ∧ cbcStage c s = .raised (t.raise .badPadding 0#32))) := by
  obtain ⟨h1, h2⟩ := cbcStage_dec hw ht s
  refine ⟨_, h1, h2, ?_⟩
  have hv : ValidPadding c.blk c.hdr ((cbcBlocks c (s.keyBytes c) (c.hdr / c.blk) 0 c.ivConst s).byteAt .dec) ↔
      ValidPadding c.blk c.hdr (cbcByte c s) :=
    ValidPadding.congr (Nat.le_trans hw.1 hw.2.1) fun x hx => by rw [h2 x, if_pos hx]
  rw [← hv, ← padOk_iff]
  by_cases hp : (cbcBlocks c (s.keyBytes c) (c.hdr / c.blk) 0 c.ivConst s).padOk c = true
  · exact .inl ⟨hp, if_pos hp⟩
  · exact .inr ⟨hp, if_neg hp⟩

/-! ### The XOR stage -/

/-- `n` turns of the XOR stage's loop from address `i` write `RAW[x] xor keystream` to `DEC[i .. i+n-1]` and nothing
else (40_cipher_commands R118). -/
theorem xorBytesFrom_spec (c : Cfg) (n i : Nat) (s : State) :
    SameButDec s (xorBytesFrom c n i s) ∧
      ∀ x, (xorBytesFrom c n i s).byteAt .dec x = if i ≤ x ∧ x < i + n then xorByte c s x else s.byteAt .dec x := by
  induction n generalizing i s with
  | zero => exact ⟨rfl, fun x => by rw [if_neg (by omega)]; rfl⟩
  | succ n ih =>
    set s1 := s.setByte .dec i (xorByte c s i) with hs1
    have h1 : SameButDec s s1 := SameButDec.setByte s _ _
    have hunf : xorBytesFrom c (n + 1) i s = xorBytesFrom c n (i + 1) s1 := rfl
    obtain ⟨i1, i2⟩ := ih (i + 1) s1
    rw [hunf]
    refine ⟨h1.trans i1, fun x => ?_⟩
    have hx : xorByte c s1 x = xorByte c s x := by
      simp only [xorByte, h1.keystream, h1.byteAt (sp := .raw) (by decide)]
    rw [i2 x, hx, hs1, State.byteAt_setByte_dec]
    by_cases h : x = i
    · subst h; rw [if_neg (by omega), if_pos rfl, if_pos (by omega)]
    · by_cases h' : i + 1 ≤ x ∧ x < i + 1 + n
      · rw [if_pos h', if_pos (by omega)]
      · rw [if_neg h', if_neg h, if_neg (by omega)]

/-- The XOR stage writes `DEC[HDR .. LEN-1]` and sets XOR_DONE (40_cipher_commands R118, R124). -/
theorem xorStage_spec (c : Cfg) (s : State) :
    ∃ t, SameButDec s t ∧
      (∀ x, t.byteAt .dec x = if c.hdr ≤ x ∧ x < s.len.toNat then xorByte c s x else s.byteAt .dec x) ∧
      xorStage c s = .running (t.setXorDone true) := by
  obtain ⟨h1, h2⟩ := xorBytesFrom_spec c (s.len.toNat - c.hdr) c.hdr s
  refine ⟨_, h1, fun x => ?_, rfl⟩
  rw [h2 x]
  by_cases hx : c.hdr ≤ x ∧ x < s.len.toNat
  · rw [if_pos hx, if_pos (by omega)]
  · rw [if_neg hx, if_neg (by omega)]

/-! ### The canonical form and the bounds are kept -/

theorem MemInv.congr (h : MemInv c s) (hc : ∀ sp, t.cells sp = s.cells sp) : MemInv c t := fun sp => by
  rw [hc sp]; exact h sp

theorem MemInv.setByte (h : MemInv c s) {sp : Space} {a : Nat} (b : Byte) (ha : a < sp.size c) :
    MemInv c (s.setByte sp a b) := fun q =>
  ⟨State.wf_setByte (fun q => (h q).1) a b q, State.within_setByte (size := fun q => q.size c) (fun q => (h q).2) b ha q⟩

theorem MemInv.memWrite (h : MemInv c s) {sp : Space} {a : Nat} (v : List Byte) (ha : a + v.length ≤ sp.size c) :
    MemInv c (s.memWrite sp a v) := fun q =>
  ⟨State.wf_memWrite (fun q => (h q).1) a v q,
    State.within_memWrite (size := fun q => q.size c) (fun q => (h q).2) a v ha q⟩

theorem cbcBlocks_memInv (hw : c.WellFormed) (ht : c.BlockTotal) (n b : Nat) {s : State} (h : MemInv c s)
    (hb : (b + n) * c.blk ≤ c.bufMax) : MemInv c (cbcBlocks c (s.keyBytes c) n b (prevBlock c s b) s) := by
  induction n generalizing b s with
  | zero => exact h
  | succ n ih =>
    have h1 : SameButDec s (s.memWrite .dec (b * c.blk) (plainBlock c s b)) := SameButDec.memWrite s _ _
    have hunf : cbcBlocks c (s.keyBytes c) (n + 1) b (prevBlock c s b) s =
        cbcBlocks c ((s.memWrite .dec (b * c.blk) (plainBlock c s b)).keyBytes c) n (b + 1)
          (prevBlock c (s.memWrite .dec (b * c.blk) (plainBlock c s b)) (b + 1))
          (s.memWrite .dec (b * c.blk) (plainBlock c s b)) := by
      rw [h1.keyBytes, h1.prevBlock]; rfl
    rw [hunf]
    have hmono : (b + 1) * c.blk ≤ (b + (n + 1)) * c.blk := Nat.mul_le_mul_right _ (by omega)
    have hmul : (b + 1) * c.blk = b * c.blk + c.blk := by rw [Nat.add_mul, Nat.one_mul]
    refine ih (b + 1) (h.memWrite _ ?_) (by rwa [show b + 1 + n = b + (n + 1) by omega])
    rw [plainBlock_length hw ht]
    exact Nat.le_trans (by omega) (Nat.le_trans hmono hb)

theorem xorBytesFrom_memInv (c : Cfg) (n i : Nat) {s : State} (h : MemInv c s) (hb : i + n ≤ c.bufMax) :
    MemInv c (xorBytesFrom c n i s) := by
  induction n generalizing i s with
  | zero => exact h
  | succ n ih => exact ih (i + 1) (h.setByte _ (show i < c.bufMax by omega)) (by omega)

end Sys2Proof.Machine
end

