-- ==== Sys2Proof/Laws/Container.lean ====
section
/-! SUPPORT. What the container commands' shared procedures can do, said once for each (41_container_commands). -/

namespace Sys2Proof.Machine

variable {c : Cfg} {s t u : State}

/-! ### What a claim about DEC and LEN reads -/

/-- `t` has the DEC and the LEN of `s`. -/
def SamePackage (s t : State) : Prop := t.dec = s.dec ∧ t.resets = s.resets ∧ t.len = s.len

theorem SamePackage.refl (s : State) : SamePackage s s := ⟨rfl, rfl, rfl⟩

theorem SamePackage.symm (h : SamePackage s t) : SamePackage t s := ⟨h.1.symm, h.2.1.symm, h.2.2.symm⟩

theorem SamePackage.trans (h : SamePackage s t) (h' : SamePackage t u) : SamePackage s u :=
  ⟨h'.1.trans h.1, h'.2.1.trans h.2.1, h'.2.2.trans h.2.2⟩

theorem SamePackage.byteAt (h : SamePackage s t) (a : Nat) : t.byteAt .dec a = s.byteAt .dec a :=
  State.byteAt_congr (sp := .dec) h.1 h.2.1 a

theorem SamePackage.memRead (h : SamePackage s t) (a n : Nat) : t.memRead .dec a n = s.memRead .dec a n :=
  State.memRead_congr fun _ _ => h.byteAt _

theorem SamePackage.be32 (h : SamePackage s t) (a : Nat) : t.be32 .dec a = s.be32 .dec a :=
  State.be32_congr fun _ _ => h.byteAt _

theorem SamePackage.plenField (h : SamePackage s t) (cu : Nat) : t.plenField cu = s.plenField cu := h.be32 _

theorem SamePackage.entryOk (h : SamePackage s t) (d : Word) (cu : Nat) : EntryOk t d cu ↔ EntryOk s d cu := by
  unfold EntryOk State.pathField State.offField State.sizeField State.plenField
  rw [h.be32, h.be32, h.be32, h.memRead, h.2.2]

theorem SamePackage.nextEntry (h : SamePackage s t) (cu : Nat) : nextEntry t cu = nextEntry s cu := by
  unfold Machine.nextEntry; rw [h.plenField]

theorem SamePackage.entryAddr (h : SamePackage s t) (cu k : Nat) : entryAddr t cu k = entryAddr s cu k := by
  induction k with
  | zero => rfl
  | succ k ih => simp only [Machine.entryAddr, ih, h.nextEntry]

theorem SamePackage.headerOk (h : SamePackage s t) : HeaderOk c t ↔ HeaderOk c s := by
  unfold HeaderOk State.magicField State.countField State.tableOffField
  rw [h.2.2, h.memRead, h.be32, h.be32]

theorem entryAddr_succ (s : State) (cu k : Nat) : entryAddr s (nextEntry s cu) k = entryAddr s cu (k + 1) := by
  induction k with
  | zero => rfl
  | succ k ih => simp only [entryAddr] at ih ⊢; rw [ih]

/-! ### The header step -/

/-- The state after the opening lines of the header step and the latch of the three header fields. -/
def latched (s : State) : State := s.dropToc.latchHeader

/-- The header step opens the table when the header is good; otherwise it raises `Config`, `TruncatedTable` or
`BadMagic` (41_container_commands R142). -/
theorem headerStep_cases (c : Cfg) (s : State) :
    (HeaderOk c s ∧ headerStep c s = .running (latched s).openTable) ∨
    (c.bufMax < s.len.toNat ∧ headerStep c s = .raised (s.dropToc.raise .config 0#32)) ∨
    (s.len.toNat ≤ c.bufMax ∧ s.len.toNat < c.headerSize ∧
      headerStep c s = .raised (s.dropToc.raise .truncatedTable headerInfo)) ∨
    (s.len.toNat ≤ c.bufMax ∧ c.headerSize ≤ s.len.toNat ∧ s.magicField ≠ c.magic ∧
      headerStep c s = .raised (s.dropToc.raise .badMagic 0#32)) ∨
    (s.len.toNat ≤ c.bufMax ∧ c.headerSize ≤ s.len.toNat ∧ s.magicField = c.magic ∧ s.countField.toNat ≠ 0 ∧
      s.len.toNat < s.tableOffField.toNat + c.entryMin * s.countField.toNat ∧
      headerStep c s = .raised ((latched s).raise .truncatedTable headerInfo)) := by
  by_cases h1 : c.bufMax < s.len.toNat
  · exact .inr (.inl ⟨h1, if_pos h1⟩)
  by_cases h2 : s.len.toNat < c.headerSize
  · exact .inr (.inr (.inl ⟨by omega, h2, (if_neg h1).trans (if_pos h2)⟩))
  by_cases h3 : s.magicField = c.magic
  · by_cases h4 : s.countField.toNat ≠ 0 ∧ s.len.toNat < s.tableOffField.toNat + c.entryMin * s.countField.toNat
    · exact .inr (.inr (.inr (.inr ⟨by omega, by omega, h3, h4.1, h4.2,
        (if_neg h1).trans ((if_neg h2).trans ((if_neg (not_not.2 h3)).trans (if_pos h4)))⟩)))
    · refine .inl ⟨⟨by omega, by omega, h3, fun h0 => ?_⟩,
        (if_neg h1).trans ((if_neg h2).trans ((if_neg (not_not.2 h3)).trans (if_neg h4)))⟩
      by_contra hn
      exact h4 ⟨h0, by omega⟩
  · exact .inr (.inr (.inr (.inl ⟨by omega, by omega, h3, (if_neg h1).trans ((if_neg h2).trans (if_pos h3))⟩)))

/-- A good header makes the header step open the table. -/
theorem headerStep_ok (h : HeaderOk c s) : headerStep c s = .running (latched s).openTable := by
  obtain ⟨h1, h2, h3, h4⟩ := h
  rcases headerStep_cases c s with h | ⟨h, _⟩ | ⟨_, h, _⟩ | ⟨_, _, h, _⟩ | ⟨_, _, _, h0, h, _⟩
  · exact h.2
  · omega
  · omega
  · exact absurd h3 h
  · have := h4 h0; omega

/-! ### One entry -/

/-- The first failing check of the entry at `cu`, in the order of `EntryStep`; the last one where none before it fails
(60_exceptions R243). -/
def entryError (s : State) (cu : Nat) : ErrCause :=
  if s.len.toNat < cu + 4 then .truncatedTable
  else if s.len.toNat < cu + 4 + (s.plenField cu).toNat then .truncatedTable
  else if hasDotDot (s.pathField cu (s.plenField cu).toNat) = true then .pathTraversal
  else if s.len.toNat < cu + 12 + (s.plenField cu).toNat then .truncatedTable
  else .entryRange

theorem entryError_cases (s : State) (cu : Nat) :
    entryError s cu = .truncatedTable ∨ entryError s cu = .pathTraversal ∨ entryError s cu = .entryRange := by
  unfold entryError
  split_ifs <;> simp

theorem SamePackage.entryError (h : SamePackage s t) (cu : Nat) : entryError t cu = entryError s cu := by
  unfold Machine.entryError State.pathField
  rw [h.plenField, h.memRead, h.2.2]

/-- `EntryStep` yields the entry at CUR when it is good; otherwise it raises its first failing check, with IDX as ERRINFO
and CUR and IDX unchanged (41_container_commands R147). -/
theorem entryStep_cases (s : State) :
    (EntryOk s s.toc.dataOff s.toc.cur.toNat ∧
      entryStep s = .running (s.yieldEntry s.toc.cur.toNat (s.plenField s.toc.cur.toNat).toNat
        (s.offField s.toc.cur.toNat (s.plenField s.toc.cur.toNat).toNat)
        (s.sizeField s.toc.cur.toNat (s.plenField s.toc.cur.toNat).toNat))) ∨
    (¬EntryOk s s.toc.dataOff s.toc.cur.toNat ∧
      entryStep s = .raised (s.raise (entryError s s.toc.cur.toNat) s.toc.idx)) := by
  simp only [entryStep, entryError, EntryOk, State.stop]
  split_ifs with h1 h2 h3 h4 h5
  · exact .inr ⟨by omega, rfl⟩
  · exact .inr ⟨by omega, rfl⟩
  · exact .inr ⟨by simp [h3], rfl⟩
  · exact .inr ⟨by omega, rfl⟩
  · exact .inr ⟨by omega, rfl⟩
  · exact .inl ⟨⟨by omega, by simpa using h3, by omega⟩, rfl⟩

/-! ### The loop of SCAN -/

/-- `t` is `s` but for the cursor, the index and the descriptor. -/
def SameButCursor (s t : State) : Prop :=
  t = { s with
    desc := t.desc
    status := { s.status with evalid := t.status.evalid }
    toc := { s.toc with cur := t.toc.cur, idx := t.toc.idx } }

theorem SameButCursor.refl (s : State) : SameButCursor s s := rfl

theorem SameButCursor.trans (h : SameButCursor s t) (h' : SameButCursor t u) : SameButCursor s u := by
  unfold SameButCursor at *
  rw [h', h]

theorem SameButCursor.samePackage (h : SameButCursor s t) : SamePackage s t := by
  unfold SameButCursor at h
  rw [h]
  exact ⟨rfl, rfl, rfl⟩

theorem SameButCursor.clearDescriptor (s : State) : SameButCursor s s.clearDescriptor := rfl

theorem SameButCursor.yieldEntry (s : State) (cu n : Nat) (off size : Word) :
    SameButCursor s (s.yieldEntry cu n off size) := rfl

/-- One turn of SCAN's loop. -/
theorem scanEntries_succ (n : Nat) (s : State) :
    scanEntries (n + 1) s =
      if s.toc.idx = s.toc.count then .running s else (entryStep s.clearDescriptor).andThen (scanEntries n) := rfl

/-- The loop of SCAN either ends, at a state that differs in cursor, index and descriptor alone, or ends in error entry
at such a state (41_container_commands R156). -/
theorem scanEntries_cases (n : Nat) (s : State) :
    ∃ u, SameButCursor s u ∧
      (scanEntries n s = .running u ∨
        ∃ e, (e = .truncatedTable ∨ e = .pathTraversal ∨ e = .entryRange) ∧
          scanEntries n s = .raised (u.raise e u.toc.idx)) := by
  induction n generalizing s with
  | zero => exact ⟨s, rfl, .inl rfl⟩
  | succ n ih =>
    rw [scanEntries_succ]
    by_cases hi : s.toc.idx = s.toc.count
    · exact ⟨s, rfl, .inl (if_pos hi)⟩
    · rw [if_neg hi]
      rcases entryStep_cases s.clearDescriptor with ⟨_, h⟩ | ⟨_, h⟩
      · rw [h]
        obtain ⟨u, hu, hr⟩ := ih (s.clearDescriptor.yieldEntry s.clearDescriptor.toc.cur.toNat
          (s.clearDescriptor.plenField s.clearDescriptor.toc.cur.toNat).toNat
          (s.clearDescriptor.offField s.clearDescriptor.toc.cur.toNat
            (s.clearDescriptor.plenField s.clearDescriptor.toc.cur.toNat).toNat)
          (s.clearDescriptor.sizeField s.clearDescriptor.toc.cur.toNat
            (s.clearDescriptor.plenField s.clearDescriptor.toc.cur.toNat).toNat))
        exact ⟨u, ((SameButCursor.clearDescriptor s).trans (SameButCursor.yieldEntry _ _ _ _ _)).trans hu, hr⟩
      · exact ⟨s.clearDescriptor, SameButCursor.clearDescriptor s, .inr ⟨_, entryError_cases _ _, by rw [h]; rfl⟩⟩

end Sys2Proof.Machine
end

