-- ==== Sys2Proof/Laws/Engine.lean ====
section
/-! SUPPORT. The hardware's own configuration meets every constraint; what a meaning is, in one equation each; FAULT. -/

namespace Sys2Proof.Machine

/-! ### The configuration -/

@[simp] theorem wde1_blk : wde1.blk = 16 := rfl

@[simp] theorem wde1_keyLen : wde1.keyLen = 32 := rfl

@[simp] theorem wde1_hdr : wde1.hdr = 1024 := rfl

@[simp] theorem wde1_xseedMax : wde1.xseedMax = 16 := rfl

@[simp] theorem wde1_headerSize : wde1.headerSize = 16 := rfl

@[simp] theorem wde1_entryMin : wde1.entryMin = 12 := rfl

@[simp] theorem wde1_blockDec : wde1.blockDec = Aes.blockDec := rfl

@[simp] theorem wde1_ivConst : wde1.ivConst = ivConst := rfl

@[simp] theorem wde1_magic : wde1.magic = magic := rfl

@[simp] theorem wde1_bufMax : wde1.bufMax = bufMax := rfl

theorem hdr_le_bufMax : 1024 ≤ bufMax := Nat.le_add_left ..

theorem bufMaxAboveHdr_lt : Config.bufMaxAboveHdr.val < 4294966272 := Config.bufMaxAboveHdr.isLt

theorem add_hdr_lt {x : Nat} (h : x < 4294966272) : x + 1024 < 2 ^ 32 := by omega

theorem bufMax_lt : bufMax < 2 ^ 32 := add_hdr_lt bufMaxAboveHdr_lt

@[simp] theorem ivConst_length : ivConst.length = 16 := by simp [ivConst]

/-- The hardware's configuration meets every constraint of 00_scope R7. -/
theorem wde1_wellFormed : wde1.WellFormed := by
  exact ⟨by decide, by decide, by decide, by decide, hdr_le_bufMax, Nat.le_sub_one_of_lt bufMax_lt, ivConst_length, rfl,
    by decide⟩

/-- `BlockDec` answers 16 bytes whatever it is given. -/
@[simp] theorem Aes.toBytes_length (b : Aes.Block) : (Aes.toBytes b).length = 16 := rfl

theorem wde1_blockTotal : wde1.BlockTotal := fun _ _ _ _ => rfl

/-! ### Meanings -/

theorem exec_nop (s : State) : exec .nop s = .next (unlessFault .running s) := rfl

theorem exec_decrypt (s : State) : exec .decrypt s = .next (unlessFault (decryptCmd wde1) s) := rfl

theorem exec_cbcDec (s : State) : exec .cbcDec s = .next (unlessFault (cbcDecCmd wde1) s) := rfl

theorem exec_xorExp (s : State) : exec .xorExp s = .next (unlessFault (xorExpCmd wde1) s) := rfl

theorem exec_parseHdr (s : State) : exec .parseHdr s = .next (unlessFault (headerStep wde1) s) := rfl

theorem exec_next (s : State) : exec .next s = .next (unlessFault nextCmd s) := rfl

theorem exec_scan (s : State) : exec .scan s = .next (unlessFault (scanCmd wde1) s) := rfl

theorem exec_clear (s : State) : exec .clear s = .next s.clearAll := rfl

/-! ### FAULT and the flow of a command -/

/-- In FAULT a command changes nothing (60_exceptions R241). -/
theorem unlessFault_fault {s : State} (h : s.status.phase = .fault) (cmd : State → Flow) : unlessFault cmd s = s :=
  if_pos h

/-- Outside FAULT a command runs whole. -/
theorem unlessFault_run {s : State} (h : s.status.phase ≠ .fault) (cmd : State → Flow) :
    unlessFault cmd s = (cmd s).state := if_neg h

@[simp] theorem Flow.andThen_running (s : State) (k : State → Flow) : (Flow.running s).andThen k = k s := rfl

@[simp] theorem Flow.andThen_raised (s : State) (k : State → Flow) : (Flow.raised s).andThen k = .raised s := rfl

@[simp] theorem Flow.state_running (s : State) : (Flow.running s).state = s := rfl

@[simp] theorem Flow.state_raised (s : State) : (Flow.raised s).state = s := rfl

theorem Flow.andThen_assoc (f : Flow) (k l : State → Flow) :
    (f.andThen k).andThen l = f.andThen (fun s => (k s).andThen l) := by
  cases f <;> rfl

/-- A run of one step more: what the step answers, then the rest. -/
theorem core_run_next (M : Host.Core) (n : Nat) {s t : M.State} (h : M.step s = .next t) : M.run (n + 1) s = M.run n t := by
  simp only [Host.Core.run, h]

theorem CipherReady.not_fault {c : Cfg} {xor : Bool} {s : State} (h : CipherReady c xor s) :
    s.status.phase ≠ .fault := by rw [h.1]; decide

end Sys2Proof.Machine
end

