-- ==== Sys2Proof/Laws/PerInstr.lean ====
section
/-! SUPPORT. Families of lemmas with one member per command. -/

/-- A command is well formed, and the two fields of its word are a zero RSVZ and its row of the opcode map (30_encoding R92, R93). -/
def Sys2Proof.Laws.WordOfCommand.Statement (i : Sys2Proof.Instr) : Prop :=
  i.wf = true ∧ Sys2Proof.rsvz (Sys2Proof.encode i) = 0#24 ∧
    (Sys2Proof.opc (Sys2Proof.encode i), i) ∈ Sys2Proof.opcodeMap

theorem Sys2Proof.Laws.WordOfCommand.nop : Sys2Proof.Laws.WordOfCommand.Statement .nop := ⟨rfl, by decide, by decide⟩

theorem Sys2Proof.Laws.WordOfCommand.decrypt : Sys2Proof.Laws.WordOfCommand.Statement .decrypt :=
  ⟨rfl, by decide, by decide⟩

theorem Sys2Proof.Laws.WordOfCommand.cbcDec : Sys2Proof.Laws.WordOfCommand.Statement .cbcDec :=
  ⟨rfl, by decide, by decide⟩

theorem Sys2Proof.Laws.WordOfCommand.xorExp : Sys2Proof.Laws.WordOfCommand.Statement .xorExp :=
  ⟨rfl, by decide, by decide⟩

theorem Sys2Proof.Laws.WordOfCommand.parseHdr : Sys2Proof.Laws.WordOfCommand.Statement .parseHdr :=
  ⟨rfl, by decide, by decide⟩

theorem Sys2Proof.Laws.WordOfCommand.next : Sys2Proof.Laws.WordOfCommand.Statement .next :=
  ⟨rfl, by decide, by decide⟩

theorem Sys2Proof.Laws.WordOfCommand.scan : Sys2Proof.Laws.WordOfCommand.Statement .scan :=
  ⟨rfl, by decide, by decide⟩

theorem Sys2Proof.Laws.WordOfCommand.clear : Sys2Proof.Laws.WordOfCommand.Statement .clear :=
  ⟨rfl, by decide, by decide⟩
end

