-- ==== Sys2Proof/Laws/Reference.lean ====
section
/-! SUPPORT. Laws of the reference encryptor (40_cipher_commands R122): it keeps the length. -/

namespace Sys2Proof.Machine

/-- `n` cipher blocks of `blk` bytes each, where every block encrypts to `blk` bytes. -/
theorem refCbc_length {blk : Nat} {enc : List Byte → List Byte} (he : ∀ b, b.length = blk → (enc b).length = blk)
    (n : Nat) {prev t : List Byte} (hp : prev.length = blk) (ht : n * blk ≤ t.length) :
    (refCbc blk enc n prev t).length = n * blk := by
  induction n generalizing prev t with
  | zero => simp [refCbc]
  | succ n ih =>
    have hm : (n + 1) * blk = n * blk + blk := by rw [Nat.add_mul, Nat.one_mul]
    have h1 : (t.take blk).length = blk := by rw [List.length_take]; omega
    have h2 : (enc (xorBytes (t.take blk) prev)).length = blk := he _ (by rw [xorBytes_length, h1, hp, Nat.min_self])
    simp only [refCbc, List.length_append, h2]
    rw [ih h2 (by rw [List.length_drop]; omega)]
    omega

theorem refXor_length (seed : List Byte) (j : Nat) (l : List Byte) : (refXor seed j l).length = l.length := by
  induction l generalizing j with
  | nil => rfl
  | cons b l ih => simp [refXor, ih]

/-- The RawPackage has the length of its plaintext (40_cipher_commands R122). -/
theorem refEncrypt_length {c : Cfg} (hw : c.WellFormed) {enc : List Byte → List Byte → List Byte}
    {key : List Byte} (he : ∀ b, b.length = c.blk → (enc key b).length = c.blk) (seed : List Byte) {t : List Byte}
    (ht : c.hdr ≤ t.length) : (refEncrypt c enc key seed t).length = t.length := by
  have hm : c.hdr / c.blk * c.blk = c.hdr := Nat.div_mul_cancel (Nat.dvd_of_mod_eq_zero hw.2.2.1)
  have hl : (t.take c.hdr).length = c.hdr := by rw [List.length_take]; omega
  rw [refEncrypt, List.length_append, refCbc_length he _ hw.2.2.2.2.2.2.1 (by omega), refXor_length, List.length_drop, hm]
  omega

end Sys2Proof.Machine
end

