-- ==== Sys2Proof/Tests/Slice0.lean ====
section
/-! SUPPORT. Tests: ill-formed terms refused, words written out from the encoding, vectors of 95_test_vectors (each named
in its comment), and for every statement with hypotheses a state that meets them. -/

namespace Sys2Proof.Tests

open Sys2Proof Sys2Proof.Machine

-- One theorem after the other: each `decide +kernel` that waits for the kernel would otherwise hold a thread of its own.
set_option Elab.async false

/-! ### Configurations and states -/

/-- `CFG-S` of 95_test_vectors. -/
def cfgS : Cfg :=
  { blk := 4, keyLen := 4, blockDec := fun k b => xorBytes b k, hdr := 48, ivConst := [0x10#8, 0x20#8, 0x30#8, 0x40#8],
    magic := magic, xseedMax := 16, bufMax := 256, headerSize := 16, entryMin := 12 }

/-- The plaintext `T` of `PKG-S`. -/
def plainS : List Byte :=
  [0xBE#8, 0xBA#8, 0x66#8, 0x58#8, 0x00#8, 0x00#8, 0x00#8, 0x02#8, 0x00#8, 0x00#8, 0x00#8, 0x10#8, 0x00#8, 0x00#8, 0x00#8, 0x30#8,
   0x00#8, 0x00#8, 0x00#8, 0x03#8, 0x61#8, 0x2F#8, 0x62#8, 0x00#8, 0x00#8, 0x00#8, 0x00#8, 0x00#8, 0x00#8, 0x00#8, 0x05#8, 0x00#8,
   0x00#8, 0x00#8, 0x01#8, 0x63#8, 0x00#8, 0x00#8, 0x00#8, 0x05#8, 0x00#8, 0x00#8, 0x00#8, 0x03#8, 0x04#8, 0x04#8, 0x04#8, 0x04#8,
   0x68#8, 0x65#8, 0x6C#8, 0x6C#8, 0x6F#8, 0x41#8, 0x42#8, 0x43#8]

/-- `RAW` of `PKG-S`. -/
def rawS : List Byte :=
  [0x0F#8, 0x28#8, 0x95#8, 0xCC#8, 0xAE#8, 0x9A#8, 0x56#8, 0x1A#8, 0x0F#8, 0x28#8, 0x95#8, 0xDE#8, 0xAE#8, 0x9A#8, 0x56#8, 0x3A#8,
   0x0F#8, 0x28#8, 0x95#8, 0xED#8, 0xCF#8, 0xB5#8, 0x34#8, 0x39#8, 0x6E#8, 0x07#8, 0xF7#8, 0xED#8, 0xCF#8, 0xB5#8, 0x31#8, 0x39#8,
   0x6E#8, 0x07#8, 0xF3#8, 0x8E#8, 0xCF#8, 0xB5#8, 0x30#8, 0x5F#8, 0x6E#8, 0x07#8, 0xF3#8, 0x88#8, 0xCB#8, 0xB1#8, 0x34#8, 0x58#8,
   0x0E#8, 0x64#8, 0x93#8, 0x0A#8, 0x6E#8, 0xBE#8, 0x24#8, 0x42#8]

/-- The package `PKG-H`: entry 1 is `a/..`. -/
def pkgH : List Byte :=
  [0xBE#8, 0xBA#8, 0x66#8, 0x58#8, 0x00#8, 0x00#8, 0x00#8, 0x03#8, 0x00#8, 0x00#8, 0x00#8, 0x10#8, 0x00#8, 0x00#8, 0x00#8, 0x40#8,
   0x00#8, 0x00#8, 0x00#8, 0x02#8, 0x6F#8, 0x6B#8, 0x00#8, 0x00#8, 0x00#8, 0x00#8, 0x00#8, 0x00#8, 0x00#8, 0x01#8, 0x00#8, 0x00#8,
   0x00#8, 0x04#8, 0x61#8, 0x2F#8, 0x2E#8, 0x2E#8, 0x00#8, 0x00#8, 0x00#8, 0x00#8, 0x00#8, 0x00#8, 0x00#8, 0x01#8, 0x00#8, 0x00#8,
   0x00#8, 0x01#8, 0x7A#8, 0x00#8, 0x00#8, 0x00#8, 0x00#8, 0x00#8, 0x00#8, 0x00#8, 0x01#8, 0x00#8, 0x00#8, 0x00#8, 0x00#8, 0x00#8,
   0x00#8, 0x00#8, 0x00#8, 0x00#8]

/-- The package of V12h: one entry `f` that ends exactly at LEN. -/
def pkgF : List Byte :=
  [0xBE#8, 0xBA#8, 0x66#8, 0x58#8, 0x00#8, 0x00#8, 0x00#8, 0x01#8, 0x00#8, 0x00#8, 0x00#8, 0x10#8, 0x00#8, 0x00#8, 0x00#8, 0x20#8,
   0x00#8, 0x00#8, 0x00#8, 0x01#8, 0x66#8, 0x00#8, 0x00#8, 0x00#8, 0x00#8, 0x00#8, 0x00#8, 0x00#8, 0x08#8, 0x00#8, 0x00#8, 0x00#8,
   0x00#8, 0x00#8, 0x00#8, 0x00#8, 0x00#8, 0x00#8, 0x00#8, 0x00#8]

/-- The package of V12e: path `a/../b/c` that ends at LEN. -/
def pkgE : List Byte :=
  [0xBE#8, 0xBA#8, 0x66#8, 0x58#8, 0x00#8, 0x00#8, 0x00#8, 0x01#8, 0x00#8, 0x00#8, 0x00#8, 0x10#8, 0x00#8, 0x00#8, 0x00#8, 0x00#8,
   0x00#8, 0x00#8, 0x00#8, 0x08#8, 0x61#8, 0x2F#8, 0x2E#8, 0x2E#8, 0x2F#8, 0x62#8, 0x2F#8, 0x63#8]

/-- The package of V12f, eight zero bytes behind it: path `a/.../bc`. -/
def pkgDots : List Byte :=
  [0xBE#8, 0xBA#8, 0x66#8, 0x58#8, 0x00#8, 0x00#8, 0x00#8, 0x01#8, 0x00#8, 0x00#8, 0x00#8, 0x10#8, 0x00#8, 0x00#8, 0x00#8, 0x00#8,
   0x00#8, 0x00#8, 0x00#8, 0x08#8, 0x61#8, 0x2F#8, 0x2E#8, 0x2E#8, 0x2E#8, 0x2F#8, 0x62#8, 0x63#8, 0x00#8, 0x00#8, 0x00#8, 0x00#8,
   0x00#8, 0x00#8, 0x00#8, 0x00#8]

/-- After reset, the bytes in DEC and LEN set (start of V10 to V15). -/
def loaded (bytes : List Byte) (n : Nat) : State :=
  { State.reset.memWrite .dec 0 bytes with len := BitVec.ofNat 32 n }

/-- The common start of V4 to V7. -/
def startS : State :=
  { (((State.reset.memWrite .raw 0 rawS).memWrite .key 0 [0xA1#8, 0xB2#8, 0xC3#8, 0xD4#8]).memWrite .xseed 0
      [0x66#8, 0x01#8, 0xFF#8]).memWrite .dec 0 (List.replicate 56 0xEE#8) with len := 56#32, xlen := 3#32 }

/-- A loaded package in ITER, the cursor at a one-entry table at 16. -/
def iterating (bytes : List Byte) (n : Nat) (dataOff : Word) : State :=
  { loaded bytes n with
    status := { Status.reset with phase := .iter }
    toc := { count := 1#32, tabOff := 16#32, dataOff := dataOff, cur := 16#32, idx := 0#32 } }

/-- The state after an error entry. -/
def faulted : State := State.reset.raise .illegalCmd 4#32

/-- A state with transactions waiting. -/
def asked (s : State) (ts : List Transaction) : State := { s with inbox := ts }

/-- The state an outcome leaves. -/
def after : Host.Outcome State Fault Refusal → State
  | .next t => t
  | .fault _ => State.reset
  | .refused _ => State.reset

/-- A ready start for the hardware's own cipher commands: LEN 1024, XLEN 1, key zero, the last two cipher blocks zero but
for RAW[1007]. -/
def startW (b : Byte) : State :=
  { State.reset.memWrite .raw 992 (List.replicate 15 0x00#8 ++ b :: List.replicate 16 0x00#8) with
    len := 1024#32, xlen := 1#32 }

theorem le_bufMax {n : Nat} (h : n ≤ 1024) : n ≤ bufMax := Nat.le_trans h hdr_le_bufMax

/-! ### WellFormed: an ill-formed term for each check -/

theorem test_regRead_off2_refused : Transaction.wf (.regRead 2) = false := by decide

theorem test_regWrite_off9_refused : Transaction.wf (.regWrite 9 0#32) = false := by decide

theorem test_regRead_off2_step : step (asked State.reset [.regRead 2]) = .refused (.notATransaction 2) := rfl

theorem test_cfgS_wellFormed : cfgS.WellFormed := by decide

theorem test_cfg_blk_zero : ¬({ cfgS with blk := 0, hdr := 0, ivConst := [] } : Cfg).WellFormed := by decide

theorem test_cfg_blk_above_hdr : ¬({ cfgS with hdr := 0 } : Cfg).WellFormed := by decide

theorem test_cfg_hdr_no_multiple : ¬({ cfgS with hdr := 47 } : Cfg).WellFormed := by decide

theorem test_cfg_no_seed : ¬({ cfgS with xseedMax := 0 } : Cfg).WellFormed := by decide

theorem test_cfg_hdr_above_buf : ¬({ cfgS with bufMax := 47 } : Cfg).WellFormed := by decide

theorem test_cfg_buf_too_large : ¬({ cfgS with bufMax := 2 ^ 32 } : Cfg).WellFormed := by decide

theorem test_cfg_iv_length : ¬({ cfgS with ivConst := [0x10#8] } : Cfg).WellFormed := by decide

theorem test_cfg_magic_length : ¬({ cfgS with magic := [] } : Cfg).WellFormed := by decide

theorem test_cfg_blk_256 :
    ¬({ cfgS with blk := 256, hdr := 256, ivConst := List.replicate 256 0x00#8 } : Cfg).WellFormed := by
  decide +kernel

/-! ### Decode: words written out bit by bit (30_encoding R93) -/

theorem test_decode_nop : decode 0b00000000000000000000000000000000#32 = .ok .nop := by decide

theorem test_decode_decrypt : decode 0b00000000000000000000000000000001#32 = .ok .decrypt := by decide

theorem test_decode_cbcDec : decode 0b00000000000000000000000000000010#32 = .ok .cbcDec := by decide

theorem test_decode_xorExp : decode 0b00000000000000000000000000000011#32 = .ok .xorExp := by decide

theorem test_decode_parseHdr : decode 0b00000000000000000000000000010000#32 = .ok .parseHdr := by decide

theorem test_decode_next : decode 0b00000000000000000000000000010001#32 = .ok .next := by decide

theorem test_decode_scan : decode 0b00000000000000000000000000010010#32 = .ok .scan := by decide

theorem test_decode_clear : decode 0b00000000000000000000000001111111#32 = .ok .clear := by decide

theorem test_decodeTableWord : decodeTableWord 32 0x11 = some .next := by decide

/-- The ends of the ranges of 30_encoding R95. -/
theorem test_decode_illegal :
    [0x04#32, 0x0F#32, 0x13#32, 0x7E#32, 0x80#32, 0xFF#32].map decode =
      [0x04#8, 0x0F#8, 0x13#8, 0x7E#8, 0x80#8, 0xFF#8].map (fun b => .error (.unassignedOpcode b)) := by decide

/-- V15c, V15d: a reserved bit makes any word illegal. -/
theorem test_decode_reserved_bits :
    decode 0x00000100#32 = .error (.reservedBits 0x000001#24) ∧
      decode 0x80000001#32 = .error (.reservedBits 0x800000#24) := by decide

/-! ### Operands and flags -/

/-- V1. -/
theorem test_be32 : (loaded [0x12#8, 0x34#8, 0x56#8, 0x78#8, 0xFF#8] 0).be32 .dec 0 = 0x12345678#32 := by decide +kernel

/-- V2, with BLK = 4: true for 04 04 04 04, false for 04 04 03 04 and 05 05 05 05. -/
theorem test_padOk :
    ([[0x04#8, 0x04#8, 0x04#8, 0x04#8], [0x04#8, 0x04#8, 0x03#8, 0x04#8], [0x05#8, 0x05#8, 0x05#8, 0x05#8]].map
      fun v => (State.reset.memWrite .dec 44 v).padOk cfgS) = [true, false, false] := by decide +kernel

/-- V3: `a/..` and `../` have the segment, `...` and `a/..b` do not. -/
theorem test_hasDotDot :
    ([[0x61#8, 0x2F#8, 0x2E#8, 0x2E#8], [0x2E#8, 0x2E#8, 0x2F#8], [0x2E#8, 0x2E#8, 0x2E#8],
      [0x61#8, 0x2F#8, 0x2E#8, 0x2E#8, 0x62#8]].map hasDotDot) = [true, true, false, false] := by decide +kernel

/-- V17: `57 * 83 = C1`. -/
theorem test_aes_mul : Aes.mul 0x57#8 0x83#8 = 0xC1#8 := by decide +kernel

/-- V17: the value of block 1 of V8 under KEY = 00 01 .. 1F. -/
theorem test_aes_blockDec :
    Aes.blockDec ((List.range 32).map (BitVec.ofNat 8))
      [0x83#8, 0x9B#8, 0xFC#8, 0x9D#8, 0xA8#8, 0xEA#8, 0x70#8, 0x51#8,
       0xFB#8, 0x26#8, 0x64#8, 0xDF#8, 0xE7#8, 0x35#8, 0x0F#8, 0x91#8] =
      [0xAC#8, 0xD7#8, 0x2B#8, 0xCA#8, 0xD3#8, 0xD9#8, 0xB9#8, 0xC6#8,
       0x3D#8, 0xDC#8, 0xAC#8, 0x8D#8, 0xAC#8, 0x0F#8, 0x9A#8, 0x16#8] := by decide +kernel

/-! ### Vectors, one command each -/

/-- V4. -/
theorem test_V4_cbcDec :
    (cbcDecCmd cfgS startS).state.memRead .dec 0 56 = plainS.take 48 ++ List.replicate 8 0xEE#8 ∧
      (cbcDecCmd cfgS startS).state.status.word = 0x00000008#32 := by decide +kernel

/-- V5a. -/
theorem test_V5a_cbcDec :
    (cbcDecCmd cfgS (startS.memWrite .raw 47 [0x59#8])).state.memRead .dec 44 5 =
        [0x04#8, 0x04#8, 0x04#8, 0x05#8, 0xEE#8] ∧
      (cbcDecCmd cfgS (startS.memWrite .raw 47 [0x59#8])).state.status.word = 0x00001203#32 := by decide +kernel

/-- V6a. -/
theorem test_V6a_xorExp :
    (xorExpCmd cfgS startS).state.memRead .dec 47 9 = 0xEE#8 :: plainS.drop 48 ∧
      (xorExpCmd cfgS startS).state.status.word = 0x00000010#32 := by decide +kernel

/-- V6e. -/
theorem test_V6e_xorExp :
    (xorExpCmd cfgS { startS with xlen := 17#32 }).state.status.word = 0x00003303#32 := by decide +kernel

/-- V7a. -/
theorem test_V7a_decrypt :
    (decryptCmd cfgS startS).state.memRead .dec 0 56 = plainS ∧
      (decryptCmd cfgS startS).state.status.word = 0x00000018#32 := by decide +kernel

/-- V7f: LEN above BUF_MAX. -/
theorem test_V7f_decrypt :
    (decryptCmd cfgS { startS with len := 257#32 }).state.status.word = 0x00003303#32 := by decide +kernel

/-- V10a. -/
theorem test_V10a_parseHdr :
    (headerStep cfgS (loaded plainS 56)).state.toc =
        { count := 2#32, tabOff := 16#32, dataOff := 48#32, cur := 16#32, idx := 0#32 } ∧
      (headerStep cfgS (loaded plainS 56)).state.status.word = 0x00000001#32 := by decide +kernel

/-- V10j: LEN above BUF_MAX. -/
theorem test_V10j_parseHdr : (headerStep cfgS (loaded plainS 300)).state.status.word = 0x00003303#32 := by decide +kernel

/-- V12h. -/
theorem test_V12h_next :
    (after (exec .next (iterating pkgF 40 32#32))).desc =
        { pathOff := 20#32, pathLen := 1#32, off := 0#32, len := 8#32, start := 32#32 } ∧
      (after (exec .next (iterating pkgF 40 32#32))).toc =
        { count := 1#32, tabOff := 16#32, dataOff := 32#32, cur := 29#32, idx := 1#32 } := by decide +kernel

/-- V12e: the traversal is found before the missing fields. -/
theorem test_V12e_next : (after (exec .next (iterating pkgE 28 0#32))).status.word = 0x00002303#32 := by decide +kernel

/-- V14b. -/
theorem test_V14b_scan :
    (scanCmd cfgS (loaded pkgH 68)).state.status.word = 0x00002303#32 ∧
      (scanCmd cfgS (loaded pkgH 68)).state.toc =
        { count := 3#32, tabOff := 16#32, dataOff := 64#32, cur := 30#32, idx := 1#32 } := by decide +kernel

/-- A good table scanned (41_container_commands R156): the cursor is back at entry 0. -/
theorem test_scan_good :
    (scanCmd cfgS (loaded pkgF 40)).state.toc =
      { count := 1#32, tabOff := 16#32, dataOff := 32#32, cur := 16#32, idx := 0#32 } := by decide +kernel

/-- V15d: `CLEAR` from FAULT. -/
theorem test_V15d_clear :
    (after (exec .clear faulted)).status.word = 0#32 ∧ (after (exec .clear faulted)).errInfo = 0#32 := by decide +kernel

/-- V15g: `NOP` in ITER. -/
theorem test_V15g_nop : after (exec .nop (iterating pkgF 40 32#32)) = iterating pkgF 40 32#32 := by decide +kernel

/-- V16c. -/
theorem test_V16c_len : (after (step (asked State.reset [.regWrite 0x08 0xFFFFFFFF#32]))).len = 0xFFFFFFFF#32 := by
  decide +kernel

/-- V16i: past the end of the seed store. -/
theorem test_V16i_seed : (after (step (asked State.reset [.seedWrite 16 0xFF#8]))).xseed = [] := by decide +kernel

/-- The very next step after a command is placed runs it: `NEXT` in IDLE (V15a). -/
theorem test_placed_next :
    (after (step (State.reset.withFetchWord 32 0x11))).status.word = 0x00003203#32 := by decide +kernel

/-! ### Witnesses: hypotheses of the statements met together, clause by clause -/

theorem test_witness_DecodeOfEncodeIsTheCommand : Instr.wf .scan = true := rfl

theorem test_witness_IllegalWordsRaiseIllegalCmd :
    (∃ e, decode 0x04#32 = .error e) ∧ State.reset.status.phase ≠ .fault ∧ (∃ e, decode 0x80#32 = .error e) ∧
      faulted.status.phase = .fault := ⟨⟨_, rfl⟩, by decide, ⟨_, rfl⟩, rfl⟩

theorem test_witness_StepRunsTheDecodedCommand :
    (asked State.reset [.regWrite 0x00 0x12#32]).inbox = .regWrite 0x00 0x12#32 :: [] ∧ decode 0x12#32 = .ok .scan :=
  ⟨rfl, rfl⟩

theorem test_witness_NothingMovesWithoutATransaction : State.reset.inbox = [] := rfl

theorem test_witness_StepTakesEveryTransaction :
    (asked State.reset [.regRead 0x38]).inbox = .regRead 0x38 :: [] ∧ Transaction.wf (.regRead 0x38) = true :=
  ⟨rfl, rfl⟩

theorem test_witness_EverySequenceOfTransactionsIsServed :
    ∀ x ∈ (asked State.reset [.keyWrite 32 0x01#8, .regWrite 0x00 0x10#32, .regRead 0x04]).inbox, x.wf = true := by
  decide

/-- Every register's offset, CMD and the first reserved offset. -/
theorem test_witness_RegReadReturnsTheRegister :
    ∀ k < 16, (asked State.reset [.regRead (4 * k)]).inbox = .regRead (4 * k) :: [] ∧ 4 * k % 4 = 0 := by
  decide

theorem test_witness_RegWriteStoresLenAndXlenInIdle :
    (asked State.reset [.regWrite 0x0C 3#32]).inbox = .regWrite 0x0C 3#32 :: [] ∧
      (asked State.reset [.regWrite 0x08 3#32]).status.phase = .idle ∧
      (asked faulted [.regWrite 0x08 3#32]).status.phase ≠ .idle ∧ (0x08 % 4 = 0 ∧ 0x0C % 4 = 0) := by
  decide

/-- The last address every buffer has, and the first none has. -/
theorem test_witness_RawTransactionsReachRawAlone :
    (asked State.reset [.rawWrite 1023 0x12#8]).inbox = .rawWrite 1023 0x12#8 :: [] ∧ 1023 < bufMax ∧
      (asked State.reset [.rawRead bufMax]).inbox = .rawRead bufMax :: [] :=
  ⟨rfl, hdr_le_bufMax, rfl⟩

theorem test_witness_DecTransactionsReachDecAlone :
    (asked State.reset [.decWrite bufMax 0x12#8]).inbox = .decWrite bufMax 0x12#8 :: [] ∧
      (asked State.reset [.decRead 1023]).inbox = .decRead 1023 :: [] := ⟨rfl, rfl⟩

theorem test_witness_KeyAndSeedWritesStoreInRange :
    Memory.wf Space.key.blank State.reset.key ∧ Memory.wf Space.xseed.blank State.reset.xseed ∧
      (asked State.reset [.keyWrite 31 0x12#8]).inbox = .keyWrite 31 0x12#8 :: [] ∧
      (asked State.reset [.seedWrite 16 0x12#8]).inbox = .seedWrite 16 0x12#8 :: [] :=
  ⟨Memory.wf_nil _, Memory.wf_nil _, rfl, rfl⟩

theorem test_witness_HwResetSetsTheResetState : (asked faulted [.hwReset]).inbox = .hwReset :: [] := rfl

/-- In FAULT: a `RegWrite` to LEN, and a `CLEAR`. -/
theorem test_witness_FaultIsLeftByClearOrResetAlone :
    (asked faulted [.regWrite 0x08 5#32]).status.phase = .fault ∧
      (∃ t, step (asked faulted [.regWrite 0x08 5#32]) = .next t) ∧
      (asked faulted [.regWrite 0x00 0x7F#32]).status.phase = .fault ∧
      ∃ t, step (asked faulted [.regWrite 0x00 0x7F#32]) = .next t := ⟨rfl, ⟨_, rfl⟩, rfl, ⟨_, rfl⟩⟩

theorem test_witness_FaultIgnoresEveryWordButClear :
    faulted.status.phase = .fault ∧ (0x00000099#32 : Word) ≠ 0x0000007F#32 := by decide

/-- LEN = HDR, the smallest package a cipher command takes. -/
theorem ready_startW (xor : Bool) (b : Byte) : CipherReady wde1 xor (startW b) :=
  ⟨rfl, le_bufMax (n := 1024) (Nat.le_refl _), fun _ => ⟨by show 1 ≤ (1#32 : Word).toNat; decide, by
    show (1#32 : Word).toNat ≤ 16; decide⟩, Nat.le_refl 1024⟩

/-- `BlockDec` of the zero block under the zero key ends in B4 (43_block_cipher_aes R212), and B4 xor B5 = 01. -/
theorem startW_last : cbcByte wde1 (startW 0xB5#8) 1023 = 0x01#8 := by decide +kernel

theorem startW_bad_last : cbcByte wde1 (startW 0x00#8) 1023 = 0xB4#8 := by decide +kernel

/-- A last byte 01 is valid padding. -/
theorem padding_of_last {f : Nat → Byte} (h : f 1023 = 0x01#8) : ValidPadding 16 1024 f := by
  have h' : f (1024 - 1) = 0x01#8 := h
  unfold ValidPadding
  rw [h']
  refine ⟨by decide, by decide, fun j h1 h2 => ?_⟩
  obtain rfl : j = 1 := Nat.le_antisymm h2 h1
  exact h'

theorem padding_startW : ValidPadding 16 1024 (cbcByte wde1 (startW 0xB5#8)) := padding_of_last startW_last

theorem no_padding_startW : ¬ValidPadding 16 1024 (cbcByte wde1 (startW 0x00#8)) := by
  rintro ⟨_, h, _⟩
  rw [show cbcByte wde1 (startW 0x00#8) (1024 - 1) = 0xB4#8 from startW_bad_last] at h
  exact absurd h (by decide)

/-- The entry errors of the cipher commands: FAULT, ITER, XLEN 0 and 17, LEN 1023. -/
theorem test_witness_CipherEntryErrors :
    faulted.status.phase = .fault ∧ Parsed (iterating pkgF 40 32#32) ∧ State.reset.status.phase = .idle ∧
      ¬(1 ≤ State.reset.xlen.toNat ∧ State.reset.xlen.toNat ≤ 16) ∧
      ¬(1 ≤ ({ State.reset with xlen := 17#32 } : State).xlen.toNat ∧
        ({ State.reset with xlen := 17#32 } : State).xlen.toNat ≤ 16) ∧
      (({ startW 0x00#8 with len := 1023#32 } : State).len.toNat ≤ bufMax ∧
        1 ≤ (startW 0x00#8).xlen.toNat ∧ (startW 0x00#8).xlen.toNat ≤ 16 ∧
        ({ startW 0x00#8 with len := 1023#32 } : State).len.toNat < 1024) :=
  ⟨rfl, .inl rfl, rfl, by decide, by decide, le_bufMax (n := 1023) (by decide), by decide +kernel, by decide +kernel, by
    decide +kernel⟩

/-- LEN above BUF_MAX, in every implementation with BUF_MAX below 2^32 - 1. -/
theorem test_witness_len_above_bufMax (h : bufMax < 2 ^ 32 - 1) : bufMax < (0xFFFFFFFF#32 : Word).toNat := h

theorem test_witness_CbcDecDecryptsTheHeaderRegion :
    CipherReady wde1 false (startW 0xB5#8) ∧ ValidPadding 16 1024 (cbcByte wde1 (startW 0xB5#8)) ∧
      CipherReady wde1 false (startW 0x00#8) ∧ ¬ValidPadding 16 1024 (cbcByte wde1 (startW 0x00#8)) :=
  ⟨ready_startW _ _, padding_startW, ready_startW _ _, no_padding_startW⟩

theorem test_witness_XorExpExpandsTheRemainder : CipherReady wde1 true (startW 0x00#8) := ready_startW _ _

theorem test_witness_DecryptDecryptsThePackage :
    CipherReady wde1 true (startW 0xB5#8) ∧ ValidPadding 16 1024 (cbcByte wde1 (startW 0xB5#8)) ∧
      CipherReady wde1 true (startW 0x00#8) ∧ ¬ValidPadding 16 1024 (cbcByte wde1 (startW 0x00#8)) :=
  ⟨ready_startW _ _, padding_startW, ready_startW _ _, no_padding_startW⟩

theorem test_witness_DecryptIsCbcDecThenXorExp :
    CipherReady wde1 true (startW 0xB5#8) ∧ ValidPadding 16 1024 (cbcByte wde1 (startW 0xB5#8)) :=
  ⟨ready_startW _ _, padding_startW⟩

/-- `XOR_EXP` on a ready state ends in IDLE. -/
theorem test_witness_CipherCommandsAreIdempotent : ∃ t, exec .xorExp (startW 0x00#8) = .next t ∧ t.status.phase = .idle := by
  have h := ready_startW true 0x00#8
  refine ⟨_, rfl, ?_⟩
  rw [unlessFault_run h.not_fault, xorExpCmd, cipherChecks_ready h, Flow.andThen_running]
  obtain ⟨t, ht, -, hx⟩ := xorStage_spec wde1 ((startW 0x00#8).dropDone false true)
  rw [hx, Flow.state_running, State.setXorDone_status, ht]
  rfl

/-- A ready state whose decrypted byte 1023 is 01 is decrypted with success. -/
theorem decrypt_succeeds {s : State} (h : CipherReady wde1 true s) (h1 : cbcByte wde1 s 1023 = 0x01#8) :
    exec .decrypt s = .next (after (exec .decrypt s)) ∧ (after (exec .decrypt s)).status.phase = .idle := by
  refine ⟨rfl, ?_⟩
  rw [exec_decrypt, after, unlessFault_run h.not_fault, decryptCmd, cipherChecks_ready h, Flow.andThen_running]
  obtain ⟨t, ht, -, ⟨-, hc⟩ | ⟨hn, -⟩⟩ := cbcStage_cases wde1_wellFormed wde1_blockTotal (s.dropDone true true)
  · rw [hc, Flow.andThen_running]
    obtain ⟨u, hu, -, hx⟩ := xorStage_spec wde1 (t.setCbcDone true)
    rw [hx, Flow.state_running, State.setXorDone_status, hu, ht]
    exact h.1
  · exact absurd (padding_of_last h1) hn

/-- `s` with LEN `n`; RAW[991] and the seed byte at index 1, which is at or past XLEN, set to `b`. -/
def varied (s : State) (n : Nat) (b : Byte) : State :=
  { s.setByte .raw 991 b with len := BitVec.ofNat 32 n, xseed := [(1, b)] }

theorem varied_raw (s : State) (n : Nat) (b : Byte) {a : Nat} (h : a ≠ 991) :
    (varied s n b).byteAt .raw a = s.byteAt .raw a :=
  (State.byteAt_congr (s := s.setByte .raw 991 b) rfl rfl a).trans ((State.byteAt_setByte_raw _ _ _ _).trans (if_neg h))

theorem varied_key (s : State) (n : Nat) (b : Byte) (a : Nat) : (varied s n b).byteAt .key a = s.byteAt .key a :=
  State.byteAt_congr rfl rfl a

theorem varied_block (s : State) (n : Nat) (b : Byte) {k : Nat} (h : 62 ≤ k) :
    (varied s n b).cipherBlock wde1 k = s.cipherBlock wde1 k :=
  State.memRead_congr fun j _ => varied_raw s n b (by rw [wde1_blk]; omega)

theorem varied_last (s : State) (n : Nat) (b : Byte) : cbcByte wde1 (varied s n b) 1023 = cbcByte wde1 s 1023 := by
  have h : plainBlock wde1 (varied s n b) (62 + 1) = plainBlock wde1 s (62 + 1) := by
    simp only [plainBlock, prevBlock]
    rw [varied_block s n b (Nat.le_refl 62), varied_block s n b (Nat.le_succ 62),
      show (varied s n b).keyBytes wde1 = s.keyBytes wde1 from State.memRead_congr fun _ _ => varied_key s n b _]
  exact congrArg (fun l : List Byte => l.getD 15 0x00#8) h

/-- `startW` of 0xB5, varied. -/
def startV (n : Nat) (b : Byte) : State := varied (startW 0xB5#8) n b

theorem startV_raw (n : Nat) (b : Byte) {a : Nat} (h : a ≠ 991) :
    (startV n b).byteAt .raw a = (startW 0xB5#8).byteAt .raw a := varied_raw _ n b h

theorem startV_key (n : Nat) (b : Byte) (a : Nat) : (startV n b).byteAt .key a = (startW 0xB5#8).byteAt .key a :=
  varied_key _ n b a

theorem startV_len {n : Nat} (b : Byte) (hb : n ≤ bufMax) : (startV n b).len.toNat = n :=
  (BitVec.toNat_ofNat n 32).trans (Nat.mod_eq_of_lt (Nat.lt_of_le_of_lt hb bufMax_lt))

theorem startV_xlen (n : Nat) (b : Byte) : (startV n b).xlen = 1#32 := rfl

theorem startV_succeeds {n : Nat} (b : Byte) (h : 1024 ≤ n) (hb : n ≤ bufMax) :
    exec .decrypt (startV n b) = .next (after (exec .decrypt (startV n b))) ∧
      (after (exec .decrypt (startV n b))).status.phase = .idle := by
  refine decrypt_succeeds ⟨rfl, ?_, fun _ => ?_, ?_⟩ ((varied_last _ n b).trans startW_last)
  · rw [startV_len b hb]; exact hb
  · rw [startV_xlen]; exact ⟨by decide, by show (1#32 : Word).toNat ≤ 16; decide⟩
  · rw [startV_len b hb]; exact h

/-- Byte 1023, the last of the header region, in two packages that differ at RAW[991], the last byte before its window. -/
theorem test_witness_OutputByteDependsOnItsBlocksAlone :
    (exec .decrypt (startV 1024 0x11#8) = .next (after (exec .decrypt (startV 1024 0x11#8))) ∧
      (after (exec .decrypt (startV 1024 0x11#8))).status.phase = .idle) ∧
    (exec .decrypt (startV 1024 0x22#8) = .next (after (exec .decrypt (startV 1024 0x22#8))) ∧
      (after (exec .decrypt (startV 1024 0x22#8))).status.phase = .idle) ∧
    1023 < (startV 1024 0x11#8).len.toNat ∧ 1023 < (startV 1024 0x22#8).len.toNat ∧
    (∀ j < 32, (startV 1024 0x22#8).byteAt .key j = (startV 1024 0x11#8).byteAt .key j) ∧
    (∀ a, 1023 / 16 * 16 ≤ a + 16 → a < 1023 / 16 * 16 + 16 →
      (startV 1024 0x22#8).byteAt .raw a = (startV 1024 0x11#8).byteAt .raw a) ∧
    (startV 1024 0x11#8).byteAt .raw 991 ≠ (startV 1024 0x22#8).byteAt .raw 991 := by
  have hb : 1024 ≤ bufMax := hdr_le_bufMax
  refine ⟨startV_succeeds _ (Nat.le_refl _) hb, startV_succeeds _ (Nat.le_refl _) hb, by rw [startV_len _ hb]; omega, by
    rw [startV_len _ hb]; omega, fun j _ => by rw [startV_key, startV_key], fun a h1 h2 => by
    rw [startV_raw _ _ (by omega), startV_raw _ _ (by omega)], by decide +kernel⟩

/-- Byte 1024, the first of the remainder, in every implementation whose BUF_MAX admits one. -/
theorem test_witness_OutputByteDependsOnItsBlocksAlone_remainder (h : 1025 ≤ bufMax) :
    (exec .decrypt (startV 1025 0x11#8) = .next (after (exec .decrypt (startV 1025 0x11#8))) ∧
      (after (exec .decrypt (startV 1025 0x11#8))).status.phase = .idle) ∧
    (exec .decrypt (startV 1025 0x22#8) = .next (after (exec .decrypt (startV 1025 0x22#8))) ∧
      (after (exec .decrypt (startV 1025 0x22#8))).status.phase = .idle) ∧
    1024 < (startV 1025 0x11#8).len.toNat ∧ 1024 < (startV 1025 0x22#8).len.toNat ∧
    (startV 1025 0x22#8).xlen = (startV 1025 0x11#8).xlen ∧
    (∀ j < (startV 1025 0x11#8).xlen.toNat, (startV 1025 0x22#8).byteAt .xseed j = (startV 1025 0x11#8).byteAt .xseed j) ∧
    (startV 1025 0x22#8).byteAt .raw 1024 = (startV 1025 0x11#8).byteAt .raw 1024 :=
  ⟨startV_succeeds _ (Nat.le_succ 1024) h, startV_succeeds _ (Nat.le_succ 1024) h, by rw [startV_len _ h]; omega, by
    rw [startV_len _ h]; omega, by rw [startV_xlen, startV_xlen], fun j hj => by
    rw [startV_xlen] at hj
    obtain rfl : j = 0 := Nat.lt_one_iff.1 hj
    rfl, by rw [startV_raw _ _ (by decide), startV_raw _ _ (by decide)]⟩

/-- `CFG-S` with its toy cipher and `PKG-S` meet every hypothesis of the round trip. -/
theorem test_witness_DecryptUndoesRefEncryptInEveryConfiguration :
    cfgS.WellFormed ∧ cfgS.BlockTotal ∧
      (∀ key block : List Byte, key.length = cfgS.keyLen → block.length = cfgS.blk →
        (xorBytes block key).length = cfgS.blk ∧ cfgS.blockDec key (xorBytes block key) = block) ∧
      CipherReady cfgS true startS ∧ plainS.length = startS.len.toNat ∧
      ValidPadding cfgS.blk cfgS.hdr (fun i => plainS.getD i 0x00#8) ∧
      startS.memRead .raw 0 startS.len.toNat =
        refEncrypt cfgS (fun k p => xorBytes p k) (startS.keyBytes cfgS) (startS.memRead .xseed 0 startS.xlen.toNat)
          plainS := by
  have hb : cfgS.BlockTotal := fun key block hk hl => by
    rw [show cfgS.blockDec key block = xorBytes block key from rfl, xorBytes_length, hk, hl]; rfl
  refine ⟨by decide, hb, fun key block hk hl => ?_, ⟨by decide +kernel, by decide +kernel, fun _ => by decide +kernel, by
    decide +kernel⟩, by decide +kernel, ⟨by decide, by decide, fun j h1 h2 => ?_⟩, by decide +kernel⟩
  · obtain ⟨k0, k1, k2, k3, rfl⟩ : ∃ k0 k1 k2 k3, key = [k0, k1, k2, k3] := by
      match key, hk with | [k0, k1, k2, k3], _ => exact ⟨k0, k1, k2, k3, rfl⟩
    obtain ⟨b0, b1, b2, b3, rfl⟩ : ∃ b0 b1 b2 b3, block = [b0, b1, b2, b3] := by
      match block, hl with | [b0, b1, b2, b3], _ => exact ⟨b0, b1, b2, b3, rfl⟩
    refine ⟨rfl, ?_⟩
    simp [cfgS, xorBytes]
  · have : j ≤ 4 := h2
    interval_cases j <;> decide

/-- A plaintext for the hardware: 1024 bytes 01, which is valid padding. -/
def plainW : List Byte := List.replicate 1024 0x01#8

theorem plainW_length : plainW.length = 1024 := List.length_replicate

theorem plainW_byte {i : Nat} (h : i < 1024) : plainW.getD i 0x00#8 = 0x01#8 := by
  rw [List.getD_eq_getElem _ _ (by rw [plainW_length]; exact h)]
  exact List.getElem_replicate _

/-- The RawPackage of `plainW` under the key of zeros and the seed 00. -/
def rawW : List Byte := refEncrypt wde1 Aes.blockEnc (State.reset.keyBytes wde1) [0x00#8] plainW

theorem rawW_length : rawW.length = 1024 := by
  rw [rawW, refEncrypt_length wde1_wellFormed (fun _ _ => rfl) _ (Nat.le_of_eq plainW_length.symm), plainW_length]

/-- A RawPackage of 1024 bytes loaded, key zero, XLEN 1. -/
def startR (raw : List Byte) : State := { State.reset.memWrite .raw 0 raw with len := 1024#32, xlen := 1#32 }

theorem startR_status (raw : List Byte) : (startR raw).status = .reset := by simp [startR, State.reset]

theorem startR_byteAt (raw : List Byte) {sp : Space} (h : sp ≠ .raw) (a : Nat) :
    (startR raw).byteAt sp a = State.reset.byteAt sp a :=
  (State.byteAt_congr (s := State.reset.memWrite .raw 0 raw) (by cases sp <;> rfl) rfl a).trans
    (State.byteAt_memWrite_ne _ h _ _ _)

theorem startR_raw (raw : List Byte) : (startR raw).memRead .raw 0 raw.length = raw :=
  (State.memRead_congr (s := State.reset.memWrite .raw 0 raw) (t := startR raw) (a := 0) (a' := 0)
    fun _ _ => State.byteAt_congr rfl rfl _).trans
    (State.memRead_memWrite_raw State.reset 0 raw)

theorem startR_ready (raw : List Byte) : CipherReady wde1 true (startR raw) :=
  ⟨by rw [startR_status]; rfl, le_bufMax (n := 1024) (Nat.le_refl _),
    fun _ => ⟨Nat.le_refl 1, by show (1#32 : Word).toNat ≤ 16; decide⟩, Nat.le_refl 1024⟩

theorem startR_keyBytes (raw : List Byte) : (startR raw).keyBytes wde1 = State.reset.keyBytes wde1 :=
  State.memRead_congr fun _ _ => startR_byteAt raw (by decide) _

theorem startR_seed (raw : List Byte) : (startR raw).memRead .xseed 0 1 = [0x00#8] :=
  show (startR raw).memRead .xseed 0 1 = State.reset.memRead .xseed 0 1 from
    State.memRead_congr fun _ _ => startR_byteAt raw (by decide) _

/-- Equal bytes all along are valid padding when they are 01. -/
theorem padding_of_ones {blk hdr : Nat} {f : Nat → Byte} (hb : 1 ≤ blk) (hh : 1 ≤ hdr) (h : ∀ i < hdr, f i = 0x01#8) :
    ValidPadding blk hdr f := by
  unfold ValidPadding
  rw [h (hdr - 1) (Nat.sub_lt hh Nat.one_pos)]
  exact ⟨by decide, hb, fun j h1 _ => h _ (Nat.sub_lt hh h1)⟩

theorem startR_href (raw : List Byte) (h : raw.length = 1024) :
    (startR raw).memRead .raw 0 (startR raw).len.toNat = raw := by
  rw [show (startR raw).len.toNat = raw.length from h.symm]
  exact startR_raw raw

theorem test_witness_DecryptUndoesRefEncrypt :
    CipherReady wde1 true (startR rawW) ∧ plainW.length = (startR rawW).len.toNat ∧
      ValidPadding 16 1024 (fun i => plainW.getD i 0x00#8) ∧
      (startR rawW).memRead .raw 0 (startR rawW).len.toNat =
        refEncrypt wde1 Aes.blockEnc ((startR rawW).keyBytes wde1)
          ((startR rawW).memRead .xseed 0 (startR rawW).xlen.toNat) plainW := by
  refine ⟨startR_ready rawW, plainW_length, padding_of_ones (by decide) (by decide) fun i h => plainW_byte h, ?_⟩
  rw [startR_href rawW rawW_length, startR_keyBytes, show (startR rawW).xlen.toNat = 1 from rfl, startR_seed]
  exact rawW.eq_1

theorem test_witness_BlockDecIsABijection : (List.replicate 16 0x00#8 : List Byte).length = 16 := rfl

theorem test_witness_SBoxIsTheAffineImageOfTheInverse : (0x00#8 : Byte) = 0x00#8 ∧ (0x01#8 : Byte) ≠ 0x00#8 := by decide

/-- LEN 15; LEN 16 with another magic; the span one byte too long (V10g); the span exact (V10f); COUNT 0 (V10e). -/
theorem test_witness_ParseHdrLatchesAndChecks :
    let table := [0xBE#8, 0xBA#8, 0x66#8, 0x58#8, 0x00#8, 0x00#8, 0x00#8, 0x03#8,
                  0x00#8, 0x00#8, 0x00#8, 0x10#8, 0x00#8, 0x00#8, 0x00#8, 0x34#8]
    let none := [0xBE#8, 0xBA#8, 0x66#8, 0x58#8, 0x00#8, 0x00#8, 0x00#8, 0x00#8,
                 0xFF#8, 0xFF#8, 0xFF#8, 0xF0#8, 0x12#8, 0x34#8, 0x56#8, 0x78#8]
    State.reset.status.phase ≠ .fault ∧ 16 ≤ bufMax ∧ 52 ≤ bufMax ∧ (loaded table 15).len.toNat < 16 ∧
      (loaded [0xBE#8, 0xBA#8, 0x66#8, 0x59#8] 16).memRead .dec 0 4 ≠ [0xBE#8, 0xBA#8, 0x66#8, 0x58#8] ∧
      (loaded table 51).memRead .dec 0 4 = [0xBE#8, 0xBA#8, 0x66#8, 0x58#8] ∧
      ((loaded table 51).be32 .dec 4).toNat ≠ 0 ∧
      (loaded table 51).len.toNat < ((loaded table 51).be32 .dec 8).toNat + 12 * ((loaded table 51).be32 .dec 4).toNat ∧
      ((loaded table 52).be32 .dec 8).toNat + 12 * ((loaded table 52).be32 .dec 4).toNat ≤ (loaded table 52).len.toNat ∧
      ((loaded none 16).be32 .dec 4).toNat = 0 :=
  ⟨by decide, le_bufMax (by decide), le_bufMax (by decide), by decide +kernel, by decide +kernel, by decide +kernel, by
    decide +kernel, by decide +kernel, by decide +kernel, by decide +kernel⟩

/-- The three quiet cases, then each check of the entry at its boundary: LEN 19, LEN 20 with 8 path bytes, V12e, V12f with
LEN 35, V12h with LEN 39, V12h. -/
theorem test_witness_NextYieldsEndsOrRaises :
    State.reset.status.phase = .idle ∧
      ({ State.reset with status := { Status.reset with phase := .ended } } : State).status.phase = .ended ∧
      (iterating [] 0 0#32).status.phase = .iter ∧
      (({ iterating [] 0 0#32 with toc := .zero } : State).toc.idx =
        ({ iterating [] 0 0#32 with toc := .zero } : State).toc.count) ∧
      (iterating [] 0 0#32).toc.idx ≠ (iterating [] 0 0#32).toc.count ∧
      (iterating pkgE 19 0#32).len.toNat < (iterating pkgE 19 0#32).toc.cur.toNat + 4 ∧
      ((iterating pkgE 20 0#32).toc.cur.toNat + 4 ≤ (iterating pkgE 20 0#32).len.toNat ∧
        (iterating pkgE 20 0#32).len.toNat < 16 + 4 + ((iterating pkgE 20 0#32).be32 .dec 16).toNat) ∧
      (16 + 4 + ((iterating pkgE 28 0#32).be32 .dec 16).toNat ≤ (iterating pkgE 28 0#32).len.toNat ∧
        hasDotDot ((iterating pkgE 28 0#32).memRead .dec 20 ((iterating pkgE 28 0#32).be32 .dec 16).toNat) = true) ∧
      (16 + 4 + ((iterating pkgDots 35 0#32).be32 .dec 16).toNat ≤ (iterating pkgDots 35 0#32).len.toNat ∧
        hasDotDot ((iterating pkgDots 35 0#32).memRead .dec 20 ((iterating pkgDots 35 0#32).be32 .dec 16).toNat) = false ∧
        (iterating pkgDots 35 0#32).len.toNat < 16 + 12 + ((iterating pkgDots 35 0#32).be32 .dec 16).toNat) ∧
      (16 + 12 + ((iterating pkgF 39 32#32).be32 .dec 16).toNat ≤ (iterating pkgF 39 32#32).len.toNat ∧
        hasDotDot ((iterating pkgF 39 32#32).memRead .dec 20 ((iterating pkgF 39 32#32).be32 .dec 16).toNat) = false ∧
        (iterating pkgF 39 32#32).len.toNat < (32#32 : Word).toNat + ((iterating pkgF 39 32#32).be32 .dec 21).toNat +
          ((iterating pkgF 39 32#32).be32 .dec 25).toNat) ∧
      (32#32 : Word).toNat + ((iterating pkgF 40 32#32).be32 .dec 21).toNat +
        ((iterating pkgF 40 32#32).be32 .dec 25).toNat ≤ (iterating pkgF 40 32#32).len.toNat := by
  decide +kernel

theorem test_witness_NextYieldsSafeDescriptors :
    (iterating pkgF 40 32#32).status.phase ≠ .fault ∧
      exec .next (iterating pkgF 40 32#32) = .next (after (exec .next (iterating pkgF 40 32#32))) ∧
      (after (exec .next (iterating pkgF 40 32#32))).status.evalid = true :=
  ⟨by decide +kernel, rfl, by decide +kernel⟩

/-- The header of V12h is good. -/
theorem headerOk_pkgF : HeaderOk wde1 (loaded pkgF 40) :=
  ⟨le_bufMax (n := 40) (by decide), by show 16 ≤ _; decide +kernel, by show _ = magic; decide +kernel, fun _ => by
    show _ + 12 * _ ≤ _; decide +kernel⟩

/-- The header of `PKG-H` is good. -/
theorem headerOk_pkgH : HeaderOk wde1 (loaded pkgH 68) :=
  ⟨le_bufMax (n := 68) (by decide), by show 16 ≤ _; decide +kernel, by show _ = magic; decide +kernel, fun _ => by
    show _ + 12 * _ ≤ _; decide +kernel⟩

theorem scan_pkgF : exec .scan (loaded pkgF 40) = .next (after (exec .scan (loaded pkgF 40))) ∧
    (after (exec .scan (loaded pkgF 40))).status.phase = .iter ∧
    (after (exec .scan (loaded pkgF 40))).toc.count = 1#32 := by
  have h : after (exec .scan (loaded pkgF 40)) = ((Flow.running (latched (loaded pkgF 40)).openTable).andThen fun s =>
      (scanEntries s.toc.count.toNat s).andThen fun s => .running s.clearDescriptor.openTable).state := by
    rw [exec_scan, after, unlessFault_run (by decide +kernel), scanCmd, headerStep_ok headerOk_pkgF]
  refine ⟨rfl, ?_⟩
  rw [h]
  decide +kernel

theorem test_witness_ScanSucceedsExactlyOnAGoodTable :
    (loaded pkgF 40).status.phase ≠ .fault ∧ HeaderOk wde1 (loaded pkgF 40) ∧
      (∀ k < (loaded pkgF 40).countField.toNat,
        EntryOk (loaded pkgF 40) (loaded pkgF 40).dataOffField (entryAddr (loaded pkgF 40) 16 k)) ∧
      (after (exec .scan (loaded pkgF 40))).status.phase = .iter := by
  refine ⟨by decide +kernel, headerOk_pkgF, fun k hk => ?_, scan_pkgF.2.1⟩
  have h1 : (loaded pkgF 40).countField.toNat = 1 := by decide +kernel
  obtain rfl : k = 0 := by omega
  exact ⟨by decide +kernel, by decide +kernel, by decide +kernel⟩

theorem test_witness_ScanPromisesCountEntriesThenEnd :
    (loaded pkgF 40).status.phase ≠ .fault ∧
      exec .scan (loaded pkgF 40) = .next (after (exec .scan (loaded pkgF 40))) ∧
      (after (exec .scan (loaded pkgF 40))).status.phase = .iter ∧
      0 < (after (exec .scan (loaded pkgF 40))).toc.count.toNat :=
  ⟨by decide +kernel, scan_pkgF.1, scan_pkgF.2.1, by rw [scan_pkgF.2.2]; decide⟩

/-- A bad header (LEN 0), and `PKG-H` with its bad entry 1 behind the good entry 0. -/
theorem test_witness_ScanReportsTheFirstBadEntry :
    ¬HeaderOk wde1 State.reset ∧ HeaderOk wde1 (loaded pkgH 68) ∧ 1 < (loaded pkgH 68).countField.toNat ∧
      (∀ j < 1, EntryOk (loaded pkgH 68) (loaded pkgH 68).dataOffField
        (entryAddr (loaded pkgH 68) (loaded pkgH 68).tableOffField.toNat j)) ∧
      ¬EntryOk (loaded pkgH 68) (loaded pkgH 68).dataOffField
        (entryAddr (loaded pkgH 68) (loaded pkgH 68).tableOffField.toNat 1) := by
  refine ⟨fun h => absurd (show 16 ≤ 0 from h.2.1) (by decide), headerOk_pkgH, by decide +kernel, fun j hj => ?_, fun h => ?_⟩
  · obtain rfl : j = 0 := by omega
    exact ⟨by decide +kernel, by decide +kernel, by decide +kernel⟩
  · exact absurd h.2.1 (by decide +kernel)

/-- The package of V12h, latched by `PARSE_HDR` and by `SCAN`, its entry yielded by `NEXT`. -/
theorem test_witness_ContainerNumbersAreBigEndian :
    (loaded pkgF 40).status.phase ≠ .fault ∧
      (exec .parseHdr (loaded pkgF 40) = .next (after (exec .parseHdr (loaded pkgF 40))) ∧
        (after (exec .parseHdr (loaded pkgF 40))).status.phase = .iter) ∧
      (exec .scan (loaded pkgF 40) = .next (after (exec .scan (loaded pkgF 40))) ∧
        (after (exec .scan (loaded pkgF 40))).status.phase = .iter) ∧
      (iterating pkgF 40 32#32).status.phase ≠ .fault ∧
      exec .next (iterating pkgF 40 32#32) = .next (after (exec .next (iterating pkgF 40 32#32))) ∧
      (after (exec .next (iterating pkgF 40 32#32))).status.evalid = true := by
  have hf : (loaded pkgF 40).status.phase ≠ .fault := by decide +kernel
  refine ⟨hf, ⟨rfl, ?_⟩, ⟨scan_pkgF.1, scan_pkgF.2.1⟩, test_witness_NextYieldsSafeDescriptors⟩
  rw [exec_parseHdr, after, unlessFault_run hf, headerStep_ok headerOk_pkgF]
  rfl

/-- Every command answers a next state, so the hypothesis `exec i s = next t` is met by each. -/
theorem test_witness_CommandsLeaveTheRestUnchanged :
    ∀ i : Instr, exec i State.reset = .next (after (exec i State.reset)) := by
  intro i; cases i <;> rfl

theorem test_witness_NoCommandWritesPastLen :
    exec .decrypt (startW 0xB5#8) = .next (after (exec .decrypt (startW 0xB5#8))) ∧ (startW 0xB5#8).len.toNat ≤ 1024 :=
  ⟨rfl, Nat.le_refl 1024⟩

theorem test_witness_LenIsLockedOutsideIdle :
    step (asked State.reset [.regWrite 0x08 5#32]) = .next (after (step (asked State.reset [.regWrite 0x08 5#32]))) ∧
      (after (step (asked State.reset [.regWrite 0x08 5#32]))).len ≠ (asked State.reset [.regWrite 0x08 5#32]).len :=
  ⟨rfl, by decide +kernel⟩

theorem test_witness_DoneFlagsGateNothing :
    SameButDone (startW 0xB5#8) ((startW 0xB5#8).setCbcDone true) ∧
      exec .xorExp (startW 0xB5#8) = .next (after (exec .xorExp (startW 0xB5#8))) := ⟨rfl, rfl⟩

/-- Two keys, and a transaction of each kind the statement admits: a register read and a command that is no cipher command. -/
theorem test_witness_KeyMaterialIsNotReadBack :
    let s := asked State.reset [.regWrite 0x00 0x10#32]
    let t := { s with key := [(0, 0xA1#8)] }
    SameButKeys s t ∧ step s = .next (after (step s)) ∧
      ∀ w rest, s.inbox = .regWrite 0x00 w :: rest →
        decode w ≠ .ok .decrypt ∧ decode w ≠ .ok .cbcDec ∧ decode w ≠ .ok .xorExp := by
  refine ⟨rfl, rfl, fun w rest h => ?_⟩
  simp only [asked, List.cons.injEq, Transaction.regWrite.injEq, true_and] at h
  rw [← h.1]
  decide

theorem test_witness_EachStageReadsItsOwnKeyMaterial :
    exec .cbcDec (startW 0xB5#8) = .next (after (exec .cbcDec (startW 0xB5#8))) ∧
      exec .xorExp (startW 0xB5#8) = .next (after (exec .xorExp (startW 0xB5#8))) := ⟨rfl, rfl⟩

/-- A state in IDLE with LEN set and one byte written to the key store has the invariant, and steps. -/
theorem test_witness_StepKeepsTheInvariant :
    let s := { asked State.reset [.regWrite 0x00 0x01#32] with len := 5#32, key := [(31, 0x01#8)] }
    EngineInv wde1 s ∧ step s = .next (after (step s)) := by
  refine ⟨⟨⟨by decide, .inl rfl, fun _ => rfl, by decide, fun _ => rfl, fun _ => rfl, ?_, by decide, ?_, ?_, by decide⟩, ?_⟩,
    rfl⟩
  · rintro (h | h) <;> exact absurd h (by decide)
  · rintro (h | h) <;> exact absurd h (by decide)
  · rintro (h | h) <;> exact absurd h (by decide)
  · intro sp
    cases sp
    · exact ⟨Memory.wf_nil _, fun x hx => by cases hx⟩
    · exact ⟨Memory.wf_nil _, fun x hx => by cases hx⟩
    · exact ⟨by decide, by show ∀ x ∈ [((31, 0x01#8) : Host.Cell)], x.1 < 32; decide⟩
    · exact ⟨Memory.wf_nil _, fun x hx => by cases hx⟩

end Sys2Proof.Tests
end

section
/-! PROOFS, 10_state. What a command and a transaction can do, said once: the flow of a command as one function of the
command, where its flow can end, and the frames of the cipher and the container commands. -/

namespace Sys2Proof.Machine

variable {c : Cfg} {s t u : State} {i : Instr} {f : Flow} {P Q : State → Prop}

/-! ### The meaning of a command as a flow -/

/-- The pseudocode of each command (30_encoding R93). `CLEAR` alone runs in FAULT as well, so `exec_of_ne_clear` leaves
it out. -/
def commandFlow : Instr → State → Flow
  | .nop => .running
  | .decrypt => decryptCmd wde1
  | .cbcDec => cbcDecCmd wde1
  | .xorExp => xorExpCmd wde1
  | .parseHdr => headerStep wde1
  | .next => nextCmd
  | .scan => scanCmd wde1
  | .clear => fun s => .running s.clearAll

theorem exec_of_ne_clear (hi : i ≠ .clear) (s : State) : exec i s = .next (unlessFault (commandFlow i) s) := by
  cases i with
  | nop => exact exec_nop s
  | decrypt => exact exec_decrypt s
  | cbcDec => exact exec_cbcDec s
  | xorExp => exact exec_xorExp s
  | parseHdr => exact exec_parseHdr s
  | next => exact exec_next s
  | scan => exact exec_scan s
  | clear => exact absurd rfl hi

theorem eq_unlessFault_of_exec (hi : i ≠ .clear) (h : exec i s = .next t) : t = unlessFault (commandFlow i) s := by
  rw [exec_of_ne_clear hi] at h
  injection h with h
  exact h.symm

theorem eq_clearAll_of_exec (h : exec .clear s = .next t) : t = s.clearAll := by
  rw [exec_clear] at h
  injection h with h
  exact h.symm

/-! ### Where a flow can end -/

/-- The flow ends in a state of `Q`, or in error entry at one (00_scope R11, 60_exceptions R240). -/
inductive Flow.Ends (Q : State → Prop) : Flow → Prop
  /-- The last line ran. -/
  | running {u : State} (h : Q u) : Flow.Ends Q (.running u)
  /-- A raise ended the command. -/
  | raised {u : State} (h : Q u) (e : ErrCause) (info : Word) : Flow.Ends Q (.raised (u.raise e info))

theorem State.stop_ends (h : Q s) (e : ErrCause) (info : Word) : (s.stop e info).Ends Q := .raised h e info

theorem Flow.Ends.mono (h : f.Ends P) (hPQ : ∀ u, P u → Q u) : f.Ends Q := by
  cases h with
  | running h => exact .running (hPQ _ h)
  | raised h e info => exact .raised (hPQ _ h) e info

theorem Flow.Ends.andThen {k : State → Flow} (h : f.Ends P) (hPQ : ∀ u, P u → Q u) (hk : ∀ u, P u → (k u).Ends Q) :
    (f.andThen k).Ends Q := by
  cases h with
  | running h => exact hk _ h
  | raised h e info => exact .raised (hPQ _ h) e info

/-- What holds at every state where a command's flow can end, error entry included, and before the command, holds after
it, FAULT included. -/
theorem unlessFault_of_ends {cmd : State → Flow} (h : (cmd s).Ends Q) (hs : P s) (hok : ∀ u, Q u → P u)
    (herr : ∀ u e info, Q u → P (u.raise e info)) : P (unlessFault cmd s) := by
  unfold unlessFault
  split
  · exact hs
  · generalize cmd s = f at h
    cases h with
    | running h => exact hok _ h
    | raised h e info => exact herr _ e info h

/-! ### The cipher commands -/

/-- What a cipher command started at `s` may have done when it reaches `u`: DEC below LEN and the two flags of its
stages, and no cell past the end of a space. -/
structure CipherRun (c : Cfg) (s u : State) : Prop where
  /-- Everything but DEC, CBC_DONE and XOR_DONE is as it was (10_state R42). -/
  frame : u = { s with
    dec := u.dec
    status := { s.status with cbcDone := u.status.cbcDone, xorDone := u.status.xorDone } }
  /-- No byte of DEC at or past LEN was written (10_state R35). -/
  past_len : ∀ a, s.len.toNat ≤ a → u.byteAt .dec a = s.byteAt .dec a
  /-- The byte spaces stay well formed (20_memory R60). -/
  memInv : MemInv c s → MemInv c u

theorem CipherRun.len_eq (h : CipherRun c s u) : u.len = s.len := by rw [h.frame]

theorem CipherRun.refl (c : Cfg) (s : State) : CipherRun c s s := ⟨rfl, fun _ _ => rfl, id⟩

theorem CipherRun.trans (h : CipherRun c s t) (h' : CipherRun c t u) : CipherRun c s u where
  frame := by rw [h'.frame, h.frame]
  past_len a ha := (h'.past_len a (by rwa [h.len_eq])).trans (h.past_len a ha)
  memInv hm := h'.memInv (h.memInv hm)

/-- Writing the flags is part of a cipher command's run (10_state R37). -/
theorem CipherRun.of_flags {cbc xor : Bool}
    (h : u = { s with status := { s.status with cbcDone := cbc, xorDone := xor } }) : CipherRun c s u := by
  subst h
  exact ⟨rfl, fun _ _ => rfl, fun hm => hm.congr fun sp => by cases sp <;> rfl⟩

/-- The CBC stage's loop writes the header region alone. -/
theorem CipherRun.cbcBlocks (hw : c.WellFormed) (ht : c.BlockTotal) (hlen : c.hdr ≤ s.len.toNat) :
    CipherRun c s (cbcBlocks c (s.keyBytes c) (c.hdr / c.blk) 0 c.ivConst s) := by
  obtain ⟨hsame, hdec⟩ := cbcStage_dec hw ht s
  have ⟨_, _, hdvd, _, hbuf, _⟩ := hw
  have hm : c.hdr / c.blk * c.blk = c.hdr := Nat.div_mul_cancel (Nat.dvd_of_mod_eq_zero hdvd)
  refine ⟨?_, fun a ha => ?_, fun h => cbcBlocks_memInv hw ht _ 0 h (by rwa [Nat.zero_add, hm])⟩
  · rw [hsame]
  · rw [hdec a, if_neg (by omega)]

theorem cbcStage_ends (hw : c.WellFormed) (ht : c.BlockTotal) (hlen : c.hdr ≤ s.len.toNat) :
    (cbcStage c s).Ends (CipherRun c s) := by
  have h := CipherRun.cbcBlocks hw ht hlen
  simp only [cbcStage]
  split_ifs
  · exact .running (h.trans (.of_flags rfl))
  · exact State.stop_ends h _ _

theorem xorStage_ends (hlen : s.len.toNat ≤ c.bufMax) (hhdr : c.hdr ≤ s.len.toNat) :
    (xorStage c s).Ends (CipherRun c s) := by
  obtain ⟨hsame, hdec⟩ := xorBytesFrom_spec c (s.len.toNat - c.hdr) c.hdr s
  have h : CipherRun c s (xorBytesFrom c (s.len.toNat - c.hdr) c.hdr s) := by
    refine ⟨?_, fun a ha => ?_, fun h => xorBytesFrom_memInv c _ _ h (by omega)⟩
    · rw [hsame]
    · rw [hdec a, if_neg (by omega)]
  exact .running (h.trans (.of_flags rfl))

/-- A cipher command either fails an entry check, having dropped flags at most, or goes on from a ready state with the
flags of its stages dropped (40_cipher_commands R112). -/
theorem cipherChecks_andThen_ends {k : State → Flow} (w : Word) (cbc xor : Bool)
    (hk : CipherReady c xor s → (k (s.dropDone cbc xor)).Ends (CipherRun c (s.dropDone cbc xor))) :
    ((cipherChecks c w cbc xor s).andThen k).Ends (CipherRun c s) := by
  have hdrop : CipherRun c s (s.dropDone cbc xor) := .of_flags rfl
  rcases cipherChecks_cases c w cbc xor s with ⟨hr, h⟩ | ⟨_, h⟩ | ⟨_, _, h⟩ | ⟨_, _, _, _, h⟩ <;> rw [h]
  · exact (hk hr).mono fun u hu => hdrop.trans hu
  · exact State.stop_ends (.refl c s) _ _
  · exact State.stop_ends hdrop _ _
  · exact State.stop_ends hdrop _ _

theorem cbcDecCmd_ends (hw : c.WellFormed) (ht : c.BlockTotal) (s : State) :
    (cbcDecCmd c s).Ends (CipherRun c s) :=
  cipherChecks_andThen_ends _ _ _ fun ⟨_, _, _, hhdr⟩ => cbcStage_ends hw ht hhdr

theorem xorExpCmd_ends (c : Cfg) (s : State) : (xorExpCmd c s).Ends (CipherRun c s) :=
  cipherChecks_andThen_ends _ _ _ fun ⟨_, hlen, _, hhdr⟩ => xorStage_ends hlen hhdr

theorem decryptCmd_ends (hw : c.WellFormed) (ht : c.BlockTotal) (s : State) :
    (decryptCmd c s).Ends (CipherRun c s) := by
  rw [decryptCmd, Flow.andThen_assoc]
  refine cipherChecks_andThen_ends _ _ _ fun ⟨_, hlen, _, hhdr⟩ => ?_
  refine (cbcStage_ends hw ht (s := s.dropDone true true) hhdr).andThen (fun _ hu => hu) fun u hu => ?_
  have hl : u.len = s.len := hu.len_eq
  exact (xorStage_ends (by rwa [hl]) (by rwa [hl])).mono fun v hv => hu.trans hv

/-! ### The container commands -/

/-- `u` is `s` but for STATE, EVALID, the header registers with the cursor, and the descriptor: all that a container
command writes before a raise (10_state R42). -/
def ContainerRun (s u : State) : Prop :=
  u = { s with
    toc := u.toc
    desc := u.desc
    status := { s.status with phase := u.status.phase, evalid := u.status.evalid } }

theorem ContainerRun.refl (s : State) : ContainerRun s s := rfl

theorem ContainerRun.trans (h : ContainerRun s t) (h' : ContainerRun t u) : ContainerRun s u := by
  unfold ContainerRun at *
  rw [h', h]

theorem ContainerRun.cells (h : ContainerRun s u) (sp : Space) : u.cells sp = s.cells sp := by
  rw [h]; cases sp <;> rfl

theorem SameButCursor.containerRun (h : SameButCursor s u) : ContainerRun s u := by
  unfold SameButCursor at h
  unfold ContainerRun
  rw [h]

theorem headerStep_ends (c : Cfg) (s : State) : (headerStep c s).Ends (ContainerRun s) := by
  have hdrop : ContainerRun s s.dropToc := rfl
  have hlatch : ContainerRun s (latched s) := rfl
  rcases headerStep_cases c s with ⟨_, h⟩ | ⟨_, h⟩ | ⟨_, _, h⟩ | ⟨_, _, _, h⟩ | ⟨_, _, _, _, _, h⟩ <;> rw [h]
  · exact .running (hlatch.trans (u := (latched s).openTable) rfl)
  · exact State.stop_ends hdrop _ _
  · exact State.stop_ends hdrop _ _
  · exact State.stop_ends hdrop _ _
  · exact State.stop_ends hlatch _ _

theorem entryStep_ends (s : State) : (entryStep s).Ends (ContainerRun s) := by
  rcases entryStep_cases s with ⟨_, h⟩ | ⟨_, h⟩ <;> rw [h]
  · exact .running (SameButCursor.yieldEntry s _ _ _ _).containerRun
  · exact State.stop_ends (ContainerRun.refl s) _ _

theorem nextCmd_ends (s : State) : (nextCmd s).Ends (ContainerRun s) := by
  have hclear : ContainerRun s s.clearDescriptor := rfl
  simp only [nextCmd]
  split_ifs
  · exact State.stop_ends (ContainerRun.refl s) _ _
  · exact .running hclear
  · exact .running (hclear.trans (u := s.clearDescriptor.setPhase .ended) rfl)
  · exact (entryStep_ends _).mono fun u hu => hclear.trans hu

theorem scanEntries_ends (n : Nat) (s : State) : (scanEntries n s).Ends (ContainerRun s) := by
  obtain ⟨u, hu, h | ⟨e, _, h⟩⟩ := scanEntries_cases n s <;> rw [h]
  · exact .running hu.containerRun
  · exact State.stop_ends hu.containerRun _ _

theorem scanCmd_ends (c : Cfg) (s : State) : (scanCmd c s).Ends (ContainerRun s) := by
  refine (headerStep_ends c s).andThen (fun _ hu => hu) fun t ht => ?_
  refine (scanEntries_ends _ t).andThen (fun _ hu => ht.trans hu) fun u hu => ?_
  exact .running ((ht.trans hu).trans (u := u.clearDescriptor.openTable) rfl)

/-! ### Each kind of command at the hardware's own configuration -/

/-- The cipher commands (30_encoding R93). -/
def IsCipher (i : Instr) : Prop := i = .decrypt ∨ i = .cbcDec ∨ i = .xorExp

/-- The container commands (30_encoding R93). -/
def IsContainer (i : Instr) : Prop := i = .parseHdr ∨ i = .next ∨ i = .scan

theorem command_kinds (i : Instr) : i = .nop ∨ i = .clear ∨ IsCipher i ∨ IsContainer i := by
  cases i <;> simp [IsCipher, IsContainer]

theorem commandFlow_cipher_ends (hi : IsCipher i) (s : State) : (commandFlow i s).Ends (CipherRun wde1 s) := by
  obtain rfl | rfl | rfl := hi
  · exact decryptCmd_ends wde1_wellFormed wde1_blockTotal s
  · exact cbcDecCmd_ends wde1_wellFormed wde1_blockTotal s
  · exact xorExpCmd_ends wde1 s

theorem commandFlow_container_ends (hi : IsContainer i) (s : State) : (commandFlow i s).Ends (ContainerRun s) := by
  obtain rfl | rfl | rfl := hi
  · exact headerStep_ends wde1 s
  · exact nextCmd_ends s
  · exact scanCmd_ends wde1 s

end Sys2Proof.Machine
end

section
/-! PROOFS, 10_state. The invariant of the engine: what error entry, a cipher command, the container commands and each
host transaction do to it. -/

namespace Sys2Proof.Machine

variable {c : Cfg} {s t u : State} {i : Instr} {f : Flow}

/-! ### The registers -/

theorem ErrCause.code_ne_zero (e : ErrCause) : e.code ≠ 0x00#8 := by
  cases e <;> decide

/-- The invariant of the registers reads neither the byte spaces nor CBC_DONE, XOR_DONE, XLEN (10_state R37). -/
theorem RegInv.congr (h : RegInv c s) (hphase : t.status.phase = s.status.phase)
    (hevalid : t.status.evalid = s.status.evalid) (herr : t.status.err = s.status.err) (hlen : t.len = s.len)
    (htoc : t.toc = s.toc) (hdesc : t.desc = s.desc) (hinfo : t.errInfo = s.errInfo) : RegInv c t := by
  obtain ⟨h1, h2, h3, h4, h5, h6, h7, h8, h9, h10, h11⟩ := h
  simp only [Parsed] at h7 h9 h10
  constructor <;> simpa only [Parsed, hphase, hevalid, herr, hlen, htoc, hdesc, hinfo]

/-- Error entry makes the invariant of the registers hold, whatever held before it (60_exceptions R240). -/
theorem RegInv.raise (c : Cfg) (s : State) (e : ErrCause) (info : Word) : RegInv c (s.raise e info) := by
  constructor <;> simp [Parsed, e.code_ne_zero]

/-- The reset values of the registers meet the invariant (10_state R41). -/
theorem RegInv.of_reset (hstatus : s.status = .reset) (htoc : s.toc = .zero) (hdesc : s.desc = .zero)
    (hinfo : s.errInfo = 0#32) : RegInv c s := by
  constructor <;> simp [Parsed, hstatus, htoc, hdesc, hinfo, Status.reset]

/-- Outside FAULT no error is latched. -/
theorem RegInv.err_eq_zero (h : RegInv c s) (hp : s.status.phase ≠ .fault) : s.status.err = 0x00#8 :=
  not_not.1 fun he => hp (h.err_iff_fault.1 he)

theorem RegInv.cipherRun (h : RegInv c s) (hr : CipherRun c s u) : RegInv c u := by
  rw [hr.frame]
  exact h.congr rfl rfl rfl rfl rfl rfl rfl

/-- In IDLE, LEN and XLEN are free: no descriptor is valid and no header is latched (10_state R24, R25). -/
theorem RegInv.storeReg (h : RegInv c s) (off : Nat) (w : Word) : RegInv c (s.storeReg off w) := by
  by_cases hp : s.status.phase = .idle
  · have he : s.status.evalid = false := by
      by_contra hn
      have := h.evalid_iter (by simpa using hn)
      simp [hp] at this
    have herr := h.err_eq_zero (by simp [hp])
    constructor <;> simp [Parsed, hp, he, herr, h.desc_zero he, h.toc_idle hp, h.info_zero herr]
  · simpa [State.storeReg, hp] using h

/-! ### The container commands -/

/-- What a state needs for the cursor at entry 0 to be put into ITER: no error latched, no descriptor, and a table that
starts inside the package where there are entries (41_container_commands R142). -/
structure TableReady (c : Cfg) (s : State) : Prop where
  /-- No error is latched. -/
  err : s.status.err = 0x00#8
  /-- ERRINFO is 0, as ERR is. -/
  info : s.errInfo = 0#32
  /-- No descriptor is valid. -/
  evalid : s.status.evalid = false
  /-- The descriptor registers are 0. -/
  desc : s.desc = .zero
  /-- The package fits the buffers and holds its header. -/
  len : s.len.toNat ≤ c.bufMax ∧ c.headerSize ≤ s.len.toNat
  /-- Where there are entries, the first starts inside the package. -/
  table : s.toc.count ≠ 0#32 → s.toc.tabOff.toNat ≤ s.len.toNat

theorem TableReady.openTable (h : TableReady c s) : RegInv c s.openTable := by
  obtain ⟨herr, hinfo, hev, hdesc, hlen, htab⟩ := h
  constructor
  case cur_le => exact fun _ hc => htab hc
  all_goals simp [Parsed, herr, hinfo, hev, hdesc, hlen]

theorem tableReady_latched (h : RegInv c s) (hp : s.status.phase ≠ .fault) (hok : HeaderOk c s) :
    TableReady c (latched s) := by
  obtain ⟨hbuf, hhdr, -, htab⟩ := hok
  have herr := h.err_eq_zero hp
  refine ⟨herr, h.info_zero herr, rfl, rfl, ⟨hbuf, hhdr⟩, fun hc => ?_⟩
  have hc' : (latched s).toc.count.toNat ≠ 0 := fun h0 => hc (BitVec.eq_of_toNat_eq h0)
  simp only [latched, State.latchHeader_toc, State.latchHeader_len, State.dropToc_len, State.countField,
    State.tableOffField, State.be32_dropToc] at hc' htab ⊢
  have := htab hc'
  omega

/-- The loop of SCAN leaves a table that can be opened again, once the last descriptor is cleared. -/
theorem TableReady.of_cursor (h : TableReady c s) (hu : SameButCursor s.openTable u) :
    TableReady c u.clearDescriptor := by
  unfold SameButCursor at hu
  rw [hu]
  exact ⟨h.err, h.info, rfl, rfl, h.len, h.table⟩

theorem headerStep_running (h : headerStep c s = .running t) : HeaderOk c s ∧ t = (latched s).openTable := by
  rcases headerStep_cases c s with ⟨hok, h'⟩ | ⟨_, h'⟩ | ⟨_, _, h'⟩ | ⟨_, _, _, h'⟩ | ⟨_, _, _, _, _, h'⟩ <;>
    rw [h'] at h
  · injection h with h
    exact ⟨hok, h.symm⟩
  all_goals exact nomatch h

theorem scanEntries_running {n : Nat} (h : scanEntries n s = .running t) : SameButCursor s t := by
  obtain ⟨u, hu, h' | ⟨e, _, h'⟩⟩ := scanEntries_cases n s <;> rw [h'] at h
  · injection h with h
    exact h ▸ hu
  · exact nomatch h

theorem Flow.andThen_eq_running {k : State → Flow} (h : f.andThen k = .running t) :
    ∃ u, f = .running u ∧ k u = .running t := by
  cases f with
  | running u => exact ⟨u, rfl, h⟩
  | raised u => exact nomatch h

theorem headerStep_regInv (h : RegInv c s) (hp : s.status.phase ≠ .fault) (hf : headerStep c s = .running t) :
    RegInv c t := by
  obtain ⟨hok, rfl⟩ := headerStep_running hf
  exact (tableReady_latched h hp hok).openTable

theorem scanCmd_regInv (h : RegInv c s) (hp : s.status.phase ≠ .fault) (hf : scanCmd c s = .running t) :
    RegInv c t := by
  obtain ⟨u, hu, hf⟩ := Flow.andThen_eq_running hf
  obtain ⟨hok, rfl⟩ := headerStep_running hu
  obtain ⟨v, hv, hf⟩ := Flow.andThen_eq_running hf
  injection hf with hf
  rw [← hf]
  exact ((tableReady_latched h hp hok).of_cursor (scanEntries_running hv)).openTable

/-- Dropping the descriptor keeps the invariant (10_state R29). -/
theorem RegInv.clearDescriptor (h : RegInv c s) : RegInv c s.clearDescriptor := by
  constructor
  case evalid_iter | desc_zero | desc_range => simp
  case err_iff_fault => exact h.err_iff_fault
  case err_legal => exact h.err_legal
  case info_zero => exact h.info_zero
  case toc_idle => exact h.toc_idle
  case idx_le => exact h.idx_le
  case idx_end => exact h.idx_end
  case len_parsed => exact h.len_parsed
  case cur_le => exact h.cur_le

/-- With every entry yielded, END keeps the invariant (10_state R36). -/
theorem RegInv.setPhase_ended (h : RegInv c s) (hp : Parsed s) (he : s.status.evalid = false)
    (hidx : s.toc.idx = s.toc.count) : RegInv c (s.setPhase .ended) := by
  have herr := h.err_eq_zero (by rcases hp with hp | hp <;> simp [hp])
  constructor
  case cur_le => exact fun _ => h.cur_le hp
  all_goals simp [Parsed, herr, he, hidx, h.info_zero herr, h.desc_zero he, h.len_parsed hp]

/-- A word below the limit of another can be counted up. -/
theorem toNat_add_one_le {a b : Word} (h : a.toNat ≤ b.toNat) (hne : a ≠ b) : (a + 1#32).toNat ≤ b.toNat := by
  have : a.toNat ≠ b.toNat := fun h => hne (BitVec.eq_of_toNat_eq h)
  bv_omega

/-- A number that some word bounds is stored without a wrap. -/
theorem toNat_ofNat_of_le {n : Nat} {w : Word} (h : n ≤ w.toNat) : (BitVec.ofNat 32 n).toNat = n := by
  rw [BitVec.toNat_ofNat, Nat.mod_eq_of_lt (Nat.lt_of_le_of_lt h w.isLt)]

/-- Yielding a good entry in ITER keeps the invariant: nothing stored wraps, as each sum is at most LEN
(41_container_commands R147, R154). -/
theorem RegInv.yieldEntry (h : RegInv c s) (hp : s.status.phase = .iter) (hidx : s.toc.idx ≠ s.toc.count)
    {cu n : Nat} {off size : Word} (hend : cu + 12 + n ≤ s.len.toNat)
    (hrange : s.toc.dataOff.toNat + off.toNat + size.toNat ≤ s.len.toNat) :
    RegInv c (s.yieldEntry cu n off size) := by
  have hparsed : Parsed s := .inl hp
  have herr := h.err_eq_zero (by simp [hp])
  have hcur := toNat_ofNat_of_le hend
  have hpath : (BitVec.ofNat 32 (cu + 4)).toNat = cu + 4 := toNat_ofNat_of_le (w := s.len) (by omega)
  have hn : (BitVec.ofNat 32 n).toNat = n := toNat_ofNat_of_le (w := s.len) (by omega)
  have hstart : (BitVec.ofNat 32 (s.toc.dataOff.toNat + off.toNat)).toNat = s.toc.dataOff.toNat + off.toNat :=
    toNat_ofNat_of_le (w := s.len) (by omega)
  constructor
  case idx_le => exact fun _ => toNat_add_one_le (h.idx_le hparsed) hidx
  case cur_le => exact fun _ _ => by rw [State.yieldEntry_toc, hcur]; exact hend
  case desc_range =>
    intro _
    simp only [State.yieldEntry_desc, State.yieldEntry_toc, State.yieldEntry_len, hpath, hn, hstart]
    exact ⟨by omega, hrange, trivial⟩
  all_goals simp [hp, herr, h.info_zero herr, h.len_parsed hparsed]

theorem entryStep_regInv (h : RegInv c s) (hp : s.status.phase = .iter) (hidx : s.toc.idx ≠ s.toc.count)
    (hf : entryStep s = .running t) : RegInv c t := by
  rcases entryStep_cases s with ⟨⟨hend, -, hrange⟩, h'⟩ | ⟨_, h'⟩ <;> rw [h'] at hf
  · injection hf with hf
    rw [← hf]
    exact h.yieldEntry hp hidx hend hrange
  · exact nomatch hf

theorem Phase.eq_iter {p : Phase} (hidle : p ≠ .idle) (hended : p ≠ .ended) (hfault : p ≠ .fault) : p = .iter := by
  cases p with
  | iter => rfl
  | idle => exact absurd rfl hidle
  | ended => exact absurd rfl hended
  | fault => exact absurd rfl hfault

theorem nextCmd_regInv (h : RegInv c s) (hp : s.status.phase ≠ .fault) (hf : nextCmd s = .running t) :
    RegInv c t := by
  simp only [nextCmd] at hf
  split_ifs at hf with hidle hended hidx
  · exact nomatch hf
  · injection hf with hf
    exact hf ▸ h.clearDescriptor
  · injection hf with hf
    exact hf ▸ h.clearDescriptor.setPhase_ended (.inl (Phase.eq_iter hidle hended hp)) rfl hidx
  · exact entryStep_regInv h.clearDescriptor (Phase.eq_iter hidle hended hp) hidx hf

/-! ### Commands -/

theorem MemInv.containerRun (h : MemInv c s) (hr : ContainerRun s u) : MemInv c u := h.congr hr.cells

/-- The clause of the byte spaces on the way, and the clause of the registers where the flow runs to its end, give the
invariant after the command: error entry itself sets the registers right. -/
theorem Flow.Ends.engineInv (hm : f.Ends (MemInv c)) (hr : ∀ t, f = .running t → RegInv c t) :
    EngineInv c f.state := by
  cases hm with
  | running h => exact ⟨hr _ rfl, h⟩
  | raised h e info => exact ⟨.raise .., h.congr (by simp)⟩

theorem unlessFault_engineInv {cmd : State → Flow} (h : EngineInv c s)
    (hcmd : s.status.phase ≠ .fault → (cmd s).Ends (MemInv c) ∧ ∀ t, cmd s = .running t → RegInv c t) :
    EngineInv c (unlessFault cmd s) := by
  by_cases hp : s.status.phase = .fault
  · rwa [unlessFault_fault hp]
  · rw [unlessFault_run hp]
    obtain ⟨hm, hr⟩ := hcmd hp
    exact hm.engineInv hr

theorem commandFlow_cipher_regInv (hi : IsCipher i) (h : RegInv wde1 s) (hf : commandFlow i s = .running t) :
    RegInv wde1 t := by
  have he := commandFlow_cipher_ends hi s
  rw [hf] at he
  cases he with
  | running hr => exact h.cipherRun hr

theorem commandFlow_container_regInv (hi : IsContainer i) (h : RegInv wde1 s) (hp : s.status.phase ≠ .fault)
    (hf : commandFlow i s = .running t) : RegInv wde1 t := by
  obtain rfl | rfl | rfl := hi
  · exact headerStep_regInv h hp hf
  · exact nextCmd_regInv h hp hf
  · exact scanCmd_regInv h hp hf

theorem MemInv.nil_of_cells (h : ∀ sp, s.cells sp = []) : MemInv c s := fun sp => by
  rw [h sp]
  exact ⟨Memory.wf_nil _, fun x hx => by simp at hx⟩

/-- `CLEAR` empties KEY and XSEED and keeps the buffers. -/
theorem MemInv.clearAll (h : MemInv c s) : MemInv c s.clearAll := fun sp => by
  cases sp with
  | raw => exact h .raw
  | dec => exact h .dec
  | key | xseed => exact ⟨Memory.wf_nil _, fun x hx => by cases hx⟩

theorem exec_engineInv (h : EngineInv wde1 s) (hx : exec i s = .next t) : EngineInv wde1 t := by
  by_cases hi : i = .clear
  · subst hi
    rw [eq_clearAll_of_exec hx]
    exact ⟨.of_reset rfl rfl rfl rfl, h.2.clearAll⟩
  rw [eq_unlessFault_of_exec hi hx]
  obtain ⟨hreg, hmem⟩ := h
  refine unlessFault_engineInv ⟨hreg, hmem⟩ fun hp => ?_
  rcases command_kinds i with rfl | hclear | hcipher | hcontainer
  · exact ⟨.running hmem, fun t ht => by injection ht with ht; exact ht ▸ hreg⟩
  · exact absurd hclear hi
  · exact ⟨(commandFlow_cipher_ends hcipher s).mono fun _ hr => hr.memInv hmem,
      fun _ => commandFlow_cipher_regInv hcipher hreg⟩
  · exact ⟨(commandFlow_container_ends hcontainer s).mono fun _ hr => hmem.containerRun hr,
      fun _ => commandFlow_container_regInv hcontainer hreg hp⟩

theorem illegalWord_engineInv (h : EngineInv c s) (w : Word) : EngineInv c (illegalWord w s) :=
  unlessFault_engineInv h fun _ => ⟨State.stop_ends h.2 _ _, fun _ ht => nomatch ht⟩

theorem execWord_engineInv {w : Word} (h : EngineInv wde1 s) (hx : execWord w s = .next t) : EngineInv wde1 t := by
  unfold execWord at hx
  split at hx
  · exact exec_engineInv h hx
  · injection hx with hx
    exact hx ▸ illegalWord_engineInv h w

/-! ### Transactions -/

theorem EngineInv.hostWrite (h : EngineInv c s) (sp : Space) (a : Nat) (b : Byte) :
    EngineInv c (s.hostWrite c sp a b) := by
  refine ⟨h.1.congr (by simp) (by simp) (by simp) (by simp) (by simp) (by simp) (by simp), ?_⟩
  unfold State.hostWrite
  split
  · next ha => exact h.2.setByte b ha
  · exact h.2

theorem EngineInv.answer (h : EngineInv c s) (r : Reply) : EngineInv c (s.answer r) :=
  ⟨h.1.congr rfl rfl rfl rfl rfl rfl rfl, h.2.congr (by simp)⟩

theorem EngineInv.takeInbox (h : EngineInv c s) (rest : List Transaction) : EngineInv c (s.takeInbox rest) :=
  ⟨h.1.congr rfl rfl rfl rfl rfl rfl rfl, h.2.congr (by simp)⟩

theorem EngineInv.storeReg (h : EngineInv c s) (off : Nat) (w : Word) : EngineInv c (s.storeReg off w) :=
  ⟨h.1.storeReg off w, h.2.congr (by simp)⟩

theorem EngineInv.hwReset (c : Cfg) (s : State) : EngineInv c s.hwReset :=
  ⟨.of_reset rfl rfl rfl rfl, .nil_of_cells fun sp => by cases sp <;> rfl⟩

theorem transact_engineInv {x : Transaction} (h : EngineInv wde1 s) (hx : transact x s = .next t) :
    EngineInv wde1 t := by
  cases x with
  | hwReset => injection hx with hx; exact hx ▸ .hwReset wde1 s
  | regRead off =>
    simp only [transact] at hx
    split at hx
    · injection hx with hx; exact hx ▸ h.answer _
    · injection hx
  | regWrite off w =>
    simp only [transact] at hx
    split_ifs at hx
    · exact execWord_engineInv h hx
    · injection hx with hx; exact hx ▸ h.storeReg off w
  | rawWrite a b | decWrite a b | keyWrite a b | seedWrite a b => injection hx with hx; exact hx ▸ h.hostWrite _ a b
  | rawRead a | decRead a => injection hx with hx; exact hx ▸ h.answer _

theorem step_engineInv (h : EngineInv wde1 s) (hx : step s = .next t) : EngineInv wde1 t := by
  unfold step serve at hx
  split at hx
  · injection hx with hx
    exact hx ▸ h
  · exact transact_engineInv (h.takeInbox _) hx

end Sys2Proof.Machine

open Sys2Proof Sys2Proof.Machine

/-- Settles O51, by a case split on the transaction and, for a command word, on the command: error entry sets the
registers right whatever held before it, so only the flows that run to their end need the invariant itself. -/
theorem stepKeepsTheInvariant : Obligations.StepKeepsTheInvariant := fun _ _ h hx => step_engineInv h hx

/-- Settles O52: the registers at reset meet the invariant, and no space lists a cell. -/
theorem resetHasTheInvariant : Obligations.ResetHasTheInvariant :=
  ⟨.of_reset rfl rfl rfl rfl, .nil_of_cells fun sp => by cases sp <;> rfl⟩

end

section
/-! PROOFS, 10_state. The frames of the commands: what each leaves unchanged, the bytes of DEC past LEN, and what can
change LEN; the decoded command of a step. -/

namespace Sys2Proof.Machine

variable {s t : State} {i : Instr} {w : Word}

/-! ### Frames -/

/-- `t` is `s` but for what a cipher command or its error entry writes (10_state R42). -/
def AfterCipher (s t : State) : Prop :=
  t = { s with status := t.status, desc := t.desc, errInfo := t.errInfo, dec := t.dec }

/-- `t` is `s` but for what a container command or its error entry writes (10_state R42). -/
def AfterContainer (s t : State) : Prop :=
  t = { s with
    status := { t.status with cbcDone := s.status.cbcDone, xorDone := s.status.xorDone }
    toc := t.toc
    desc := t.desc
    errInfo := t.errInfo }

/-- The frame of a cipher command, in FAULT, after a raise and at its end alike. -/
theorem exec_cipher_frame (hi : IsCipher i) (h : exec i s = .next t) :
    AfterCipher s t ∧ ∀ a, s.len.toNat ≤ a → t.byteAt .dec a = s.byteAt .dec a := by
  have hne : i ≠ .clear := by rintro rfl; simp [IsCipher] at hi
  rw [eq_unlessFault_of_exec hne h]
  refine unlessFault_of_ends (P := fun t => AfterCipher s t ∧ ∀ a, s.len.toNat ≤ a → t.byteAt .dec a = s.byteAt .dec a)
    (commandFlow_cipher_ends hi s) ⟨rfl, fun _ _ => rfl⟩ (fun u hu => ⟨?_, hu.past_len⟩)
    fun u e info hu => ⟨?_, fun a ha => (State.byteAt_raise ..).trans (hu.past_len a ha)⟩
  · rw [hu.frame]; rfl
  · rw [hu.frame]; rfl

/-- The frame of a container command. -/
theorem exec_container_frame (hi : IsContainer i) (h : exec i s = .next t) : AfterContainer s t := by
  have hne : i ≠ .clear := by rintro rfl; simp [IsContainer] at hi
  rw [eq_unlessFault_of_exec hne h]
  refine unlessFault_of_ends (P := AfterContainer s) (commandFlow_container_ends hi s) rfl (fun u hu => ?_)
    fun u e info hu => ?_
  · rw [hu]; rfl
  · rw [hu]; rfl

theorem exec_nop_frame (h : exec .nop s = .next t) : t = s := by
  rw [eq_unlessFault_of_exec (by decide) h]
  exact ite_self s

/-- No command but `CLEAR` writes what the host loads (10_state R24, R25, R32, R33). -/
theorem exec_keeps_inputs (hi : i ≠ .clear) (h : exec i s = .next t) :
    t.key = s.key ∧ t.xseed = s.xseed ∧ t.len = s.len ∧ t.xlen = s.xlen := by
  rcases command_kinds i with rfl | hc | hi' | hi'
  · rw [exec_nop_frame h]; exact ⟨rfl, rfl, rfl, rfl⟩
  · exact absurd hc hi
  · rw [(exec_cipher_frame hi' h).1]; exact ⟨rfl, rfl, rfl, rfl⟩
  · rw [exec_container_frame hi' h]; exact ⟨rfl, rfl, rfl, rfl⟩

/-! ### The decoded command -/

/-- A word is its two fields joined (30_encoding R91). -/
theorem word_toNat (w : Word) : w.toNat = (rsvz w).toNat * 256 + (opc w).toNat := by
  simp only [rsvz, opc, BitVec.extractLsb'_toNat, Nat.shiftRight_eq_div_pow]
  omega

theorem mem_opcodeMap_of_lookup {b : Byte} (h : opcodeMap.lookup b = some i) : (b, i) ∈ opcodeMap := by
  obtain ⟨l₁, l₂, hl, -⟩ := List.lookup_eq_some_iff.1 h
  simp [hl]

/-- A word that decodes is the word of its command (30_encoding R92). -/
theorem eq_encode_of_decode (h : decode w = .ok i) : w = encode i := by
  unfold decode at h
  split at h
  · next hr =>
    split at h
    · next j hj =>
      injection h with h
      subst h
      have hw : w.toNat = (opc w).toNat := by rw [word_toNat, hr]; simp
      refine BitVec.eq_of_toNat_eq (hw.trans ?_)
      have hm := mem_opcodeMap_of_lookup hj
      simp only [opcodeMap, List.mem_cons, Prod.mk.injEq, List.not_mem_nil, or_false] at hm
      rcases hm with ⟨ho, rfl⟩ | ⟨ho, rfl⟩ | ⟨ho, rfl⟩ | ⟨ho, rfl⟩ | ⟨ho, rfl⟩ | ⟨ho, rfl⟩ | ⟨ho, rfl⟩ | ⟨ho, rfl⟩ <;>
        rw [ho] <;> rfl
    · nomatch h
  · nomatch h

theorem step_eq_transact {x : Transaction} {rest : List Transaction} (h : s.inbox = x :: rest) :
    step s = transact x (s.takeInbox rest) := by
  simp only [step, serve, h]

/-! ### What can change LEN -/

theorem illegalWord_len (w : Word) (s : State) : (illegalWord w s).len = s.len := by
  unfold illegalWord unlessFault
  split <;> rfl

/-- A command word that changes LEN is that of `CLEAR`. -/
theorem execWord_len (h : execWord w s = .next t) (hlen : t.len ≠ s.len) : w = 0x0000007F#32 := by
  unfold execWord at h
  split at h
  · next i hw =>
    have hi : i = .clear := by
      by_contra hi
      obtain ⟨-, -, hkept, -⟩ := exec_keeps_inputs hi h
      exact hlen hkept
    rw [eq_encode_of_decode hw, hi]
    rfl
  · injection h with h
    exact absurd (h ▸ illegalWord_len w s) hlen

/-- A register store that changes LEN is one to LEN in IDLE (42_control_and_host R185). -/
theorem storeReg_len {off : Nat} (hlen : (s.storeReg off w).len ≠ s.len) : s.status.phase = .idle ∧ off = 0x08 := by
  unfold State.storeReg at hlen
  split_ifs at hlen with hp hoff
  · exact ⟨hp, hoff⟩
  all_goals exact absurd rfl hlen

/-- A transaction that changes LEN is `HwReset`, the word of `CLEAR` or a write to LEN in IDLE (10_state R24). -/
theorem transact_len {x : Transaction} (h : transact x s = .next t) (hlen : t.len ≠ s.len) :
    x = .hwReset ∨ x = .regWrite 0x00 0x0000007F#32 ∨ s.status.phase = .idle ∧ ∃ v, x = .regWrite 0x08 v := by
  cases x with
  | hwReset => exact .inl rfl
  | regRead off =>
    simp only [transact] at h
    split at h
    · injection h with h
      exact absurd (h ▸ rfl) hlen
    · injection h
  | regWrite off w =>
    simp only [transact] at h
    split_ifs at h with halign hcmd
    · exact .inr (.inl (by rw [hcmd, execWord_len h hlen]))
    · injection h with h
      obtain ⟨hp, hoff⟩ := storeReg_len (h ▸ hlen)
      exact .inr (.inr ⟨hp, w, by rw [hoff]⟩)
  | rawWrite a b | decWrite a b | keyWrite a b | seedWrite a b =>
    injection h with h
    exact absurd (h ▸ State.hostWrite_len ..) hlen
  | rawRead a | decRead a =>
    injection h with h
    exact absurd (h ▸ rfl) hlen

end Sys2Proof.Machine

open Sys2Proof Sys2Proof.Machine

/-- Settles O45, from the frame of each kind of command. -/
theorem commandsLeaveTheRestUnchanged : Obligations.CommandsLeaveTheRestUnchanged := by
  intro i s t h
  rcases command_kinds i with rfl | rfl | hi | hi
  · obtain rfl := exec_nop_frame h
    simp
  · rw [eq_clearAll_of_exec h]
    simp [State.byteAt_def, State.cells]
  · rw [(exec_cipher_frame hi h).1]
    refine ⟨rfl, fun _ => rfl, rfl, rfl, rfl, fun _ => ⟨rfl, rfl, rfl, rfl⟩, fun h1 h2 h3 => ?_, fun _ _ _ _ => rfl,
      fun h1 h2 h3 => ?_⟩ <;> simp [IsCipher, h1, h2, h3] at hi
  · rw [exec_container_frame hi h]
    refine ⟨rfl, fun _ => rfl, rfl, rfl, rfl, fun _ => ⟨rfl, rfl, rfl, rfl⟩, fun _ _ _ => ⟨rfl, fun _ => rfl⟩,
      fun h1 h2 h3 => ?_, fun _ _ _ _ => ⟨rfl, rfl⟩⟩
    simp [IsContainer, h1, h2, h3] at hi

/-- Settles O46: only the cipher commands write DEC, and their stages stay below LEN. -/
theorem noCommandWritesPastLen : Obligations.NoCommandWritesPastLen := by
  intro i s t h a ha
  by_cases hi : IsCipher i
  · exact (exec_cipher_frame hi h).2 a ha
  · obtain ⟨-, -, -, -, -, -, hdec, -⟩ := commandsLeaveTheRestUnchanged i s t h
    simp only [IsCipher, not_or] at hi
    obtain ⟨h1, h2, h3⟩ := hi
    exact (hdec h1 h2 h3).2 a

/-- Settles O47, by a case split on the transaction. -/
theorem lenIsLockedOutsideIdle : Obligations.LenIsLockedOutsideIdle := by
  intro s t h hlen
  cases hs : s.inbox with
  | nil =>
    simp only [step, serve, hs] at h
    injection h with h
    exact absurd (h ▸ rfl) hlen
  | cons x rest =>
    rw [step_eq_transact hs] at h
    refine ⟨rest, ?_⟩
    rcases transact_len h hlen with rfl | rfl | ⟨hp, v, rfl⟩
    · exact .inl rfl
    · exact .inr (.inl rfl)
    · exact .inr (.inr ⟨hp, v, rfl⟩)

/-- Settles O6, from the equations of the step, of a transaction and of a command word. -/
theorem stepRunsTheDecodedCommand : Obligations.StepRunsTheDecodedCommand := by
  intro s w i rest hs hw
  calc
    step s = transact (.regWrite 0x00 w) (s.takeInbox rest) := step_eq_transact hs
    _ = execWord w (s.takeInbox rest) := rfl
    _ = exec i (s.takeInbox rest) := by simp only [execWord, hw]

end

section
/-! PROOFS, 10_state. Noninterference: what the commands and the transactions do not read. A choice of state that is
hidden gives a view of a state; a flow is blind to what is hidden when its end, viewed, follows from its start,
viewed. -/

namespace Sys2Proof.Machine

/-! ### Views -/

/-- Which state a claim leaves out of sight. -/
structure Hidden where
  /-- The bytes of KEY. -/
  key : Bool
  /-- The bytes of XSEED. -/
  xseed : Bool
  /-- The flags CBC_DONE and XOR_DONE. -/
  done : Bool

variable {c : Cfg} {v : Hidden} {s t : State} {i : Instr} {f g : Flow}

/-- The state with what is hidden blanked. -/
def State.seen (v : Hidden) (s : State) : State :=
  { s with
    key := if v.key then [] else s.key
    xseed := if v.xseed then [] else s.xseed
    status := { s.status with
      cbcDone := if v.done then false else s.status.cbcDone
      xorDone := if v.done then false else s.status.xorDone } }

/-- What stands below a choice made already is not reached. -/
theorem ite_absorb {α : Type} (b : Bool) (x y z : α) : (if b then x else if b then y else z) = if b then x else z := by
  cases b <;> rfl

theorem seen_seen (v : Hidden) (s : State) : (s.seen v).seen v = s.seen v := by
  simp only [State.seen, ite_absorb]

/-- `s` with what is hidden taken from `t`. -/
def State.withHidden (v : Hidden) (s t : State) : State :=
  { s with
    key := if v.key then t.key else s.key
    xseed := if v.xseed then t.xseed else s.xseed
    status := { s.status with
      cbcDone := if v.done then t.status.cbcDone else s.status.cbcDone
      xorDone := if v.done then t.status.xorDone else s.status.xorDone } }

theorem withHidden_seen (v : Hidden) (s t : State) : (s.seen v).withHidden v t = s.withHidden v t := by
  simp only [State.seen, State.withHidden, ite_absorb]

theorem withHidden_self (v : Hidden) (s : State) : s.withHidden v s = s := by
  simp [State.withHidden]

/-- States with equal views differ in what is hidden alone. -/
theorem eq_withHidden_of_seen_eq (h : s.seen v = t.seen v) : t = s.withHidden v t :=
  calc
    t = t.withHidden v t := (withHidden_self v t).symm
    _ = (t.seen v).withHidden v t := (withHidden_seen v t t).symm
    _ = (s.seen v).withHidden v t := by rw [h]
    _ = s.withHidden v t := withHidden_seen v s t

/-- A view shows the bytes of every space that is not hidden. -/
theorem seen_byteAt {sp : Space} (hk : sp = .key → v.key = false) (hx : sp = .xseed → v.xseed = false) (a : Nat) :
    (s.seen v).byteAt sp a = s.byteAt sp a := by
  refine State.byteAt_congr (s := s) (t := s.seen v) ?_ rfl a
  cases sp with
  | raw => rfl
  | dec => rfl
  | key => simp [State.cells, State.seen, hk]
  | xseed => simp [State.cells, State.seen, hx]

theorem seen_byteAt_raw (a : Nat) : (s.seen v).byteAt .raw a = s.byteAt .raw a := rfl

theorem seen_memRead_dec (a n : Nat) : (s.seen v).memRead .dec a n = s.memRead .dec a n :=
  State.memRead_congr fun _ _ => rfl

theorem seen_cipherBlock (b : Nat) : (s.seen v).cipherBlock c b = s.cipherBlock c b :=
  State.memRead_congr fun _ _ => rfl

theorem seen_keyBytes (hk : v.key = false) : (s.seen v).keyBytes c = s.keyBytes c :=
  State.memRead_congr fun _ _ => seen_byteAt (fun _ => hk) (by simp) _

theorem seen_keystream (hx : v.xseed = false) (j : Nat) : (s.seen v).keystream j = s.keystream j :=
  seen_byteAt (by simp) (fun _ => hx) _

/-- The flags a cipher command drops are out of sight or dropped alike. -/
theorem seen_dropDone (cbc xor : Bool) : ((s.seen v).dropDone cbc xor).seen v = (s.dropDone cbc xor).seen v := by
  simp only [State.seen, State.dropDone, ite_absorb]
  cases v.done <;> rfl

theorem seen_memWrite_dec (a : Nat) (l : List Byte) :
    (s.seen v).memWrite .dec a l = (s.memWrite .dec a l).seen v := by
  induction l generalizing s a with
  | nil => rfl
  | cons b bs ih => exact ih (s := s.setByte .dec a b) (a + 1)

/-! ### Flows under a view -/

/-- The same end of a flow, at another state. -/
def Flow.map (g : State → State) : Flow → Flow
  | .running s => .running (g s)
  | .raised s => .raised (g s)

@[simp] theorem Flow.map_running (g : State → State) (s : State) : (Flow.running s).map g = .running (g s) := rfl

@[simp] theorem Flow.map_raised (g : State → State) (s : State) : (Flow.raised s).map g = .raised (g s) := rfl

/-- Flows with equal images end alike, at states with equal images. -/
theorem Flow.cases_of_map_eq {w : State → State} (h : f.map w = g.map w) :
    (∃ s t, f = .running s ∧ g = .running t ∧ w s = w t) ∨ (∃ s t, f = .raised s ∧ g = .raised t ∧ w s = w t) := by
  cases f with
  | running s =>
    cases g with
    | running t => injection h with h; exact .inl ⟨s, t, rfl, rfl, h⟩
    | raised t => nomatch h
  | raised s =>
    cases g with
    | running t => nomatch h
    | raised t => injection h with h; exact .inr ⟨s, t, rfl, rfl, h⟩

/-- The flow's end, viewed, follows from its start, viewed. -/
def Blind (v : Hidden) (cmd : State → Flow) : Prop :=
  ∀ s, (cmd (s.seen v)).map (State.seen v) = (cmd s).map (State.seen v)

theorem Blind.congr {cmd : State → Flow} (h : Blind v cmd) (hst : s.seen v = t.seen v) :
    (cmd s).map (State.seen v) = (cmd t).map (State.seen v) := by
  rw [← h s, hst, h t]

theorem Blind.andThen {cmd k : State → Flow} (h : Blind v cmd) (hk : Blind v k) :
    Blind v (fun s => (cmd s).andThen k) := by
  intro s
  obtain ⟨a, b, ha, hb, hab⟩ | ⟨a, b, ha, hb, hab⟩ := Flow.cases_of_map_eq (h s) <;> simp only [ha, hb]
  · exact hk.congr hab
  · exact congrArg Flow.raised hab

/-- A flow that neither reads nor writes what is hidden is blind to it. -/
theorem Blind.of_commutes {cmd : State → Flow} (h : ∀ s, cmd (s.seen v) = (cmd s).map (State.seen v)) :
    Blind v cmd := by
  intro s
  rw [h s]
  cases cmd s with
  | running t => exact congrArg Flow.running (seen_seen v t)
  | raised t => exact congrArg Flow.raised (seen_seen v t)

theorem Flow.andThen_commutes {k : State → Flow} (hk : ∀ s, k (s.seen v) = (k s).map (State.seen v)) (f : Flow) :
    (f.map (State.seen v)).andThen k = (f.andThen k).map (State.seen v) := by
  cases f with
  | running t => exact hk t
  | raised t => rfl

theorem unlessFault_seen {cmd : State → Flow} (h : Blind v cmd) (hst : s.seen v = t.seen v) :
    (unlessFault cmd s).seen v = (unlessFault cmd t).seen v := by
  have hp : s.status.phase = t.status.phase := congrArg (·.status.phase) hst
  have hc := h.congr hst
  unfold unlessFault
  rw [hp]
  split
  · exact hst
  · obtain ⟨a, b, ha, hb, hab⟩ | ⟨a, b, ha, hb, hab⟩ := Flow.cases_of_map_eq hc <;> rw [ha, hb] <;> exact hab

/-! ### The cipher commands -/

theorem cipherChecks_blind (c : Cfg) (w : Word) (cbc xor : Bool) : Blind v (cipherChecks c w cbc xor) := by
  intro s
  have hd : ((s.seen v).dropDone cbc xor).seen v = (s.dropDone cbc xor).seen v := seen_dropDone cbc xor
  have hr (e : ErrCause) (info : Word) : (((s.seen v).dropDone cbc xor).raise e info).seen v =
      ((s.dropDone cbc xor).raise e info).seen v := congrArg (·.raise e info) hd
  have h0 : ((s.seen v).raise .sequence w).seen v = (s.raise .sequence w).seen v :=
    congrArg (·.raise .sequence w) (seen_seen v s)
  simp only [cipherChecks, State.stop, apply_ite (Flow.map (State.seen v)), Flow.map_running, Flow.map_raised, hd, hr,
    h0]
  rfl

theorem cbcBlocks_seen (key : List Byte) (n b : Nat) (prev : List Byte) (s : State) :
    cbcBlocks c key n b prev (s.seen v) = (cbcBlocks c key n b prev s).seen v := by
  induction n generalizing b prev s with
  | zero => rfl
  | succ n ih => simp only [cbcBlocks, seen_cipherBlock, seen_memWrite_dec, ih]

/-- The CBC stage reads neither XSEED nor the flags (10_state R33, R37). -/
theorem cbcStage_blind (c : Cfg) (hk : v.key = false) : Blind v (cbcStage c) := by
  intro s
  have hpad (u : State) : (u.seen v).padOk c = u.padOk c := padOk_congr c fun _ => rfl
  have hd (u : State) : ((u.seen v).setCbcDone true).seen v = (u.setCbcDone true).seen v := by
    simp only [State.seen, State.setCbcDone, ite_absorb]
  have hr (u : State) : ((u.seen v).raise .badPadding 0#32).seen v = (u.raise .badPadding 0#32).seen v :=
    congrArg (·.raise .badPadding 0#32) (seen_seen v u)
  simp only [cbcStage, seen_keyBytes hk, cbcBlocks_seen, hpad, State.stop, apply_ite (Flow.map (State.seen v)),
    Flow.map_running, Flow.map_raised, hd, hr]

theorem xorBytesFrom_seen (hx : v.xseed = false) (n j : Nat) (s : State) :
    xorBytesFrom c n j (s.seen v) = (xorBytesFrom c n j s).seen v := by
  induction n generalizing j s with
  | zero => rfl
  | succ n ih =>
    simp only [xorBytesFrom, seen_keystream hx, seen_byteAt_raw]
    exact ih (j + 1) (s.setByte .dec j (s.byteAt .raw j ^^^ s.keystream (j - c.hdr)))

/-- The XOR stage reads neither KEY nor the flags (10_state R32, R37). -/
theorem xorStage_blind (c : Cfg) (hx : v.xseed = false) : Blind v (xorStage c) := by
  intro s
  have hd (u : State) : ((u.seen v).setXorDone true).seen v = (u.setXorDone true).seen v := by
    simp only [State.seen, State.setXorDone, ite_absorb]
  simp only [xorStage, Flow.map_running, xorBytesFrom_seen hx]
  exact congrArg Flow.running (hd _)

theorem cbcDecCmd_blind (c : Cfg) (hk : v.key = false) : Blind v (cbcDecCmd c) :=
  (cipherChecks_blind c _ _ _).andThen (cbcStage_blind c hk)

theorem xorExpCmd_blind (c : Cfg) (hx : v.xseed = false) : Blind v (xorExpCmd c) :=
  (cipherChecks_blind c _ _ _).andThen (xorStage_blind c hx)

theorem decryptCmd_blind (c : Cfg) (hk : v.key = false) (hx : v.xseed = false) : Blind v (decryptCmd c) :=
  ((cipherChecks_blind c _ _ _).andThen (cbcStage_blind c hk)).andThen (xorStage_blind c hx)

/-! ### The container commands -/

theorem headerStep_seen (c : Cfg) (s : State) : headerStep c (s.seen v) = (headerStep c s).map (State.seen v) := by
  have hm : (s.seen v).dropToc.magicField = s.dropToc.magicField := seen_memRead_dec (s := s.dropToc) 0 4
  simp only [headerStep, hm, apply_ite (Flow.map (State.seen v))]
  rfl

theorem entryStep_seen (s : State) : entryStep (s.seen v) = (entryStep s).map (State.seen v) := by
  have hm (a n : Nat) : (s.seen v).pathField a n = s.pathField a n := seen_memRead_dec (a + 4) n
  simp only [entryStep, hm, apply_ite (Flow.map (State.seen v))]
  rfl

theorem nextCmd_seen (s : State) : nextCmd (s.seen v) = (nextCmd s).map (State.seen v) := by
  have he : entryStep (s.seen v).clearDescriptor = (entryStep s.clearDescriptor).map (State.seen v) :=
    entryStep_seen s.clearDescriptor
  simp only [nextCmd, he, apply_ite (Flow.map (State.seen v))]
  rfl

theorem scanEntries_seen (n : Nat) (s : State) : scanEntries n (s.seen v) = (scanEntries n s).map (State.seen v) := by
  induction n generalizing s with
  | zero => rfl
  | succ n ih =>
    have he : entryStep (s.seen v).clearDescriptor = (entryStep s.clearDescriptor).map (State.seen v) :=
      entryStep_seen s.clearDescriptor
    simp only [scanEntries_succ, he, Flow.andThen_commutes ih, apply_ite (Flow.map (State.seen v))]
    rfl

theorem scanCmd_seen (c : Cfg) (s : State) : scanCmd c (s.seen v) = (scanCmd c s).map (State.seen v) := by
  rw [scanCmd, headerStep_seen]
  refine Flow.andThen_commutes (fun u => ?_) _
  rw [show (u.seen v).toc = u.toc from rfl, scanEntries_seen]
  exact Flow.andThen_commutes (fun _ => rfl) _

/-! ### All commands -/

/-- Each command is blind to the key material of a stage it does not run, and every command to the flags
(10_state R32, R33, R37). -/
theorem commandFlow_blind (hi : i ≠ .clear) (hk : v.key = true → i ≠ .decrypt ∧ i ≠ .cbcDec)
    (hx : v.xseed = true → i ≠ .decrypt ∧ i ≠ .xorExp) : Blind v (commandFlow i) := by
  cases i with
  | nop => exact .of_commutes fun _ => rfl
  | decrypt =>
    exact decryptCmd_blind wde1 (Bool.eq_false_iff.2 fun h => (hk h).1 rfl) (Bool.eq_false_iff.2 fun h => (hx h).1 rfl)
  | cbcDec => exact cbcDecCmd_blind wde1 (Bool.eq_false_iff.2 fun h => (hk h).2 rfl)
  | xorExp => exact xorExpCmd_blind wde1 (Bool.eq_false_iff.2 fun h => (hx h).2 rfl)
  | parseHdr => exact .of_commutes (cmd := headerStep wde1) (headerStep_seen wde1)
  | next => exact .of_commutes nextCmd_seen
  | scan => exact .of_commutes (scanCmd_seen wde1)
  | clear => exact absurd rfl hi

/-- What the first outcome answers, the second answers, up to what is hidden. -/
def SameOutcome (v : Hidden) (o o' : Host.Outcome State Fault Refusal) : Prop :=
  ∀ s', o = .next s' → ∃ t', o' = .next t' ∧ s'.seen v = t'.seen v

theorem SameOutcome.next (h : s.seen v = t.seen v) : SameOutcome v (.next s) (.next t) := by
  intro s' hs'
  injection hs' with hs'
  exact ⟨t, rfl, hs' ▸ h⟩

theorem SameOutcome.refused (r r' : Refusal) : SameOutcome v (.refused r) (.refused r') :=
  fun _ h => by injection h

/-- What a change of state shows in a view follows from what its start shows. -/
theorem seen_congr {g : State → State} (hg : ∀ s, (g (s.seen v)).seen v = (g s).seen v) (h : s.seen v = t.seen v) :
    (g s).seen v = (g t).seen v := by
  rw [← hg s, h, hg t]

theorem exec_sameOutcome (h : s.seen v = t.seen v) (hk : v.key = true → i ≠ .decrypt ∧ i ≠ .cbcDec)
    (hx : v.xseed = true → i ≠ .decrypt ∧ i ≠ .xorExp) : SameOutcome v (exec i s) (exec i t) := by
  by_cases hi : i = .clear
  · subst hi
    exact .next (seen_congr (g := State.clearAll) (fun _ => rfl) h)
  · rw [exec_of_ne_clear hi, exec_of_ne_clear hi]
    exact .next (unlessFault_seen (commandFlow_blind hi hk hx) h)

/-! ### The transactions, with the key material hidden -/

/-- KEY and XSEED out of sight. -/
def Hidden.keys : Hidden := { key := true, xseed := true, done := false }

theorem execWord_sameOutcome {w : Word} (h : s.seen .keys = t.seen .keys)
    (hw : decode w ≠ .ok .decrypt ∧ decode w ≠ .ok .cbcDec ∧ decode w ≠ .ok .xorExp) :
    SameOutcome .keys (execWord w s) (execWord w t) := by
  obtain ⟨hd, hc, hx⟩ := hw
  unfold execWord
  cases hi : decode w with
  | ok i =>
    have hne (j : Instr) (hj : decode w ≠ .ok j) : i ≠ j := fun hij => hj (hij ▸ hi)
    exact exec_sameOutcome h (fun _ => ⟨hne _ hd, hne _ hc⟩) fun _ => ⟨hne _ hd, hne _ hx⟩
  | error e => exact .next (unlessFault_seen (.of_commutes fun _ => rfl) h)

theorem storeReg_seen (off : Nat) (w : Word) (s : State) :
    (s.seen v).storeReg off w = (s.storeReg off w).seen v := by
  simp only [State.storeReg, apply_ite (State.seen v)]
  rfl

/-- A host write lands in a space that is hidden, or alike in both states. -/
theorem hostWrite_seen_keys (sp : Space) (a : Nat) (b : Byte) (s : State) :
    ((s.seen .keys).hostWrite wde1 sp a b).seen .keys = (s.hostWrite wde1 sp a b).seen .keys := by
  simp only [State.hostWrite, apply_ite (State.seen .keys)]
  cases sp <;> rfl

/-- No register and no byte that a host reads shows KEY or XSEED (20_memory R76). -/
theorem transact_sameOutcome {x : Transaction} (h : s.seen .keys = t.seen .keys)
    (hx : ∀ w, x = .regWrite 0x00 w → decode w ≠ .ok .decrypt ∧ decode w ≠ .ok .cbcDec ∧ decode w ≠ .ok .xorExp) :
    SameOutcome .keys (transact x s) (transact x t) := by
  cases x with
  | hwReset => exact .next (seen_congr (g := State.hwReset) (fun _ => rfl) h)
  | regRead off =>
    simp only [transact]
    split
    · exact .next (seen_congr (g := fun s => s.answer (.word (s.regValue off))) (fun _ => rfl) h)
    · exact .refused _ _
  | regWrite off w =>
    simp only [transact]
    split_ifs with halign hcmd
    · exact execWord_sameOutcome h (hx w (by rw [hcmd]))
    · refine .next (seen_congr (g := fun s => s.storeReg off w) (fun s => ?_) h)
      rw [storeReg_seen, seen_seen]
    · exact .refused _ _
  | rawWrite a b | decWrite a b | keyWrite a b | seedWrite a b =>
    exact .next (seen_congr (g := fun s => s.hostWrite wde1 _ a b) (hostWrite_seen_keys _ a b) h)
  | rawRead a => exact .next (seen_congr (g := fun s => s.answer (.byte (s.hostRead wde1 .raw a))) (fun _ => rfl) h)
  | decRead a => exact .next (seen_congr (g := fun s => s.answer (.byte (s.hostRead wde1 .dec a))) (fun _ => rfl) h)

theorem step_sameOutcome (h : s.seen .keys = t.seen .keys)
    (hx : ∀ w rest, s.inbox = .regWrite 0x00 w :: rest →
      decode w ≠ .ok .decrypt ∧ decode w ≠ .ok .cbcDec ∧ decode w ≠ .ok .xorExp) :
    SameOutcome .keys (step s) (step t) := by
  have hin : s.inbox = t.inbox := show (s.seen .keys).inbox = (t.seen .keys).inbox by rw [h]
  cases hs : s.inbox with
  | nil =>
    simp only [step, serve, hs, ← hin]
    exact .next h
  | cons x rest =>
    rw [step_eq_transact hs, step_eq_transact (hin ▸ hs)]
    exact transact_sameOutcome (seen_congr (g := fun s => s.takeInbox rest) (fun _ => rfl) h)
      fun w hw => hx w rest (by rw [hs, hw])

/-! ### The relations of the statements, as equal views -/

/-- The flags out of sight. -/
def Hidden.flags : Hidden := { key := false, xseed := false, done := true }

/-- XSEED alone out of sight. -/
def Hidden.seedOnly : Hidden := { key := false, xseed := true, done := false }

/-- KEY alone out of sight. -/
def Hidden.keyOnly : Hidden := { key := true, xseed := false, done := false }

theorem sameButKeys_iff : SameButKeys s t ↔ s.seen .keys = t.seen .keys := by
  refine ⟨fun h => ?_, fun h => eq_withHidden_of_seen_eq h⟩
  rw [h]
  rfl

theorem sameButDone_iff : SameButDone s t ↔ s.seen .flags = t.seen .flags := by
  refine ⟨fun h => ?_, fun h => eq_withHidden_of_seen_eq h⟩
  rw [h]
  rfl

end Sys2Proof.Machine

open Sys2Proof Sys2Proof.Machine

/-- Settles O48: every command is blind to the flags. -/
theorem doneFlagsGateNothing : Obligations.DoneFlagsGateNothing := by
  intro i s t s' hst hs
  obtain ⟨t', ht, h⟩ := exec_sameOutcome (sameButDone_iff.1 hst) (i := i) nofun nofun s' hs
  exact ⟨t', ht, sameButDone_iff.2 h⟩

/-- Settles O49: every transaction but a cipher command is blind to the key material. -/
theorem keyMaterialIsNotReadBack : Obligations.KeyMaterialIsNotReadBack := by
  intro s t s' hst hs hx
  obtain ⟨t', ht, h⟩ := step_sameOutcome (sameButKeys_iff.1 hst) hx s' hs
  exact ⟨t', ht, sameButKeys_iff.2 h⟩

/-- Settles O50: the CBC stage is blind to XSEED and the XOR stage to KEY, and neither command writes them. -/
theorem eachStageReadsItsOwnKeyMaterial : Obligations.EachStageReadsItsOwnKeyMaterial := by
  refine ⟨fun s s' m hs => ?_, fun s s' m hs => ?_⟩
  · obtain ⟨t', ht, h⟩ := exec_sameOutcome (s := s) (t := { s with xseed := m }) (v := .seedOnly) (i := .cbcDec) rfl
      nofun (fun _ => ⟨nofun, nofun⟩) s' hs
    obtain ⟨-, hm, -⟩ := exec_keeps_inputs (by decide) ht
    rw [ht, eq_withHidden_of_seen_eq h]
    simp [State.withHidden, Hidden.seedOnly, hm]
  · obtain ⟨t', ht, h⟩ := exec_sameOutcome (s := s) (t := { s with key := m }) (v := .keyOnly) (i := .xorExp) rfl
      (fun _ => ⟨nofun, nofun⟩) nofun s' hs
    obtain ⟨hm, -⟩ := exec_keeps_inputs (by decide) ht
    rw [ht, eq_withHidden_of_seen_eq h]
    simp [State.withHidden, Hidden.keyOnly, hm]

end

section
/-! PROOFS, 10_state. The word of STATUS and the reset values. -/

namespace Sys2Proof.Machine

theorem Phase.code_lt (p : Phase) : p.code < 4 := by
  cases p <;> decide

/-- The sum of R23 fits the word. -/
theorem Status.word_toNat (st : Status) :
    st.word.toNat = st.phase.code + 4 * st.evalid.toNat + 8 * st.cbcDone.toNat + 16 * st.xorDone.toNat +
      256 * st.err.toNat := by
  have hp := st.phase.code_lt
  have he := st.evalid.toNat_le
  have hc := st.cbcDone.toNat_le
  have hx := st.xorDone.toNat_le
  have herr := st.err.isLt
  rw [Status.word, BitVec.toNat_ofNat, Nat.mod_eq_of_lt (by omega)]

/-- A bit of a word is the flag that its number's binary digit is. -/
theorem getLsbD_eq_of_digit {w : Word} {k : Nat} {b : Bool} (h : w.toNat / 2 ^ k % 2 = b.toNat) : w.getLsbD k = b := by
  rw [BitVec.getLsbD, Nat.testBit_eq_decide_div_mod_eq, h]
  cases b <;> rfl

end Sys2Proof.Machine

open Sys2Proof Sys2Proof.Machine

/-- Settles O11: STATUS is a number written in mixed radix, so each field is a quotient and a remainder of the sum of
R23. -/
theorem statusWordFields : Obligations.StatusWordFields := by
  refine ⟨rfl, rfl, rfl, rfl, fun st => ?_⟩
  have hw := st.word_toNat
  have hp := st.phase.code_lt
  have he := st.evalid.toNat_le
  have hc := st.cbcDone.toNat_le
  have hx := st.xorDone.toNat_le
  have herr := st.err.isLt
  refine ⟨?_, ?_, getLsbD_eq_of_digit ?_, getLsbD_eq_of_digit ?_, getLsbD_eq_of_digit ?_, ?_, ?_, ?_⟩
  · simpa only [Bool.toNat, Bool.cond_eq_ite] using hw
  · rw [BitVec.extractLsb_toNat, Nat.shiftRight_eq_div_pow]
    omega
  · omega
  · omega
  · omega
  all_goals
    refine BitVec.eq_of_toNat_eq ?_
    rw [BitVec.extractLsb_toNat, Nat.shiftRight_eq_div_pow]
    simp
    omega

/-- Settles O17: every register of the reset state is written out as 0, and KEY and XSEED list no byte. -/
theorem resetSetsEveryRegisterToZero : Obligations.ResetSetsEveryRegisterToZero := by
  refine ⟨by decide, rfl, rfl, rfl, rfl, rfl, rfl, rfl, rfl, rfl, rfl, rfl, rfl, rfl, rfl, rfl, rfl, rfl, rfl,
    fun i => ?_, fun i => ?_⟩ <;> rfl

end

section
/-! PROOFS, 20_memory. A command's outcome read as the end of its flow; the three cipher commands as one flow, with what
it needs to succeed and what it then leaves in DEC; the fields that the container commands read out of DEC. -/

namespace Sys2Proof.Machine

variable {c : Cfg} {s t u : State} {i : Instr} {w : Word} {cbc xor : Bool}

/-! ### From an outcome to the flow -/

/-- Stated between functions: at a state, unification would unfold the checks and their constants. -/
theorem commandFlow_parseHdr : commandFlow .parseHdr = headerStep wde1 := rfl

theorem commandFlow_ends (i : Instr) (s : State) : (commandFlow i s).Ends fun _ => True := by
  rcases command_kinds i with rfl | rfl | hi | hi
  · exact .running trivial
  · exact .running trivial
  · exact (commandFlow_cipher_ends hi s).mono fun _ _ => trivial
  · exact (commandFlow_container_ends hi s).mono fun _ _ => trivial

/-- Outside FAULT a command answers the end of its flow, or error entry (00_scope R11, 60_exceptions R240). -/
theorem exec_cases (hi : i ≠ .clear) (hs : s.status.phase ≠ .fault) (h : exec i s = .next t) :
    commandFlow i s = .running t ∨ ∃ u e info, t = State.raise u e info := by
  rw [eq_unlessFault_of_exec hi h, unlessFault_run hs]
  have hend := commandFlow_ends i s
  generalize commandFlow i s = f at hend
  cases hend with
  | running => exact .inl rfl
  | raised _ e info => exact .inr ⟨_, e, info, rfl⟩

/-- A command that does not end in FAULT ran to its end. -/
theorem running_of_exec (hi : i ≠ .clear) (h : exec i s = .next t) (ht : t.status.phase ≠ .fault) :
    commandFlow i s = .running t := by
  have hs : s.status.phase ≠ .fault := fun hs => ht (by rwa [eq_unlessFault_of_exec hi h, unlessFault_fault hs])
  obtain hr | ⟨u, e, info, rfl⟩ := exec_cases hi hs h
  · exact hr
  · exact absurd rfl ht

theorem exec_of_running (hi : i ≠ .clear) (hs : s.status.phase ≠ .fault) (h : commandFlow i s = .running t) :
    exec i s = .next t := by
  rw [exec_of_ne_clear hi, unlessFault_run hs, h, Flow.state_running]

/-! ### What the stages of a cipher command read -/

/-- `t` agrees with `s` in all that the stages of a cipher command read (40_cipher_commands R113, R117). -/
structure SameInputs (s t : State) : Prop where
  /-- The bytes of RAW. -/
  raw : ∀ a, t.byteAt .raw a = s.byteAt .raw a
  /-- The bytes of KEY. -/
  key : ∀ a, t.byteAt .key a = s.byteAt .key a
  /-- The bytes of XSEED. -/
  xseed : ∀ a, t.byteAt .xseed a = s.byteAt .xseed a
  /-- LEN, where the XOR stage ends. -/
  len : t.len = s.len
  /-- XLEN, the period of the keystream. -/
  xlen : t.xlen = s.xlen

theorem sameInputs_dropDone (s : State) (cbc xor : Bool) : SameInputs s (s.dropDone cbc xor) :=
  ⟨fun _ => rfl, fun _ => rfl, fun _ => rfl, rfl, rfl⟩

theorem SameInputs.cipherBlock (h : SameInputs s t) (b : Nat) : t.cipherBlock c b = s.cipherBlock c b :=
  State.memRead_congr fun _ _ => h.raw _

theorem SameInputs.keyBytes (h : SameInputs s t) : t.keyBytes c = s.keyBytes c :=
  State.memRead_congr fun _ _ => h.key _

theorem SameInputs.prevBlock (h : SameInputs s t) (b : Nat) : prevBlock c t b = prevBlock c s b := by
  cases b with
  | zero => rfl
  | succ b => exact h.cipherBlock b

theorem SameInputs.cbcByte (h : SameInputs s t) : cbcByte c t = cbcByte c s := by
  funext x
  simp only [Machine.cbcByte, plainBlock, h.keyBytes, h.cipherBlock, h.prevBlock]

theorem SameInputs.xorByte (h : SameInputs s t) (x : Nat) : xorByte c t x = xorByte c s x := by
  simp only [Machine.xorByte, State.keystream, h.raw, h.xseed, h.xlen]

/-! ### The cipher commands as one flow -/

/-- A stage that only some of the commands run. -/
def stageIf (b : Bool) (k : State → Flow) (s : State) : Flow := if b then k s else .running s

/-- The cipher command that has a CBC stage if `cbc`, and an XOR stage if `xor` (40_cipher_commands R116, R119, R120). -/
def cipherFlow (c : Cfg) (w : Word) (cbc xor : Bool) (s : State) : Flow :=
  ((cipherChecks c w cbc xor s).andThen (stageIf cbc (cbcStage c))).andThen (stageIf xor (xorStage c))

theorem Flow.andThen_running_right (f : Flow) : f.andThen .running = f := by
  cases f <;> rfl

theorem decryptCmd_eq_cipherFlow (c : Cfg) : decryptCmd c = cipherFlow c (encode .decrypt) true true := rfl

theorem cbcDecCmd_eq_cipherFlow (c : Cfg) : cbcDecCmd c = cipherFlow c (encode .cbcDec) true false :=
  funext fun _ => (Flow.andThen_running_right _).symm

theorem xorExpCmd_eq_cipherFlow (c : Cfg) : xorExpCmd c = cipherFlow c (encode .xorExp) false true :=
  funext fun _ => congrArg (Flow.andThen · (xorStage c)) (Flow.andThen_running_right _).symm

theorem commandFlow_eq_cipherFlow (hi : IsCipher i) :
    ∃ cbc xor, commandFlow i = cipherFlow wde1 (encode i) cbc xor := by
  obtain rfl | rfl | rfl := hi
  · exact ⟨true, true, decryptCmd_eq_cipherFlow wde1⟩
  · exact ⟨true, false, cbcDecCmd_eq_cipherFlow wde1⟩
  · exact ⟨false, true, xorExpCmd_eq_cipherFlow wde1⟩

/-! ### What a cipher command that succeeds leaves -/

/-- The entry checks pass, and so does the padding check of a command that makes it (40_cipher_commands R112, R115). -/
def CipherSucceeds (c : Cfg) (cbc xor : Bool) (s : State) : Prop :=
  CipherReady c xor s ∧ (cbc = true → ValidPadding c.blk c.hdr (cbcByte c s))

/-- Byte `x` of DEC after the stages: the header region decrypted by the CBC stage, the remainder by the XOR stage, the
old byte elsewhere (40_cipher_commands R124). -/
def cipherOutput (c : Cfg) (cbc xor : Bool) (s : State) (x : Nat) : Byte :=
  if cbc = true ∧ x < c.hdr then cbcByte c s x
  else if xor = true ∧ c.hdr ≤ x ∧ x < s.len.toNat then xorByte c s x
  else s.byteAt .dec x

/-- `t` is what the stages leave of `s`: their bytes in DEC and their flags set (40_cipher_commands R124, 10_state
R37). -/
structure CipherDone (c : Cfg) (cbc xor : Bool) (s t : State) : Prop where
  /-- Everything but DEC and the flags is as it was. -/
  frame : t = { s with
    dec := t.dec
    status := { s.status with cbcDone := cbc || s.status.cbcDone, xorDone := xor || s.status.xorDone } }
  /-- Every byte of DEC. -/
  bytes : ∀ x, t.byteAt .dec x = cipherOutput c cbc xor s x

theorem CipherDone.status_eq (h : CipherDone c cbc xor s t) :
    t.status = { s.status with cbcDone := cbc || s.status.cbcDone, xorDone := xor || s.status.xorDone } := by
  rw [h.frame]

/-- No stage writes what a stage reads: DEC and the flags are no inputs. -/
theorem CipherDone.sameInputs (h : CipherDone c cbc xor s t) : SameInputs s t := by
  rw [h.frame]
  exact ⟨fun _ => rfl, fun _ => rfl, fun _ => rfl, rfl, rfl⟩

theorem CipherDone.refl (c : Cfg) (s : State) : CipherDone c false false s s :=
  ⟨rfl, fun _ => by simp [cipherOutput]⟩

/-- The XOR stage after the CBC stage: they write apart, and neither reads what the other writes. -/
theorem CipherDone.trans (h : CipherDone c cbc false s t) (h' : CipherDone c false xor t u) :
    CipherDone c cbc xor s u where
  frame := by
    rw [h'.frame, h.frame]
    simp
  bytes x := by
    have ht : t.byteAt .dec x = if cbc = true ∧ x < c.hdr then cbcByte c s x else s.byteAt .dec x := by
      simpa [cipherOutput] using h.bytes x
    have hu : u.byteAt .dec x =
        if xor = true ∧ c.hdr ≤ x ∧ x < s.len.toNat then xorByte c s x else t.byteAt .dec x := by
      simpa [cipherOutput, h.sameInputs.len, h.sameInputs.xorByte] using h'.bytes x
    rw [hu, ht, cipherOutput]
    split_ifs with hxor hcbc
    · omega
    · rfl
    · rfl
    · rfl

/-- A flag that is dropped at entry is set again at the end (10_state R37). -/
theorem CipherDone.of_dropDone (h : CipherDone c cbc xor (s.dropDone cbc xor) t) : CipherDone c cbc xor s t where
  frame := by
    rw [h.frame]
    cases cbc <;> cases xor <;> rfl
  bytes x := by
    have hin := sameInputs_dropDone s cbc xor
    rw [h.bytes x, cipherOutput, hin.cbcByte, hin.xorByte, State.dropDone_len, State.byteAt_dropDone, cipherOutput]

theorem stageIf_cbcStage_cases (hw : c.WellFormed) (ht : c.BlockTotal) (cbc : Bool) (s : State) :
    ((cbc = true → ValidPadding c.blk c.hdr (cbcByte c s)) ∧
      ∃ t, CipherDone c cbc false s t ∧ stageIf cbc (cbcStage c) s = .running t) ∨
    (¬(cbc = true → ValidPadding c.blk c.hdr (cbcByte c s)) ∧
      ∃ u, stageIf cbc (cbcStage c) s = .raised (State.raise u .badPadding 0#32)) := by
  cases cbc with
  | false => exact .inl ⟨nofun, s, .refl c s, rfl⟩
  | true =>
    obtain ⟨t, hsame, hdec, ⟨hv, h⟩ | ⟨hv, h⟩⟩ := cbcStage_cases hw ht s
    · refine .inl ⟨fun _ => hv, t.setCbcDone true, ⟨?_, fun x => ?_⟩, h⟩
      · rw [hsame]
        rfl
      · rw [State.byteAt_setCbcDone, hdec x]
        simp [cipherOutput]
    · exact .inr ⟨fun hv' => hv (hv' rfl), t, h⟩

theorem stageIf_xorStage_spec (c : Cfg) (xor : Bool) (s : State) :
    ∃ t, CipherDone c false xor s t ∧ stageIf xor (xorStage c) s = .running t := by
  cases xor with
  | false => exact ⟨s, .refl c s, rfl⟩
  | true =>
    obtain ⟨t, hsame, hdec, h⟩ := xorStage_spec c s
    refine ⟨t.setXorDone true, ⟨?_, fun x => ?_⟩, h⟩
    · rw [hsame]
      rfl
    · rw [State.byteAt_setXorDone, hdec x]
      simp [cipherOutput]

/-- A cipher command succeeds, leaving the output of its stages, or ends in error entry (40_cipher_commands R124). -/
theorem cipherFlow_cases (hw : c.WellFormed) (ht : c.BlockTotal) (w : Word) (cbc xor : Bool) (s : State) :
    (CipherSucceeds c cbc xor s ∧ ∃ t, CipherDone c cbc xor s t ∧ cipherFlow c w cbc xor s = .running t) ∨
    (¬CipherSucceeds c cbc xor s ∧ ∃ u e info, cipherFlow c w cbc xor s = .raised (State.raise u e info)) := by
  have hin := sameInputs_dropDone s cbc xor
  rw [cipherFlow, CipherSucceeds]
  by_cases hr : CipherReady c xor s
  · rw [cipherChecks_ready hr, Flow.andThen_running]
    obtain ⟨hv, t, hst, h⟩ | ⟨hv, u, h⟩ := stageIf_cbcStage_cases hw ht cbc (s.dropDone cbc xor) <;>
      rw [hin.cbcByte] at hv <;> rw [h]
    · obtain ⟨u, htu, h'⟩ := stageIf_xorStage_spec c xor t
      exact .inl ⟨⟨hr, hv⟩, u, (hst.trans htu).of_dropDone, h'⟩
    · exact .inr ⟨fun hs => hv hs.2, u, _, _, rfl⟩
  · refine .inr ⟨fun hs => hr hs.1, ?_⟩
    obtain ⟨hr', -⟩ | ⟨-, h⟩ | ⟨-, -, h⟩ | ⟨-, -, -, -, h⟩ := cipherChecks_cases c w cbc xor s
    · exact absurd hr' hr
    all_goals rw [h]; exact ⟨_, _, _, rfl⟩

theorem cipherFlow_running (hw : c.WellFormed) (ht : c.BlockTotal) (h : cipherFlow c w cbc xor s = .running t) :
    CipherSucceeds c cbc xor s ∧ CipherDone c cbc xor s t := by
  obtain ⟨hs, u, hu, h'⟩ | ⟨-, u, e, info, h'⟩ := cipherFlow_cases hw ht w cbc xor s <;> rw [h'] at h
  · injection h with h
    exact ⟨hs, h ▸ hu⟩
  · exact nomatch h

theorem cipherFlow_of_succeeds (hw : c.WellFormed) (ht : c.BlockTotal) (w : Word) (hs : CipherSucceeds c cbc xor s) :
    ∃ t, CipherDone c cbc xor s t ∧ cipherFlow c w cbc xor s = .running t := by
  obtain ⟨-, h⟩ | ⟨hn, -⟩ := cipherFlow_cases hw ht w cbc xor s
  · exact h
  · exact absurd hs hn

/-! ### A second run -/

/-- What the checks look at is unchanged by a run, so they pass again. -/
theorem CipherDone.succeeds (h : CipherDone c cbc xor s t) (hs : CipherSucceeds c cbc xor s) :
    CipherSucceeds c cbc xor t := by
  obtain ⟨⟨hphase, hlen, hxlen, hhdr⟩, hpad⟩ := hs
  have hin := h.sameInputs
  refine ⟨⟨?_, ?_, ?_, ?_⟩, ?_⟩
  · rwa [h.status_eq]
  · rwa [hin.len]
  · rwa [hin.xlen]
  · rwa [hin.len]
  · rwa [hin.cbcByte]

/-- A second run finds its flags set already. -/
theorem CipherDone.frame_again (h : CipherDone c cbc xor s t) (h' : CipherDone c cbc xor t u) :
    u = { t with dec := u.dec } := by
  have hflags : { t.status with cbcDone := cbc || t.status.cbcDone, xorDone := xor || t.status.xorDone } = t.status := by
    rw [h.status_eq]
    simp
  have hu := h'.frame
  rwa [hflags] at hu

/-- A second run writes the bytes that stand in DEC already: they depend on the inputs alone (20_memory R68). -/
theorem CipherDone.bytes_again (h : CipherDone c cbc xor s t) (h' : CipherDone c cbc xor t u) (x : Nat) :
    u.byteAt .dec x = t.byteAt .dec x := by
  have hin := h.sameInputs
  rw [h'.bytes x, cipherOutput, hin.cbcByte, hin.xorByte, hin.len, h.bytes x, cipherOutput]
  split_ifs <;> rfl

/-! ### What the container commands read out of DEC -/

/-- The three numbers that a header step latches (41_container_commands R141, R142). -/
structure HeaderLatched (s t : State) : Prop where
  /-- COUNT. -/
  count : t.toc.count = s.be32 .dec 4
  /-- TABOFF. -/
  tabOff : t.toc.tabOff = s.be32 .dec 8
  /-- DATAOFF. -/
  dataOff : t.toc.dataOff = s.be32 .dec 12

theorem headerLatched_latched (s : State) : HeaderLatched s (latched s) :=
  ⟨State.be32_dropToc .., State.be32_dropToc .., State.be32_dropToc ..⟩

theorem headerStep_latches (h : headerStep c s = .running t) : HeaderLatched s t := by
  obtain ⟨-, rfl⟩ := headerStep_running h
  obtain ⟨hcount, htab, hdata⟩ := headerLatched_latched s
  exact ⟨hcount, htab, hdata⟩

/-- The loop of SCAN moves the cursor and the index, and leaves the three numbers (41_container_commands R156). -/
theorem scanCmd_latches (h : scanCmd c s = .running t) : HeaderLatched s t := by
  obtain ⟨u, hu, h⟩ := Flow.andThen_eq_running h
  obtain ⟨v, hv, h⟩ := Flow.andThen_eq_running h
  injection h with h
  obtain ⟨hcount, htab, hdata⟩ := headerStep_latches hu
  have huv := scanEntries_running hv
  unfold SameButCursor at huv
  rw [← h, huv]
  exact ⟨hcount, htab, hdata⟩

/-- The three numbers of a yielded entry, read at CUR (41_container_commands R143, R147). -/
structure EntryRead (s t : State) : Prop where
  /-- E_PATHLEN. -/
  pathLen : t.desc.pathLen = s.be32 .dec s.toc.cur.toNat
  /-- E_OFF. -/
  off : t.desc.off = s.be32 .dec (s.toc.cur.toNat + 4 + (s.be32 .dec s.toc.cur.toNat).toNat)
  /-- E_LEN. -/
  len : t.desc.len = s.be32 .dec (s.toc.cur.toNat + 8 + (s.be32 .dec s.toc.cur.toNat).toNat)

theorem entryStep_reads (h : entryStep s = .running t) : EntryRead s t := by
  obtain ⟨-, h'⟩ | ⟨-, h'⟩ := entryStep_cases s <;> rw [h'] at h
  · injection h with h
    rw [← h]
    exact ⟨by simp [State.plenField], rfl, rfl⟩
  · exact nomatch h

/-- `NEXT` sets EVALID on the path through `EntryStep` alone (41_container_commands R146). -/
theorem nextCmd_reads (h : nextCmd s = .running t) (hv : t.status.evalid = true) : EntryRead s t := by
  simp only [nextCmd] at h
  split_ifs at h
  · exact nomatch h
  · injection h with h
    rw [← h] at hv
    exact nomatch hv
  · injection h with h
    rw [← h] at hv
    exact nomatch hv
  · obtain ⟨hlen, hoff, hsize⟩ := entryStep_reads h
    simp only [State.be32_clearDescriptor, State.clearDescriptor_toc] at hlen hoff hsize
    exact ⟨hlen, hoff, hsize⟩

end Sys2Proof.Machine

open Sys2Proof Sys2Proof.Machine

/-- Settles O29: the output of the stages depends on RAW, the key material, LEN and XLEN, and a successful command writes
none of them. -/
theorem cipherCommandsAreIdempotent : Obligations.CipherCommandsAreIdempotent := by
  intro i s t hi h hidle
  have hne : i ≠ .clear := by rintro rfl; simp at hi
  have hphase : t.status.phase ≠ .fault := by simp [hidle]
  obtain ⟨cbc, xor, hflow⟩ := commandFlow_eq_cipherFlow hi
  have hrun := running_of_exec hne h hphase
  rw [hflow] at hrun
  obtain ⟨hs, hst⟩ := cipherFlow_running wde1_wellFormed wde1_blockTotal hrun
  obtain ⟨u, htu, hagain⟩ := cipherFlow_of_succeeds wde1_wellFormed wde1_blockTotal (encode i) (hst.succeeds hs)
  rw [← hflow] at hagain
  exact ⟨u, exec_of_running hne hphase hagain, hst.frame_again htu, hst.bytes_again htu⟩

/-- Settles O53: `BE32` is the sum of R62, and each of the six registers holds a `BE32` of DEC. -/
theorem containerNumbersAreBigEndian : Obligations.ContainerNumbersAreBigEndian := by
  intro s sum cu
  have hsum : ∀ a, (s.be32 .dec a).toNat = sum a := s.be32_toNat .dec
  refine ⟨hsum, fun t _ h hiter => ?_, fun t hs h hv => ?_⟩
  · have hphase : t.status.phase ≠ .fault := by simp [hiter]
    have hread : HeaderLatched s t := by
      obtain h | h := h
      · have hrun := running_of_exec (by decide) h hphase
        rw [commandFlow_parseHdr] at hrun
        exact headerStep_latches hrun
      · exact scanCmd_latches (running_of_exec (by decide) h hphase)
    rw [hread.count, hread.tabOff, hread.dataOff]
    exact ⟨hsum 4, hsum 8, hsum 12⟩
  · have hread : EntryRead s t := by
      obtain hrun | ⟨u, e, info, rfl⟩ := exec_cases (by decide) hs h
      · exact nextCmd_reads hrun hv
      · exact nomatch hv
    rw [hread.pathLen, hread.off, hread.len, hsum, hsum, hsum]
    exact ⟨rfl, rfl, rfl⟩

end

section
/-! PROOFS, 30_encoding. The decoder as an inverse of the encoder, the illegal words as numbers, and the order of the
checks behind a word written to CMD. -/

namespace Sys2Proof.Machine

variable {s : State} {w : Word} {i : Instr} {e : DecodeError}

/-! ### The decoder -/

theorem wordOfCommand : ∀ i : Instr, Laws.WordOfCommand.Statement i
  | .nop => Laws.WordOfCommand.nop
  | .decrypt => Laws.WordOfCommand.decrypt
  | .cbcDec => Laws.WordOfCommand.cbcDec
  | .xorExp => Laws.WordOfCommand.xorExp
  | .parseHdr => Laws.WordOfCommand.parseHdr
  | .next => Laws.WordOfCommand.next
  | .scan => Laws.WordOfCommand.scan
  | .clear => Laws.WordOfCommand.clear

/-- No opcode stands in two rows of the map (30_encoding R93). -/
theorem lookup_opcodeMap_of_mem : ∀ row ∈ opcodeMap, opcodeMap.lookup row.1 = some row.2 := by decide

/-- R92 by fields. -/
theorem decode_eq_ok_iff : decode w = .ok i ↔ rsvz w = 0#24 ∧ (opc w, i) ∈ opcodeMap := by
  constructor
  · intro h
    obtain rfl := eq_encode_of_decode h
    exact (wordOfCommand i).2
  · rintro ⟨hrsvz, hmem⟩
    simp only [decode, if_pos hrsvz, lookup_opcodeMap_of_mem _ hmem]

@[simp] theorem decode_encode (i : Instr) : decode (encode i) = .ok i := decode_eq_ok_iff.2 (wordOfCommand i).2

/-- R92 by the whole word. -/
theorem decode_eq_ok_iff_eq_encode : decode w = .ok i ↔ w = encode i :=
  ⟨eq_encode_of_decode, fun h => h ▸ decode_encode i⟩

/-! ### The illegal words -/

theorem decode_error_iff : (∃ e, decode w = .error e) ↔ ¬∃ i, w = encode i := by
  simp only [← decode_eq_ok_iff_eq_encode]
  cases decode w <;> simp

/-- The words of the opcode map as numbers (30_encoding R93). -/
theorem eq_encode_iff_toNat :
    (∃ i, w = encode i) ↔ w.toNat ≤ 0x03 ∨ (0x10 ≤ w.toNat ∧ w.toNat ≤ 0x12) ∨ w.toNat = 0x7F := by
  constructor
  · rintro ⟨i, rfl⟩
    cases i <;> decide
  · intro h
    have hcases : w.toNat = 0x00 ∨ w.toNat = 0x01 ∨ w.toNat = 0x02 ∨ w.toNat = 0x03 ∨ w.toNat = 0x10 ∨ w.toNat = 0x11 ∨
        w.toNat = 0x12 ∨ w.toNat = 0x7F := by omega
    have hword : ∃ i, w.toNat = (encode i).toNat := by
      rcases hcases with h | h | h | h | h | h | h | h
      exacts [⟨.nop, h⟩, ⟨.decrypt, h⟩, ⟨.cbcDec, h⟩, ⟨.xorExp, h⟩, ⟨.parseHdr, h⟩, ⟨.next, h⟩, ⟨.scan, h⟩, ⟨.clear, h⟩]
    obtain ⟨i, hi⟩ := hword
    exact ⟨i, BitVec.eq_of_toNat_eq hi⟩

theorem rsvz_eq_zero_iff : rsvz w = 0#24 ↔ w.toNat ≤ 0xFF := by
  have hw := word_toNat w
  have hopc := (opc w).isLt
  rw [← BitVec.toNat_inj, BitVec.toNat_ofNat]
  omega

/-! ### A command word, check by check -/

theorem execWord_of_ok (h : decode w = .ok i) (s : State) : execWord w s = exec i s := by
  simp only [execWord, h]

theorem execWord_of_error (h : decode w = .error e) (s : State) : execWord w s = .next (illegalWord w s) := by
  simp only [execWord, h]

theorem illegalWord_run (h : s.status.phase ≠ .fault) (w : Word) : illegalWord w s = s.raise .illegalCmd w :=
  unlessFault_run h _

theorem illegalWord_fault (h : s.status.phase = .fault) (w : Word) : illegalWord w s = s := unlessFault_fault h _

/-- In FAULT every word but that of `CLEAR` is ignored, legal or not (30_encoding R97, 60_exceptions R241). -/
theorem execWord_fault (h : s.status.phase = .fault) (hw : w ≠ encode .clear) : execWord w s = .next s := by
  cases hd : decode w with
  | error e => rw [execWord_of_error hd, illegalWord_fault h]
  | ok i =>
    have hi : i ≠ .clear := by
      rintro rfl
      exact hw (eq_encode_of_decode hd)
    rw [execWord_of_ok hd, exec_of_ne_clear hi, unlessFault_fault h]

/-! ### A command in a wrong state -/

/-- The two entries "Sequence" of the table of 30_encoding R96. -/
theorem sequenceError_iff {p : Phase} :
    sequenceError i p = true ↔ (IsCipher i ∧ (p = .iter ∨ p = .ended)) ∨ (i = .next ∧ p = .idle) := by
  cases i <;> simp [sequenceError, IsCipher]

theorem cipherFlow_not_idle {c : Cfg} {cbc xor : Bool} (h : s.status.phase ≠ .idle) (w : Word) :
    cipherFlow c w cbc xor s = s.stop .sequence w := by
  rw [cipherFlow, cipherChecks, if_pos h]
  rfl

theorem nextCmd_idle (h : s.status.phase = .idle) : nextCmd s = s.stop .sequence (encode .next) := if_pos h

/-- The checks that 30_encoding R96 tabulates stand at the head of the commands' own pseudocode. -/
theorem commandFlow_sequenceError (h : sequenceError i s.status.phase = true) :
    commandFlow i s = s.stop .sequence (encode i) := by
  obtain ⟨hi, hp⟩ | ⟨rfl, hp⟩ := sequenceError_iff.1 h
  · obtain ⟨cbc, xor, hflow⟩ := commandFlow_eq_cipherFlow hi
    have hidle : s.status.phase ≠ .idle := by rcases hp with hp | hp <;> simp [hp]
    rw [hflow, cipherFlow_not_idle hidle]
  · exact nextCmd_idle hp

/-- A command in a wrong state raises `Sequence` and does nothing else (30_encoding R96). -/
theorem exec_sequenceError (h : sequenceError i s.status.phase = true) :
    exec i s = .next (s.raise .sequence (encode i)) := by
  have hi : i ≠ .clear := by
    rintro rfl
    exact nomatch h
  have hp : s.status.phase ≠ .fault := by
    intro hp
    simp [sequenceError_iff, hp] at h
  rw [exec_of_ne_clear hi, unlessFault_run hp, commandFlow_sequenceError h, State.stop, Flow.state_raised]

/-! ### The transaction that delivers a command -/

/-- A word is its own number in the opcode table (log 14). -/
theorem commandTransaction_toNat (w : Word) : commandTransaction 32 w.toNat = .regWrite 0x00 w := by
  rw [commandTransaction, tableBits, Nat.mod_eq_of_lt w.isLt, BitVec.ofNat_toNat, BitVec.setWidth_eq]

end Sys2Proof.Machine

open Sys2Proof Sys2Proof.Machine

/-- Settles O1, from the two forms of R92; the field of a word that the statement extracts is the decoder's own. -/
theorem decodeNamesExactlyOneCommand : Obligations.DecodeNamesExactlyOneCommand :=
  fun _ _ => ⟨decode_eq_ok_iff, decode_eq_ok_iff_eq_encode⟩

/-- Settles O4: the ranges are what the words of the opcode map leave of the numbers below 0x100, and a reserved bit
makes the number larger. -/
theorem illegalWordsRaiseIllegalCmd : Obligations.IllegalWordsRaiseIllegalCmd := by
  intro w s
  refine ⟨?_, fun ⟨e, he⟩ hs => ?_, fun ⟨e, he⟩ hs => ?_⟩
  · have hrsvz : w.extractLsb 31 8 = 0#24 ↔ w.toNat ≤ 0xFF := rsvz_eq_zero_iff
    rw [decode_error_iff, eq_encode_iff_toNat, ne_eq, hrsvz]
    omega
  · rw [execWord_of_error he, illegalWord_run hs]
  · rw [execWord_of_error he, illegalWord_fault hs]

/-- Settles O5, one check of R97 after the other. -/
theorem commandWordChecksInOrder : Obligations.CommandWordChecksInOrder := by
  intro w s
  split_ifs with hclear hfault
  · exact execWord_of_ok (decode_eq_ok_iff_eq_encode.2 hclear) s
  · exact execWord_fault hfault hclear
  · cases hd : decode w with
    | error e => rw [execWord_of_error hd, illegalWord_run hfault]
    | ok i =>
      rw [execWord_of_ok hd]
      dsimp only
      split_ifs with hseq
      · rw [exec_sequenceError hseq, eq_encode_of_decode hd]
      · rfl

/-- Settles O2. -/
theorem decodeOfEncodeIsTheCommand : Obligations.DecodeOfEncodeIsTheCommand := fun i _ => decode_encode i

/-- Settles O3: the eight words are those of the encoder. -/
theorem wordsOfTheOpcodeMapDecode : Obligations.WordsOfTheOpcodeMapDecode :=
  ⟨decode_encode .nop, decode_encode .decrypt, decode_encode .cbcDec, decode_encode .xorExp, decode_encode .parseHdr,
    decode_encode .next, decode_encode .scan, decode_encode .clear, by decide, by decide⟩

/-- Settles O7, from O6: the placed transaction writes the word of the command to CMD. -/
theorem stepRunsThePlacedCommand : Obligations.StepRunsThePlacedCommand := by
  intro s i
  have hinbox : (s.withFetchWord 32 (encode i).toNat).inbox = .regWrite 0x00 (encode i) :: s.inbox :=
    congrArg (· :: s.inbox) (commandTransaction_toNat (encode i))
  exact stepRunsTheDecodedCommand _ _ i s.inbox hinbox (decode_encode i)

end

section
/-! PROOFS, 40_cipher_commands. Every outcome of a cipher command at the hardware's own configuration; DECRYPT as one
stage after the other; what a byte of the output depends on. -/

namespace Sys2Proof.Machine

variable {c : Cfg} {s t u : State} {i : Instr} {w : Word} {cbc xor : Bool}

/-! ### The outcomes of the flow -/

/-- An operand out of its range raises `Config` (40_cipher_commands R112). -/
theorem cipherFlow_config (hidle : s.status.phase = .idle)
    (h : c.bufMax < s.len.toNat ∨ (xor = true ∧ ¬(1 ≤ s.xlen.toNat ∧ s.xlen.toNat ≤ c.xseedMax))) (w : Word)
    (cbc : Bool) : cipherFlow c w cbc xor s = (s.dropDone cbc xor).stop .config 0#32 := by
  have hout : ¬(s.len.toNat ≤ c.bufMax ∧ (xor = true → 1 ≤ s.xlen.toNat ∧ s.xlen.toNat ≤ c.xseedMax)) := by
    rintro ⟨hlen, hxlen⟩
    rcases h with h | ⟨hx, hn⟩
    · omega
    · exact hn (hxlen hx)
  rw [cipherFlow]
  obtain ⟨⟨-, hlen, hxlen, -⟩, -⟩ | ⟨hn, -⟩ | ⟨-, -, hc⟩ | ⟨-, hlen, hxlen, -⟩ := cipherChecks_cases c w cbc xor s
  · exact absurd ⟨hlen, hxlen⟩ hout
  · exact absurd hidle hn
  · rw [hc]
    rfl
  · exact absurd ⟨hlen, hxlen⟩ hout

/-- A package shorter than the header region raises `Truncated` where the operands are in range (40_cipher_commands
R112). -/
theorem cipherFlow_truncated (hidle : s.status.phase = .idle) (hlen : s.len.toNat ≤ c.bufMax)
    (hxlen : xor = true → 1 ≤ s.xlen.toNat ∧ s.xlen.toNat ≤ c.xseedMax) (hhdr : s.len.toNat < c.hdr) (w : Word)
    (cbc : Bool) : cipherFlow c w cbc xor s = (s.dropDone cbc xor).stop .truncated 0#32 := by
  rw [cipherFlow]
  obtain ⟨⟨-, -, -, h⟩, -⟩ | ⟨hn, -⟩ | ⟨-, h | ⟨hx, hn⟩, -⟩ | ⟨-, -, -, -, hc⟩ := cipherChecks_cases c w cbc xor s
  · omega
  · exact absurd hidle hn
  · omega
  · exact absurd (hxlen hx) hn
  · rw [hc]
    rfl

/-- `t` is what `BadPadding` leaves of `s`: the useless CBC output in the header region of DEC, not restored, the flags
dropped at entry, and error entry (40_cipher_commands R114, R120). -/
structure BadPaddingLeft (c : Cfg) (xor : Bool) (s t : State) : Prop where
  /-- Everything but DEC, the flags of the stages and the registers of error entry is as it was. -/
  frame : t = { (s.dropDone true xor).raise .badPadding 0#32 with dec := t.dec }
  /-- Every byte of DEC. -/
  bytes : ∀ x, t.byteAt .dec x = if x < c.hdr then cbcByte c s x else s.byteAt .dec x

theorem cipherFlow_badPadding (hw : c.WellFormed) (ht : c.BlockTotal) (hr : CipherReady c xor s)
    (hv : ¬ValidPadding c.blk c.hdr (cbcByte c s)) (w : Word) :
    ∃ t, BadPaddingLeft c xor s t ∧ cipherFlow c w true xor s = .raised t := by
  have hin := sameInputs_dropDone s true xor
  obtain ⟨u, hsame, hdec, h⟩ := cbcStage_cases hw ht (s.dropDone true xor)
  rw [hin.cbcByte] at hdec h
  obtain ⟨hv', -⟩ | ⟨-, h⟩ := h
  · exact absurd hv' hv
  · refine ⟨u.raise .badPadding 0#32, ⟨?_, hdec⟩, ?_⟩
    · rw [hsame]
      rfl
    · rw [cipherFlow, cipherChecks_ready hr, Flow.andThen_running, stageIf, if_pos rfl, h]
      rfl

/-! ### The outcomes of the commands -/

/-- The command runs the CBC stage if `cbc` and the XOR stage if `xor`. -/
structure RunsStages (i : Instr) (cbc xor : Bool) : Prop where
  /-- It is a cipher command. -/
  cipher : IsCipher i
  /-- Its pseudocode is the flow of those stages. -/
  flow : commandFlow i = cipherFlow wde1 (encode i) cbc xor

theorem cbcDec_runsStages : RunsStages .cbcDec true false := ⟨.inr (.inl rfl), cbcDecCmd_eq_cipherFlow wde1⟩

theorem xorExp_runsStages : RunsStages .xorExp false true := ⟨.inr (.inr rfl), xorExpCmd_eq_cipherFlow wde1⟩

theorem decrypt_runsStages : RunsStages .decrypt true true := ⟨.inl rfl, decryptCmd_eq_cipherFlow wde1⟩

theorem RunsStages.ne_clear (hi : RunsStages i cbc xor) : i ≠ .clear := by
  obtain ⟨rfl | rfl | rfl, -⟩ := hi <;> decide

/-- Outside FAULT the command answers where its stages' flow ends (00_scope R11). -/
theorem RunsStages.exec_eq (hi : RunsStages i cbc xor) (hs : s.status.phase ≠ .fault) :
    exec i s = .next (cipherFlow wde1 (encode i) cbc xor s).state := by
  rw [exec_of_ne_clear hi.ne_clear, unlessFault_run hs, hi.flow]

/-- The entry errors of 40_cipher_commands R112, for each of the three commands. -/
theorem RunsStages.entryErrors (hi : RunsStages i cbc xor) (s : State) : CipherEntryErrors i cbc xor s := by
  refine ⟨fun hfault => ?_, fun hparsed => ?_, fun hidle => ?_⟩
  · rw [exec_of_ne_clear hi.ne_clear, unlessFault_fault hfault]
  · exact exec_sequenceError (sequenceError_iff.2 (.inl ⟨hi.cipher, hparsed⟩))
  · have hs : s.status.phase ≠ .fault := by simp [hidle]
    rw [hi.exec_eq hs]
    refine ⟨fun h => ?_, fun hlen hxlen hhdr => ?_⟩
    · rw [cipherFlow_config hidle h, State.stop, Flow.state_raised]
    · rw [cipherFlow_truncated hidle hlen hxlen hhdr, State.stop, Flow.state_raised]

theorem RunsStages.exec_done (hi : RunsStages i cbc xor) (hs : CipherSucceeds wde1 cbc xor s) :
    ∃ t, exec i s = .next t ∧ CipherDone wde1 cbc xor s t := by
  obtain ⟨t, hst, h⟩ := cipherFlow_of_succeeds wde1_wellFormed wde1_blockTotal (encode i) hs
  exact ⟨t, by rw [hi.exec_eq hs.1.not_fault, h, Flow.state_running], hst⟩

theorem RunsStages.exec_badPadding (hi : RunsStages i true xor) (hr : CipherReady wde1 xor s)
    (hv : ¬ValidPadding 16 1024 (cbcByte wde1 s)) :
    ∃ t, exec i s = .next t ∧ BadPaddingLeft wde1 xor s t := by
  obtain ⟨t, hst, h⟩ := cipherFlow_badPadding wde1_wellFormed wde1_blockTotal hr hv (encode i)
  exact ⟨t, by rw [hi.exec_eq hr.not_fault, h, Flow.state_raised], hst⟩

/-- A command that does not end in FAULT found its checks passing. -/
theorem RunsStages.done_of_exec (hi : RunsStages i cbc xor) (h : exec i s = .next t) (ht : t.status.phase ≠ .fault) :
    CipherSucceeds wde1 cbc xor s ∧ CipherDone wde1 cbc xor s t := by
  have hrun := running_of_exec hi.ne_clear h ht
  rw [hi.flow] at hrun
  exact cipherFlow_running wde1_wellFormed wde1_blockTotal hrun

/-! ### Which byte comes from which stage -/

theorem cipherOutput_cbc (c : Cfg) (s : State) (x : Nat) :
    cipherOutput c true false s x = if x < c.hdr then cbcByte c s x else s.byteAt .dec x := by
  simp [cipherOutput]

theorem cipherOutput_xor (c : Cfg) (s : State) (x : Nat) :
    cipherOutput c false true s x = if c.hdr ≤ x ∧ x < s.len.toNat then xorByte c s x else s.byteAt .dec x := by
  simp [cipherOutput]

theorem cipherOutput_both (c : Cfg) (s : State) (x : Nat) :
    cipherOutput c true true s x =
      if x < c.hdr then cbcByte c s x else if x < s.len.toNat then xorByte c s x else s.byteAt .dec x := by
  by_cases hx : x < c.hdr
  · simp [cipherOutput, hx]
  · simp [cipherOutput, hx, Nat.le_of_not_lt hx]

/-! ### One stage after the other -/

/-- A command without an XOR stage checks less (40_cipher_commands R112). -/
theorem CipherReady.without_xor (h : CipherReady c true s) : CipherReady c false s := by
  obtain ⟨hidle, hlen, -, hhdr⟩ := h
  exact ⟨hidle, hlen, nofun, hhdr⟩

/-- The checks of a cipher command look at nothing that a cipher command writes. -/
theorem CipherDone.ready {xor' : Bool} (h : CipherDone c cbc xor s t) (hr : CipherReady c xor' s) :
    CipherReady c xor' t := by
  rw [h.frame]
  exact hr

theorem SameButDone.eq_of_status (h : SameButDone s t) (hstatus : t.status = s.status) : t = s := by
  unfold SameButDone at h
  rw [h, hstatus]

/-- The stages do not look at the flags, so XOR_DONE may be dropped before the CBC stage, as `DECRYPT` does, or after it,
as `CBC_DEC` and then `XOR_EXP` do (10_state R37). -/
theorem decryptCmd_sameButDone {v : State} (hr : CipherReady c true s) (ht : cbcDecCmd c s = .running t)
    (hrt : CipherReady c true t) (hu : xorExpCmd c t = .running u) (hv : decryptCmd c s = .running v) :
    SameButDone u v := by
  rw [cbcDecCmd, cipherChecks_ready hr.without_xor, Flow.andThen_running] at ht
  rw [xorExpCmd, cipherChecks_ready hrt, Flow.andThen_running] at hu
  rw [decryptCmd, cipherChecks_ready hr, Flow.andThen_running] at hv
  have hxor : Blind .flags (xorStage c) := xorStage_blind c rfl
  have hstages : Blind .flags fun s => (cbcStage c s).andThen (xorStage c) := (cbcStage_blind c rfl).andThen hxor
  have hviews : (Flow.running v).map (State.seen .flags) = (Flow.running u).map (State.seen .flags) := calc
    _ = ((cbcStage c (s.dropDone true true)).andThen (xorStage c)).map (State.seen .flags) := by rw [hv]
    _ = ((cbcStage c (s.dropDone true false)).andThen (xorStage c)).map (State.seen .flags) := hstages.congr rfl
    _ = (xorStage c t).map (State.seen .flags) := by rw [ht, Flow.andThen_running]
    _ = (xorStage c (t.dropDone false true)).map (State.seen .flags) := hxor.congr rfl
    _ = (Flow.running u).map (State.seen .flags) := by rw [hu]
  injection hviews with hviews
  exact sameButDone_iff.2 hviews.symm

/-- Where `DECRYPT` succeeds it is `CBC_DEC` and then `XOR_EXP` (40_cipher_commands R120). -/
theorem decryptCmd_eq_cbcDecCmd_xorExpCmd (hw : c.WellFormed) (hb : c.BlockTotal) (hs : CipherSucceeds c true true s) :
    ∃ t u, CipherReady c true t ∧ cbcDecCmd c s = .running t ∧ xorExpCmd c t = .running u ∧
      decryptCmd c s = .running u := by
  have ⟨hr, hpad⟩ := hs
  have hcbc : CipherSucceeds c true false s := ⟨hr.without_xor, hpad⟩
  obtain ⟨t, hst, ht⟩ := cipherFlow_of_succeeds hw hb (encode .cbcDec) hcbc
  have hrt : CipherReady c true t := hst.ready hr
  obtain ⟨u, htu, hu⟩ := cipherFlow_of_succeeds (cbc := false) hw hb (encode .xorExp) ⟨hrt, nofun⟩
  obtain ⟨v, hsv, hv⟩ := cipherFlow_of_succeeds hw hb (encode .decrypt) hs
  rw [← cbcDecCmd_eq_cipherFlow] at ht
  rw [← xorExpCmd_eq_cipherFlow] at hu
  rw [← decryptCmd_eq_cipherFlow] at hv
  have hvu : v = u := (decryptCmd_sameButDone hr ht hrt hu hv).eq_of_status
    (hsv.status_eq.trans (hst.trans htu).status_eq.symm)
  exact ⟨t, u, hrt, ht, hu, hvu ▸ hv⟩

/-! ### What a byte of the output depends on -/

/-- Byte `i` of the header region depends on KEY, its own cipher block and the one before (40_cipher_commands R121). -/
theorem cbcByte_congr (hblk : 1 ≤ c.blk) {i : Nat} (hkey : ∀ j < c.keyLen, t.byteAt .key j = s.byteAt .key j)
    (hraw : ∀ a, i / c.blk * c.blk ≤ a + c.blk → a < i / c.blk * c.blk + c.blk → t.byteAt .raw a = s.byteAt .raw a) :
    cbcByte c t i = cbcByte c s i := by
  have hk : t.keyBytes c = s.keyBytes c :=
    State.memRead_congr fun j hj => by simpa using hkey j hj
  have hown : t.cipherBlock c (i / c.blk) = s.cipherBlock c (i / c.blk) :=
    State.memRead_congr fun j hj => hraw _ (by omega) (by omega)
  have hprev : prevBlock c t (i / c.blk) = prevBlock c s (i / c.blk) := by
    cases hb : i / c.blk with
    | zero => rfl
    | succ b =>
      rw [hb, Nat.add_one_mul] at hraw
      exact State.memRead_congr fun j hj => hraw _ (by omega) (by omega)
  rw [cbcByte, plainBlock, hk, hown, hprev, cbcByte, plainBlock]

/-- Byte `i` of the remainder depends on XLEN, the seed and `RAW[i]` (40_cipher_commands R121). -/
theorem xorByte_congr (hx : 1 ≤ s.xlen.toNat) {i : Nat} (hxlen : t.xlen = s.xlen)
    (hseed : ∀ j < s.xlen.toNat, t.byteAt .xseed j = s.byteAt .xseed j) (hraw : t.byteAt .raw i = s.byteAt .raw i) :
    xorByte c t i = xorByte c s i := by
  rw [xorByte, State.keystream, hxlen, hraw, hseed _ (Nat.mod_lt _ hx), xorByte, State.keystream]

end Sys2Proof.Machine

open Sys2Proof Sys2Proof.Machine

/-- Settles O25: the CBC stage alone, with either end of its padding check. -/
theorem cbcDecDecryptsTheHeaderRegion : Obligations.CbcDecDecryptsTheHeaderRegion := by
  refine fun s => ⟨cbcDec_runsStages.entryErrors s, fun hr hv => ?_, fun hr hv => ?_⟩
  · obtain ⟨t, h, hdone⟩ := cbcDec_runsStages.exec_done ⟨hr, fun _ => hv⟩
    exact ⟨t, h, hdone.frame, fun x => (hdone.bytes x).trans (cipherOutput_cbc wde1 s x)⟩
  · obtain ⟨t, h, hleft⟩ := cbcDec_runsStages.exec_badPadding hr hv
    exact ⟨t, h, hleft.frame, hleft.bytes⟩

/-- Settles O26: the XOR stage alone, which cannot fail. -/
theorem xorExpExpandsTheRemainder : Obligations.XorExpExpandsTheRemainder := by
  refine fun s => ⟨xorExp_runsStages.entryErrors s, fun hr => ?_⟩
  obtain ⟨t, h, hdone⟩ := xorExp_runsStages.exec_done ⟨hr, nofun⟩
  exact ⟨t, h, hdone.frame, fun x => (hdone.bytes x).trans (cipherOutput_xor wde1 s x)⟩

/-- Settles O27: both stages, the second only where the padding check passes. -/
theorem decryptDecryptsThePackage : Obligations.DecryptDecryptsThePackage := by
  refine fun s => ⟨decrypt_runsStages.entryErrors s, fun hr hv => ?_, fun hr hv => ?_⟩
  · obtain ⟨t, h, hdone⟩ := decrypt_runsStages.exec_done ⟨hr, fun _ => hv⟩
    exact ⟨t, h, hdone.frame, fun x => (hdone.bytes x).trans (cipherOutput_both wde1 s x)⟩
  · obtain ⟨t, h, hleft⟩ := decrypt_runsStages.exec_badPadding hr hv
    exact ⟨t, h, hleft.frame, hleft.bytes⟩

/-- Settles O28: both ways run the same stages, which do not look at the flags, and set both flags. -/
theorem decryptIsCbcDecThenXorExp : Obligations.DecryptIsCbcDecThenXorExp := by
  intro s hr hv
  obtain ⟨t, u, hrt, ht, hu, hsu⟩ :=
    decryptCmd_eq_cbcDecCmd_xorExpCmd wde1_wellFormed wde1_blockTotal ⟨hr, fun _ => hv⟩
  exact ⟨t, u, exec_of_running (by decide) hr.not_fault ht, exec_of_running (by decide) hrt.not_fault hu,
    exec_of_running (by decide) hr.not_fault hsu⟩

/-- Settles O30: each byte is the output of one stage on the same operands in both runs. -/
theorem outputByteDependsOnItsBlocksAlone : Obligations.OutputByteDependsOnItsBlocksAlone := by
  intro s t s' t' i hs ht hsidle htidle hslen htlen
  obtain ⟨⟨⟨-, -, hxlen, -⟩, -⟩, hs⟩ := decrypt_runsStages.done_of_exec hs (by simp [hsidle])
  obtain ⟨-, ht⟩ := decrypt_runsStages.done_of_exec ht (by simp [htidle])
  rw [hs.bytes i, ht.bytes i, cipherOutput_both, cipherOutput_both, if_pos hslen, if_pos htlen]
  refine ⟨fun hi hkey hraw => ?_, fun hi hx hseed hraw => ?_⟩
  · have hi' : i < wde1.hdr := hi
    rw [if_pos hi', if_pos hi']
    exact cbcByte_congr (c := wde1) (by decide) hkey hraw
  · have hi' : ¬i < wde1.hdr := Nat.not_lt.2 hi
    rw [if_neg hi', if_neg hi']
    exact xorByte_congr (hxlen rfl).1 hx hseed hraw

end

section
/-! PROOFS, 43_block_cipher_aes. The inverse cipher undoes the cipher. -/

namespace Sys2Proof.Machine.Aes

/-! ### Substitution -/

/-- `InvSBox` undoes `SBox` (R203). -/
@[simp] theorem invSbox_sbox : ∀ a : Byte, invSbox (sbox a) = a := by decide +kernel

@[simp] theorem invSubBytes_subBytes (s : Block) : invSubBytes (subBytes s) = s := by
  simp [invSubBytes, subBytes, Block.map, Col.map]

/-! ### The columns -/

/-- A column times the circulant matrix whose first row is given: the shape of both mix matrices (R208). -/
def circ (n0 n1 n2 n3 : Byte) (u : Col) : Col :=
  { a0 := mixRow n0 n1 n2 n3 u, a1 := mixRow n3 n0 n1 n2 u, a2 := mixRow n2 n3 n0 n1 u, a3 := mixRow n1 n2 n3 n0 u }

theorem mixCol_eq_circ (u : Col) : mixCol u = circ 0x02#8 0x03#8 0x01#8 0x01#8 u := rfl

theorem invMixCol_eq_circ (u : Col) : invMixCol u = circ 0x0E#8 0x0B#8 0x0D#8 0x09#8 u := rfl

/-- What byte `x` of a column adds to a row `m` of the product of two circulant matrices, where it stands in column 0. -/
def circTerm (m0 m1 m2 m3 n0 n1 n2 n3 x : Byte) : Byte :=
  mul m0 (mul n0 x) ^^^ mul m1 (mul n3 x) ^^^ mul m2 (mul n2 x) ^^^ mul m3 (mul n1 x)

/-- A row of the product of two circulant matrices, byte by byte of the column: the product of the field is linear. -/
theorem mixRow_circ (m0 m1 m2 m3 n0 n1 n2 n3 : Byte) (u : Col) :
    mixRow m0 m1 m2 m3 (circ n0 n1 n2 n3 u) =
      circTerm m0 m1 m2 m3 n0 n1 n2 n3 u.a0 ^^^ circTerm m1 m2 m3 m0 n0 n1 n2 n3 u.a1 ^^^
        circTerm m2 m3 m0 m1 n0 n1 n2 n3 u.a2 ^^^ circTerm m3 m0 m1 m2 n0 n1 n2 n3 u.a3 := by
  simp only [mixRow, circ, circTerm, mul_xor]
  ac_rfl

/-- The product of the two mix matrices is the identity: 1 on the diagonal, 0 elsewhere (R208). -/
theorem circTerm_invMix_mix : ∀ x : Byte,
    circTerm 0x0E#8 0x0B#8 0x0D#8 0x09#8 0x02#8 0x03#8 0x01#8 0x01#8 x = x ∧
    circTerm 0x0B#8 0x0D#8 0x09#8 0x0E#8 0x02#8 0x03#8 0x01#8 0x01#8 x = 0x00#8 ∧
    circTerm 0x0D#8 0x09#8 0x0E#8 0x0B#8 0x02#8 0x03#8 0x01#8 0x01#8 x = 0x00#8 ∧
    circTerm 0x09#8 0x0E#8 0x0B#8 0x0D#8 0x02#8 0x03#8 0x01#8 0x01#8 x = 0x00#8 := by
  decide +kernel

/-- `InvMixColumns` undoes `MixColumns` on one column (R208). -/
@[simp] theorem invMixCol_mixCol (u : Col) : invMixCol (mixCol u) = u := by
  have hterm := circTerm_invMix_mix
  rw [mixCol_eq_circ, invMixCol_eq_circ, circ]
  simp only [mixRow_circ, hterm, BitVec.xor_zero, BitVec.zero_xor]

@[simp] theorem invMixColumns_mixColumns (s : Block) : invMixColumns (mixColumns s) = s := by
  simp [invMixColumns, mixColumns, Block.map]

/-! ### The rounds -/

/-- The rounds of the inverse cipher undo those of the cipher, between the two half rounds that each ends with (R209,
R210). -/
theorem decRounds_encRounds (w : List Col) (r : Nat) (s : Block) :
    decRounds w r (shiftRows (subBytes (encRounds w r s))) = shiftRows (subBytes s) := by
  induction r with
  | zero => rfl
  | succ r ih => simp [decRounds, encRounds, ih]

theorem decState_encState (w : List Col) (s : Block) : decState w (encState w s) = s := by
  simp [decState, encState, decRounds_encRounds]

/-- `BlockDec` undoes `BlockEnc`, for every key (R209, R210). -/
theorem blockDec_blockEnc (key : List Byte) {block : List Byte} (h : block.length = 16) :
    blockDec key (blockEnc key block) = block := by
  rw [blockDec, blockEnc, ofBytes_toBytes, decState_encState, toBytes_ofBytes h]

end Sys2Proof.Machine.Aes

end

section
/-! PROOFS, 40_cipher_commands. The round trip: `DECRYPT` undoes `RefEncrypt` (R122), first under every configuration
whose cipher has an inverse, then with AES-256. -/

namespace Sys2Proof.Machine

variable {c : Cfg} {enc : List Byte → List Byte → List Byte} {s t : State} {text : List Byte}

/-! ### Byte strings -/

theorem xorBytes_xorBytes_self {u v : List Byte} (h : u.length = v.length) : xorBytes (xorBytes u v) v = u := by
  induction u generalizing v with
  | nil => rfl
  | cons a u ih =>
    cases v with
    | nil => simp at h
    | cons b v =>
      have hcons : xorBytes (xorBytes (a :: u) (b :: v)) (b :: v) = (a ^^^ b ^^^ b) :: xorBytes (xorBytes u v) v := rfl
      rw [hcons, ih (by simpa using h), BitVec.xor_assoc, BitVec.xor_self, BitVec.xor_zero]

/-- Byte `j` of the block of `n` bytes at `a`. -/
theorem getD_take_drop (v : List Byte) {a n j : Nat} (d : Byte) (h : j < n) :
    ((v.drop a).take n).getD j d = v.getD (a + j) d := by
  simp [List.getD_eq_getElem?_getD, h]

theorem State.memRead_eq_of_getD {sp : Space} {a : Nat} {v : List Byte} (d : Byte)
    (h : ∀ i < v.length, s.byteAt sp (a + i) = v.getD i d) : s.memRead sp a v.length = v := by
  refine List.ext_getElem (by simp) fun i hi hi' => ?_
  rw [← List.getD_eq_getElem _ d hi, ← List.getD_eq_getElem _ d hi', State.memRead_getD _ _ _ _ hi', h i hi']

/-! ### The header region -/

/-- `enc` makes of every block one that `BlockDec` turns back (40_cipher_commands R122). -/
def BlockInverse (c : Cfg) (enc : List Byte → List Byte → List Byte) : Prop :=
  ∀ key block : List Byte, key.length = c.keyLen → block.length = c.blk →
    (enc key block).length = c.blk ∧ c.blockDec key (enc key block) = block

theorem keyBytes_length (c : Cfg) (s : State) : (s.keyBytes c).length = c.keyLen := by
  rw [State.keyBytes, State.memRead_length]

/-- The header region is whole blocks (00_scope R7). -/
theorem blocks_mul_blk (hw : c.WellFormed) : c.hdr / c.blk * c.blk = c.hdr := by
  have ⟨_, _, hdvd, _⟩ := hw
  exact Nat.div_mul_cancel (Nat.dvd_of_mod_eq_zero hdvd)

/-- One block of CBC: what the chaining added before the cipher, it takes away after its inverse (40_cipher_commands
R113, R122). -/
theorem plainBlock_of_enc (hw : c.WellFormed) (he : BlockInverse c enc) {b : Nat} {p : List Byte} (hp : p.length = c.blk)
    (hown : s.cipherBlock c b = enc (s.keyBytes c) (xorBytes p (prevBlock c s b))) : plainBlock c s b = p := by
  have hlen : p.length = (prevBlock c s b).length := by rw [hp, prevBlock_length hw]
  have hblock : (xorBytes p (prevBlock c s b)).length = c.blk := by rw [xorBytes_length, ← hlen, hp, Nat.min_self]
  obtain ⟨-, hdec⟩ := he _ _ (keyBytes_length c s) hblock
  rw [plainBlock, hown, hdec, xorBytes_xorBytes_self hlen]

/-- Where RAW holds the cipher blocks of `n` plaintext blocks from block `b` on, the first is that of the first plaintext
block, and the others are chained to it (40_cipher_commands R122). -/
theorem refCbc_succ_split (hw : c.WellFormed) (he : BlockInverse c enc) {n b : Nat} (hp : c.blk ≤ text.length)
    (hraw : s.memRead .raw (b * c.blk) ((n + 1) * c.blk) =
      refCbc c.blk (enc (s.keyBytes c)) (n + 1) (prevBlock c s b) text) :
    s.cipherBlock c b = enc (s.keyBytes c) (xorBytes (text.take c.blk) (prevBlock c s b)) ∧
      s.memRead .raw ((b + 1) * c.blk) (n * c.blk) =
        refCbc c.blk (enc (s.keyBytes c)) n (prevBlock c s (b + 1)) (text.drop c.blk) := by
  have hblock : (xorBytes (text.take c.blk) (prevBlock c s b)).length = c.blk := by
    rw [xorBytes_length, List.length_take, prevBlock_length hw, Nat.min_eq_left hp, Nat.min_self]
  obtain ⟨henc, -⟩ := he _ _ (keyBytes_length c s) hblock
  rw [Nat.add_one_mul, Nat.add_comm, State.memRead_add, refCbc] at hraw
  obtain ⟨hfirst, hrest⟩ := List.append_inj hraw (by rw [State.memRead_length, henc])
  rw [← hfirst, ← Nat.add_one_mul] at hrest
  exact ⟨hfirst, hrest⟩

/-- There the engine's plaintext blocks are those of the text (40_cipher_commands R113, R122). -/
theorem plainBlock_of_refCbc (hw : c.WellFormed) (he : BlockInverse c enc) {n b : Nat}
    (htext : n * c.blk ≤ text.length)
    (hraw : s.memRead .raw (b * c.blk) (n * c.blk) = refCbc c.blk (enc (s.keyBytes c)) n (prevBlock c s b) text)
    {k : Nat} (hk : k < n) : plainBlock c s (b + k) = (text.drop (k * c.blk)).take c.blk := by
  induction n generalizing b text k with
  | zero => omega
  | succ n ih =>
    rw [Nat.add_one_mul] at htext
    obtain ⟨hown, hrest⟩ := refCbc_succ_split hw he (by omega) hraw
    cases k with
    | zero =>
      rw [Nat.add_zero, plainBlock_of_enc hw he (by rw [List.length_take]; omega) hown, Nat.zero_mul, List.drop_zero]
    | succ k =>
      have hrec := ih (by rw [List.length_drop]; omega) hrest (Nat.lt_of_succ_lt_succ hk)
      rw [Nat.add_right_comm] at hrec
      rw [← Nat.add_assoc, hrec, List.drop_drop, Nat.add_one_mul, Nat.add_comm c.blk]

/-- The header region of a RawPackage decrypts to the text, byte by byte (40_cipher_commands R113, R122). -/
theorem cbcByte_of_refCbc (hw : c.WellFormed) (he : BlockInverse c enc) (htext : c.hdr ≤ text.length)
    (hraw : s.memRead .raw 0 c.hdr =
      refCbc c.blk (enc (s.keyBytes c)) (c.hdr / c.blk) c.ivConst (text.take c.hdr))
    {x : Nat} (hx : x < c.hdr) : cbcByte c s x = text.getD x 0x00#8 := by
  have ⟨hblk, _⟩ := hw
  have hm := blocks_mul_blk hw
  have hlt : x / c.blk < c.hdr / c.blk := Nat.div_lt_of_lt_mul (by rwa [Nat.mul_comm, hm])
  have hlen : c.hdr / c.blk * c.blk ≤ (text.take c.hdr).length := by rw [List.length_take]; omega
  have hblock := plainBlock_of_refCbc (b := 0) hw he hlen (by rwa [Nat.zero_mul, hm]) hlt
  rw [Nat.zero_add] at hblock
  rw [cbcByte, hblock, getD_take_drop _ _ (Nat.mod_lt x hblk), Nat.div_add_mod']
  simp [List.getD_eq_getElem?_getD, hx]

/-! ### The remainder -/

/-- Byte `x` of the remainder encrypted: the byte XOR the keystream (40_cipher_commands R117, R122). -/
theorem refXor_getD (seed : List Byte) (j : Nat) {l : List Byte} {x : Nat} (hx : x < l.length) :
    (refXor seed j l).getD x 0x00#8 = l.getD x 0x00#8 ^^^ seed.getD ((j + x) % seed.length) 0x00#8 := by
  induction l generalizing j x with
  | nil => simp at hx
  | cons b l ih =>
    cases x with
    | zero => simp [refXor]
    | succ x =>
      rw [refXor, List.getD_cons_succ, List.getD_cons_succ, ih (j + 1) (by simpa using hx),
        show j + 1 + x = j + (x + 1) by omega]

/-- The engine's keystream is the seed, repeated (40_cipher_commands R117). -/
theorem keystream_eq_getD (hx : 1 ≤ s.xlen.toNat) (j : Nat) :
    s.keystream j = (s.memRead .xseed 0 s.xlen.toNat).getD (j % s.xlen.toNat) 0x00#8 := by
  rw [State.memRead_getD _ _ _ _ (Nat.mod_lt j hx), Nat.zero_add, State.keystream]

/-- The remainder of a RawPackage decrypts to the text, byte by byte (40_cipher_commands R117, R122). -/
theorem xorByte_of_refXor (hx : 1 ≤ s.xlen.toNat) {n : Nat}
    (hraw : s.memRead .raw c.hdr n = refXor (s.memRead .xseed 0 s.xlen.toNat) 0 (text.drop c.hdr))
    (htext : text.length = c.hdr + n) {x : Nat} (hhdr : c.hdr ≤ x) (hlen : x < text.length) :
    xorByte c s x = text.getD x 0x00#8 := by
  obtain ⟨k, rfl⟩ := Nat.exists_eq_add_of_le hhdr
  have hbyte : s.byteAt .raw (c.hdr + k) = text.getD (c.hdr + k) 0x00#8 ^^^ s.keystream k := by
    rw [← State.memRead_getD s .raw c.hdr 0x00#8 (show k < n by omega), hraw,
      refXor_getD _ _ (by rw [List.length_drop]; omega), State.memRead_length, Nat.zero_add, ← keystream_eq_getD hx]
    simp [List.getD_eq_getElem?_getD]
  rw [xorByte, hbyte, Nat.add_sub_cancel_left, BitVec.xor_assoc, BitVec.xor_self, BitVec.xor_zero]

/-! ### The package -/

/-- A ready state holds in RAW the package that `RefEncrypt` makes of `text`, under the key and the seed in its stores
(40_cipher_commands R122). -/
structure HoldsRefEncrypt (c : Cfg) (enc : List Byte → List Byte → List Byte) (s : State) (text : List Byte) : Prop where
  /-- The checks of DECRYPT pass. -/
  ready : CipherReady c true s
  /-- LEN is the length of the text. -/
  length : text.length = s.len.toNat
  /-- The text's header region ends in valid padding. -/
  padding : ValidPadding c.blk c.hdr (fun i => text.getD i 0x00#8)
  /-- RAW holds the package. -/
  raw : s.memRead .raw 0 s.len.toNat = refEncrypt c enc (s.keyBytes c) (s.memRead .xseed 0 s.xlen.toNat) text

/-- RAW cut where `RefEncrypt` changes from the cipher to the keystream. -/
theorem HoldsRefEncrypt.raw_split (h : HoldsRefEncrypt c enc s text) (hw : c.WellFormed) (he : BlockInverse c enc) :
    s.memRead .raw 0 c.hdr = refCbc c.blk (enc (s.keyBytes c)) (c.hdr / c.blk) c.ivConst (text.take c.hdr) ∧
      s.memRead .raw c.hdr (s.len.toNat - c.hdr) =
        refXor (s.memRead .xseed 0 s.xlen.toNat) 0 (text.drop c.hdr) := by
  obtain ⟨⟨-, -, -, hhdr⟩, hlen, -, hraw⟩ := h
  have ⟨_, _, _, _, _, _, hiv, _⟩ := hw
  have hm := blocks_mul_blk hw
  have hcbc := refCbc_length (fun b hb => (he (s.keyBytes c) b (keyBytes_length c s) hb).1) (c.hdr / c.blk) hiv
    (t := text.take c.hdr) (by rw [List.length_take]; omega)
  rw [← Nat.add_sub_cancel' hhdr, State.memRead_add, Nat.zero_add, refEncrypt] at hraw
  exact List.append_inj hraw (by rw [hcbc, hm, State.memRead_length])

/-- The output of both stages is the text (40_cipher_commands R122). -/
theorem HoldsRefEncrypt.cipherOutput_eq (h : HoldsRefEncrypt c enc s text) (hw : c.WellFormed) (he : BlockInverse c enc)
    {x : Nat} (hx : x < text.length) : cipherOutput c true true s x = text.getD x 0x00#8 := by
  obtain ⟨hcbc, hxor⟩ := h.raw_split hw he
  obtain ⟨⟨-, -, hxlen, hhdr⟩, hlen, -, -⟩ := h
  rw [cipherOutput_both, ← hlen, if_pos hx]
  split_ifs with hlt
  · exact cbcByte_of_refCbc hw he (by omega) hcbc hlt
  · exact xorByte_of_refXor (hxlen rfl).1 hxor (by omega) (Nat.le_of_not_lt hlt) hx

/-- The padding that DECRYPT checks is that of the text. -/
theorem HoldsRefEncrypt.succeeds (h : HoldsRefEncrypt c enc s text) (hw : c.WellFormed) (he : BlockInverse c enc) :
    CipherSucceeds c true true s := by
  have ⟨hblk, hhdr, _⟩ := hw
  have ⟨_, _, _, hlen⟩ := h.ready
  refine ⟨h.ready, fun _ => (ValidPadding.congr (Nat.le_trans hblk hhdr) fun x hx => ?_).2 h.padding⟩
  exact cbcByte_of_refCbc hw he (by rw [h.length]; exact hlen) (h.raw_split hw he).1 hx

/-- What both stages leave of such a state is the text. -/
theorem HoldsRefEncrypt.memRead_eq (h : HoldsRefEncrypt c enc s text) (hw : c.WellFormed) (he : BlockInverse c enc)
    (hdone : CipherDone c true true s t) : t.memRead .dec 0 s.len.toNat = text := by
  rw [← h.length]
  refine State.memRead_eq_of_getD 0x00#8 fun x hx => ?_
  rw [Nat.zero_add, hdone.bytes x, h.cipherOutput_eq hw he hx]

/-! ### AES-256 -/

theorem wde1_blockInverse : BlockInverse wde1 Aes.blockEnc := fun key _ _ hblock =>
  ⟨rfl, Aes.blockDec_blockEnc key hblock⟩

end Sys2Proof.Machine

open Sys2Proof Sys2Proof.Machine

/-- Settles O31: CBC chaining cancels block by block, the keystream byte by byte, so both stages give back the text and
with it its padding. -/
theorem decryptUndoesRefEncryptInEveryConfiguration : Obligations.DecryptUndoesRefEncryptInEveryConfiguration := by
  intro c enc s text hw hb he hready hlength hpadding hraw
  have h : HoldsRefEncrypt c enc s text := ⟨hready, hlength, hpadding, hraw⟩
  obtain ⟨t, hdone, ht⟩ := cipherFlow_of_succeeds hw hb (encode .decrypt) (h.succeeds hw he)
  rw [← decryptCmd_eq_cipherFlow] at ht
  exact ⟨t, ht, h.memRead_eq hw he hdone, hdone.status_eq⟩

/-- Settles O32: O31's argument at the hardware's configuration, where the inverse of `BlockDec` is AES-256's cipher. -/
theorem decryptUndoesRefEncrypt : Obligations.DecryptUndoesRefEncrypt := by
  intro s text hready hlength hpadding hraw
  have h : HoldsRefEncrypt wde1 Aes.blockEnc s text := ⟨hready, hlength, hpadding, hraw⟩
  obtain ⟨t, ht, hdone⟩ := decrypt_runsStages.exec_done (h.succeeds wde1_wellFormed wde1_blockInverse)
  exact ⟨t, ht, h.memRead_eq wde1_wellFormed wde1_blockInverse hdone, hdone.frame⟩

end

section
/-! PROOFS, 41_container_commands. The segments of a path: the library's split at the separator, and where in the path a
segment stands. -/

namespace Sys2Proof.Machine

variable {b : Byte} {bs path seg : List Byte}

/-! ### The segments -/

theorem segments_separator (bs : List Byte) : segments (0x2F#8 :: bs) = [] :: segments bs := if_pos rfl

theorem segments_ne_nil : ∀ path : List Byte, segments path ≠ []
  | [] => by simp [segments]
  | b :: bs => by
    rw [segments]
    split_ifs
    · simp
    · split <;> simp

theorem segments_cons (hb : b ≠ 0x2F#8) (bs : List Byte) :
    ∃ first rest, segments bs = first :: rest ∧ segments (b :: bs) = (b :: first) :: rest := by
  obtain ⟨first, rest, hbs⟩ := List.exists_cons_of_ne_nil (segments_ne_nil bs)
  exact ⟨first, rest, hbs, by rw [segments, if_neg hb, hbs]⟩

/-- The segments are the library's split at the separator byte. -/
theorem segments_eq_splitOn (path : List Byte) : segments path = path.splitOn 0x2F#8 := by
  induction path with
  | nil => rfl
  | cons b bs ih =>
    rw [List.splitOn_cons_eq_if_modifyHead, ← ih]
    by_cases hb : b = 0x2F#8
    · simp [hb, segments_separator]
    · obtain ⟨first, rest, hbs, hcons⟩ := segments_cons hb bs
      simp [hb, hbs, hcons]

theorem separator_notMem_segments (path : List Byte) : ∀ seg ∈ segments path, 0x2F#8 ∉ seg := by
  induction path with
  | nil => simp [segments]
  | cons b bs ih =>
    by_cases hb : b = 0x2F#8
    · simpa [hb, segments_separator] using ih
    · obtain ⟨first, rest, hbs, hcons⟩ := segments_cons hb bs
      simpa [hcons, hbs, Ne.symm hb] using ih

theorem segments_length (path : List Byte) : (segments path).length = path.count 0x2F#8 + 1 := by
  induction path with
  | nil => rfl
  | cons b bs ih =>
    by_cases hb : b = 0x2F#8
    · simp [hb, segments_separator, ih]
    · obtain ⟨first, rest, hbs, hcons⟩ := segments_cons hb bs
      rw [hbs] at ih
      simpa [hcons, hb] using ih

theorem hasDotDot_iff_mem : hasDotDot path = true ↔ [0x2E#8, 0x2E#8] ∈ segments path := by
  simp [hasDotDot]

/-! ### Where a segment stands -/

/-- What stands before an element of a joined list ends with the separator, unless it is empty. -/
theorem intercalate_append_cons (sep l : List Byte) (pre post : List (List Byte)) :
    sep.intercalate (pre ++ l :: post) = pre.flatMap (· ++ sep) ++ sep.intercalate (l :: post) := by
  induction pre with
  | nil => rfl
  | cons p pre ih => rw [List.cons_append, List.intercalate_cons_of_ne_nil (by simp), ih]; simp

/-- A string with no separator is a segment exactly where it stands between separators or the ends of the path. -/
theorem mem_segments_iff (hseg : 0x2F#8 ∉ seg) :
    seg ∈ segments path ↔ ∃ before after : List Byte, path = before ++ seg ++ after ∧
      (before = [] ∨ before.getLast? = some 0x2F#8) ∧ (after = [] ∨ after.head? = some 0x2F#8) := by
  constructor
  · intro hmem
    obtain ⟨pre, post, hsplit⟩ := List.append_of_mem hmem
    have hpath : path = pre.flatMap (· ++ [0x2F#8]) ++ [0x2F#8].intercalate (seg :: post) := by
      rw [← intercalate_append_cons, ← hsplit, segments_eq_splitOn, List.intercalate_splitOn]
    have hbefore : pre.flatMap (· ++ [0x2F#8]) = [] ∨ (pre.flatMap (· ++ [0x2F#8])).getLast? = some 0x2F#8 := by
      obtain rfl | ⟨pre, p, rfl⟩ := List.eq_nil_or_concat pre
      · exact .inl rfl
      · exact .inr (by simp)
    cases post with
    | nil => exact ⟨_, [], by simpa using hpath, hbefore, .inl rfl⟩
    | cons p post => exact ⟨_, 0x2F#8 :: [0x2F#8].intercalate (p :: post), by simpa using hpath, hbefore, .inr rfl⟩
  · rintro ⟨before, after, rfl, hbefore, hafter⟩
    have hfirst : seg ∈ (seg ++ after).splitOn 0x2F#8 := by
      cases after with
      | nil => simp [List.splitOn_eq_singleton hseg]
      | cons b after =>
        obtain rfl : b = 0x2F#8 := by simpa using hafter
        simp [List.splitOn_append_cons_self, List.splitOn_eq_singleton hseg]
    rw [segments_eq_splitOn, List.append_assoc]
    obtain rfl | ⟨before, b, rfl⟩ := List.eq_nil_or_concat before
    · exact hfirst
    · obtain rfl : b = 0x2F#8 := by simpa using hbefore
      simp [List.splitOn_append_cons_self, hfirst]

end Sys2Proof.Machine

open Sys2Proof Sys2Proof.Machine

/-- Settles O39: `2E 2E` holds no separator, so it is a segment exactly where it stands between separators or ends. -/
theorem hasDotDotFindsTheSegment : Obligations.HasDotDotFindsTheSegment :=
  fun _ => hasDotDot_iff_mem.trans (mem_segments_iff (by decide))

/-- Settles O40, by recursion along the path; joining the pieces of a split is the library's. -/
theorem segmentsAreTheRunsBetweenSeparators : Obligations.SegmentsAreTheRunsBetweenSeparators := fun path =>
  ⟨by rw [segments_eq_splitOn, List.intercalate_splitOn], separator_notMem_segments path, segments_length path,
    hasDotDot_iff_mem⟩

end

section
/-! PROOFS, 41_container_commands. The header step in one equation for each outcome; what one turn of `EntryStep` yields
or raises; `NEXT` around it. -/

namespace Sys2Proof.Machine

variable {c : Cfg} {s t u : State} {cu : Nat}

/-! ### The three commands outside FAULT -/

theorem exec_parseHdr_run (hs : s.status.phase ≠ .fault) : exec .parseHdr s = .next (headerStep wde1 s).state := by
  rw [exec_parseHdr, unlessFault_run hs]

theorem exec_next_run (hs : s.status.phase ≠ .fault) : exec .next s = .next (nextCmd s).state := by
  rw [exec_next, unlessFault_run hs]

theorem exec_scan_run (hs : s.status.phase ≠ .fault) : exec .scan s = .next (scanCmd wde1 s).state := by
  rw [exec_scan, unlessFault_run hs]

/-! ### The header step -/

theorem headerStep_config (h : c.bufMax < s.len.toNat) : headerStep c s = s.dropToc.stop .config 0#32 := if_pos h

theorem headerStep_short (hbuf : s.len.toNat ≤ c.bufMax) (h : s.len.toNat < c.headerSize) :
    headerStep c s = s.dropToc.stop .truncatedTable headerInfo := (if_neg (Nat.not_lt.2 hbuf)).trans (if_pos h)

theorem headerStep_badMagic (hbuf : s.len.toNat ≤ c.bufMax) (hsize : c.headerSize ≤ s.len.toNat)
    (h : s.magicField ≠ c.magic) : headerStep c s = s.dropToc.stop .badMagic 0#32 :=
  (if_neg (Nat.not_lt.2 hbuf)).trans ((if_neg (Nat.not_lt.2 hsize)).trans (if_pos h))

theorem headerStep_span (hbuf : s.len.toNat ≤ c.bufMax) (hsize : c.headerSize ≤ s.len.toNat)
    (hmagic : s.magicField = c.magic)
    (h : s.countField.toNat ≠ 0 ∧ s.len.toNat < s.tableOffField.toNat + c.entryMin * s.countField.toNat) :
    headerStep c s = (latched s).stop .truncatedTable headerInfo :=
  (if_neg (Nat.not_lt.2 hbuf)).trans
    ((if_neg (Nat.not_lt.2 hsize)).trans ((if_neg (not_not.2 hmagic)).trans (if_pos h)))

/-- A bad header ends the command in error entry. -/
theorem headerStep_bad (h : ¬HeaderOk c s) : ∃ u, headerStep c s = .raised u := by
  rcases headerStep_cases c s with ⟨hok, -⟩ | ⟨-, h'⟩ | ⟨-, -, h'⟩ | ⟨-, -, -, h'⟩ | ⟨-, -, -, -, -, h'⟩
  · exact absurd hok h
  all_goals exact ⟨_, h'⟩

/-- The header registers as they are read, with the cursor and the index still 0 (41_container_commands R142). -/
theorem latched_eq (s : State) : latched s = { s with
    toc := { count := s.countField, tabOff := s.tableOffField, dataOff := s.dataOffField, cur := 0#32, idx := 0#32 }
    desc := .zero
    status := { s.status with evalid := false } } := by
  unfold latched State.latchHeader State.countField State.tableOffField State.dataOffField
  simp only [State.be32_dropToc]
  rfl

/-- The state a good header leaves: the table opened, the cursor at entry 0 (41_container_commands R142). -/
def opened (s : State) : State := (latched s).openTable

theorem opened_eq (s : State) : opened s = { s with
    toc := { count := s.countField, tabOff := s.tableOffField, dataOff := s.dataOffField, cur := s.tableOffField,
             idx := 0#32 }
    desc := .zero
    status := { s.status with phase := .iter, evalid := false } } := by
  rw [opened, latched_eq]
  rfl

/-! ### One turn of EntryStep -/

/-- What `EntryStep` overwrites need not be cleared first. -/
@[simp] theorem entryStep_clearDescriptor (s : State) : entryStep s.clearDescriptor = entryStep s := by
  simp only [entryStep, State.stop, State.plenField, State.pathField, State.offField, State.sizeField,
    State.be32_clearDescriptor, State.memRead_clearDescriptor, State.clearDescriptor_len, State.clearDescriptor_toc]
  rfl

/-- What a good entry at CUR leaves: its descriptor, nothing wrapped, and the cursor and the index advanced
(41_container_commands R147). -/
structure EntryYielded (s t : State) : Prop extends EntryRead s t where
  /-- Nothing but the descriptor, EVALID, CUR and IDX changes. -/
  frame : t = { s with
    desc := t.desc
    status := { s.status with evalid := true }
    toc := { s.toc with cur := t.toc.cur, idx := s.toc.idx + 1#32 } }
  /-- E_PATHOFF. -/
  pathOff : t.desc.pathOff.toNat = s.toc.cur.toNat + 4
  /-- E_START. -/
  start : t.desc.start.toNat = s.toc.dataOff.toNat + t.desc.off.toNat
  /-- CUR is where the next entry starts. -/
  cur : t.toc.cur.toNat = nextEntry s s.toc.cur.toNat

theorem EntryYielded.sameButCursor (h : EntryYielded s t) : SameButCursor s t := by
  unfold SameButCursor
  rw [h.frame]

theorem entryStep_good (h : EntryOk s s.toc.dataOff s.toc.cur.toNat) :
    ∃ t, entryStep s = .running t ∧ EntryYielded s t := by
  obtain ⟨-, heq⟩ | ⟨hbad, -⟩ := entryStep_cases s
  · obtain ⟨hend, -, hrange⟩ := h
    refine ⟨_, heq, entryStep_reads heq, rfl, ?_, ?_, ?_⟩
    · exact toNat_ofNat_of_le (w := s.len) (by omega)
    · exact toNat_ofNat_of_le (w := s.len) (by omega)
    · exact toNat_ofNat_of_le hend
  · exact absurd h hbad

theorem entryStep_bad (h : ¬EntryOk s s.toc.dataOff s.toc.cur.toNat) :
    entryStep s = s.stop (entryError s s.toc.cur.toNat) s.toc.idx := by
  obtain ⟨hok, -⟩ | ⟨-, heq⟩ := entryStep_cases s
  · exact absurd hok h
  · exact heq

theorem entryStep_running (h : entryStep s = .running t) :
    EntryOk s s.toc.dataOff s.toc.cur.toNat ∧ EntryYielded s t := by
  by_cases hok : EntryOk s s.toc.dataOff s.toc.cur.toNat
  · obtain ⟨u, hu, hyield⟩ := entryStep_good hok
    rw [hu] at h
    injection h with h
    exact ⟨hok, h ▸ hyield⟩
  · rw [entryStep_bad hok] at h
    exact nomatch h

/-! ### The first failing check of an entry -/

theorem entryError_path (h : s.len.toNat < cu + 4 + (s.plenField cu).toNat) : entryError s cu = .truncatedTable := by
  unfold entryError
  split_ifs <;> rfl

theorem not_entryOk_of_path {dataOff : Word} (h : s.len.toNat < cu + 4 + (s.plenField cu).toNat) :
    ¬EntryOk s dataOff cu := fun ⟨hend, _, _⟩ => by omega

theorem entryError_dotDot (hpath : cu + 4 + (s.plenField cu).toNat ≤ s.len.toNat)
    (h : hasDotDot (s.pathField cu (s.plenField cu).toNat) = true) : entryError s cu = .pathTraversal := by
  rw [entryError, if_neg (by omega), if_neg (by omega), if_pos h]

theorem entryError_fields (hdot : hasDotDot (s.pathField cu (s.plenField cu).toNat) = false)
    (h : s.len.toNat < cu + 12 + (s.plenField cu).toNat) : entryError s cu = .truncatedTable := by
  unfold entryError
  split_ifs with _ _ hdot'
  · rfl
  · rfl
  · exact absurd (hdot.symm.trans hdot') Bool.false_ne_true
  · rfl

theorem entryError_range (hdot : hasDotDot (s.pathField cu (s.plenField cu).toNat) = false)
    (hend : cu + 12 + (s.plenField cu).toNat ≤ s.len.toNat) : entryError s cu = .entryRange := by
  rw [entryError, if_neg (by omega), if_neg (by omega), if_neg (by simp [hdot]), if_neg (by omega)]

/-! ### NEXT -/

theorem nextCmd_ended (h : s.status.phase = .ended) : nextCmd s = .running s.clearDescriptor := by
  simp [nextCmd, h]

theorem nextCmd_last (h : s.status.phase = .iter) (hidx : s.toc.idx = s.toc.count) :
    nextCmd s = .running (s.clearDescriptor.setPhase .ended) := by
  simp [nextCmd, h, hidx]

theorem nextCmd_entry (h : s.status.phase = .iter) (hidx : s.toc.idx ≠ s.toc.count) : nextCmd s = entryStep s := by
  simp [nextCmd, h, hidx]

/-- `NEXT` leaves EVALID set on the path through `EntryStep` alone (41_container_commands R146). -/
theorem nextCmd_evalid (h : nextCmd s = .running t) (hv : t.status.evalid = true) : entryStep s = .running t := by
  simp only [nextCmd, entryStep_clearDescriptor] at h
  split_ifs at h
  · exact nomatch h
  · injection h with h
    exact nomatch h ▸ hv
  · injection h with h
    exact nomatch h ▸ hv
  · exact h

theorem exec_next_good (h : s.status.phase = .iter) (hidx : s.toc.idx ≠ s.toc.count)
    (hok : EntryOk s s.toc.dataOff s.toc.cur.toNat) : ∃ t, exec .next s = .next t ∧ EntryYielded s t := by
  obtain ⟨t, ht, hyield⟩ := entryStep_good hok
  exact ⟨t, by rw [exec_next_run (by simp [h]), nextCmd_entry h hidx, ht, Flow.state_running], hyield⟩

theorem exec_next_bad (h : s.status.phase = .iter) (hidx : s.toc.idx ≠ s.toc.count)
    (hbad : ¬EntryOk s s.toc.dataOff s.toc.cur.toNat) :
    exec .next s = .next (s.raise (entryError s s.toc.cur.toNat) s.toc.idx) := by
  rw [exec_next_run (by simp [h]), nextCmd_entry h hidx, entryStep_bad hbad, State.stop, Flow.state_raised]

/-- A yielded descriptor is safe (41_container_commands R154). -/
theorem EntryYielded.descriptorSafe (hok : EntryOk s s.toc.dataOff s.toc.cur.toNat) (h : EntryYielded s t) :
    DescriptorSafe t := by
  obtain ⟨hend, hdot, hrange⟩ := hok
  have hpkg := h.sameButCursor.samePackage
  have hlen : t.len = s.len := hpkg.2.2
  have hdata : t.toc.dataOff = s.toc.dataOff := by rw [h.frame]
  unfold DescriptorSafe
  rw [hpkg.memRead, hlen, hdata, h.start, h.cur, h.pathOff, h.pathLen, h.off, h.len]
  exact ⟨by simp only [State.plenField] at hend; omega, hrange, rfl, hdot, hend⟩

end Sys2Proof.Machine

open Sys2Proof Sys2Proof.Machine

/-- Settles O36, from the equation of the header step for each outcome. -/
theorem parseHdrLatchesAndChecks : Obligations.ParseHdrLatchesAndChecks := by
  intro s hs
  rw [exec_parseHdr_run hs]
  refine ⟨fun hbuf => ?_, fun hbuf hsize => ?_, fun hbuf hsize hmagic => ?_, fun hbuf hsize hmagic hspan => ?_,
    fun hbuf hsize hmagic hspan => ?_⟩
  · rw [headerStep_config (c := wde1) hbuf]
    rfl
  · rw [headerStep_short (c := wde1) hbuf hsize]
    rfl
  · rw [headerStep_badMagic (c := wde1) hbuf hsize hmagic]
    rfl
  · rw [headerStep_span (c := wde1) hbuf hsize hmagic hspan, latched_eq]
    rfl
  · rw [headerStep_ok (c := wde1) ⟨hbuf, hsize, hmagic, fun h0 => hspan.resolve_left h0⟩, ← opened, opened_eq]
    rfl

/-- Settles O37, by STATE, then by whether the entry at CUR passes its checks; each failing check names its error. -/
theorem nextYieldsEndsOrRaises : Obligations.NextYieldsEndsOrRaises := by
  intro s cu n off size
  refine ⟨fun hidle => exec_sequenceError (sequenceError_iff.2 (.inr ⟨rfl, hidle⟩)), fun hended => ?_,
    fun hiter hidx => ?_, fun hiter hidx => ?_⟩
  · rw [exec_next_run (by simp [hended]), nextCmd_ended hended]
    rfl
  · rw [exec_next_run (by simp [hiter]), nextCmd_last hiter hidx]
    rfl
  · have hraise : ∀ e, entryError s cu = e → ¬EntryOk s s.toc.dataOff cu → exec .next s = .next (s.raise e s.toc.idx) :=
      fun e he hbad => he ▸ exec_next_bad hiter hidx hbad
    have hpath : s.len.toNat < cu + 4 + n → exec .next s = .next (s.raise .truncatedTable s.toc.idx) :=
      fun h => hraise _ (entryError_path h) (not_entryOk_of_path h)
    refine ⟨fun h => hpath (Nat.lt_add_right _ h), fun _ h => hpath h, fun hpath h => ?_, fun _ hdot h => ?_,
      fun hend hdot h => ?_, fun hend hdot hrange => ?_⟩
    · exact hraise _ (entryError_dotDot hpath h) fun ⟨_, hdot, _⟩ => Bool.false_ne_true (hdot.symm.trans h)
    · exact hraise _ (entryError_fields hdot h) fun ⟨hend, _, _⟩ => Nat.not_le.2 h hend
    · exact hraise _ (entryError_range hdot hend) fun ⟨_, _, hrange⟩ => Nat.not_le.2 h hrange
    · obtain ⟨t, ht, hyield⟩ := exec_next_good hiter hidx ⟨hend, hdot, hrange⟩
      exact ⟨t, ht, hyield.frame, hyield.pathOff, congrArg _ hyield.pathLen, hyield.off, hyield.len,
        by rw [hyield.start, hyield.off], hyield.cur⟩

/-- Settles O38: EVALID is set after a good entry alone, and a good entry bounds every sum by LEN. -/
theorem nextYieldsSafeDescriptors : Obligations.NextYieldsSafeDescriptors := by
  intro s t hs h hv
  obtain hrun | ⟨u, e, info, rfl⟩ := exec_cases (by decide) hs h
  · obtain ⟨hok, hyield⟩ := entryStep_running (nextCmd_evalid hrun hv)
    exact hyield.descriptorSafe hok
  · exact nomatch hv

end

section
/-! PROOFS, 41_container_commands. The walk over the table: `SCAN`'s loop and a run of commands `NEXT` both stand at
entry `k` after `k` good entries; the three ways `SCAN` can end. -/

namespace Sys2Proof.Machine

variable {c : Cfg} {s t u v : State} {i : Instr} {k m : Nat}

/-! ### The entries of the package in DEC -/

/-- Entry `k` of the table passes its checks (41_container_commands R147). -/
def EntryGood (s : State) (k : Nat) : Prop := EntryOk s s.dataOffField (entryAddr s s.tableOffField.toNat k)

/-- The first `m` entries of the table pass their checks. -/
def EntriesGood (s : State) (m : Nat) : Prop := ∀ k < m, EntryGood s k

theorem EntriesGood.of_succ (h : EntriesGood s (m + 1)) : EntriesGood s m ∧ EntryGood s m :=
  ⟨fun k hk => h k (Nat.lt_succ_of_lt hk), h m (Nat.lt_succ_self m)⟩

/-- Either every entry is good, or one of them is the first bad one. -/
theorem entriesGood_or_first_bad (s : State) (m : Nat) :
    EntriesGood s m ∨ ∃ k < m, EntriesGood s k ∧ ¬EntryGood s k := by
  induction m with
  | zero => exact .inl fun k hk => absurd hk (Nat.not_lt_zero k)
  | succ m ih =>
    obtain hgood | ⟨k, hk, hfirst⟩ := ih
    · by_cases hm : EntryGood s m
      · exact .inl fun k hk => (Nat.lt_succ_iff_lt_or_eq.1 hk).elim (hgood k) fun h => h ▸ hm
      · exact .inr ⟨m, Nat.lt_succ_self m, hgood, hm⟩
    · exact .inr ⟨k, Nat.lt_succ_of_lt hk, hfirst⟩

/-! ### Standing at an entry -/

theorem samePackage_opened (s : State) : SamePackage s (opened s) := ⟨rfl, rfl, rfl⟩

@[simp] theorem opened_toc (s : State) : (opened s).toc =
    { count := s.countField, tabOff := s.tableOffField, dataOff := s.dataOffField, cur := s.tableOffField,
      idx := 0#32 } := by
  rw [opened_eq]

/-- `u` is the opened table of the package of `s` with the cursor and the index moved to entry `k`. -/
structure AtEntry (s : State) (k : Nat) (u : State) : Prop where
  /-- Nothing but the cursor, the index and the descriptor was touched since the table was opened. -/
  frame : SameButCursor (opened s) u
  /-- IDX. -/
  idx : u.toc.idx.toNat = k
  /-- CUR. -/
  cur : u.toc.cur.toNat = entryAddr s s.tableOffField.toNat k

theorem atEntry_opened (s : State) : AtEntry s 0 (opened s) := ⟨.refl _, by simp, by simp [entryAddr]⟩

theorem AtEntry.samePackage (h : AtEntry s k u) : SamePackage s u :=
  (samePackage_opened s).trans h.frame.samePackage

theorem AtEntry.phase (h : AtEntry s k u) : u.status.phase = .iter := by
  rw [h.frame]
  rfl

theorem AtEntry.count (h : AtEntry s k u) : u.toc.count = s.countField := by
  rw [h.frame, opened_toc]

theorem AtEntry.dataOff (h : AtEntry s k u) : u.toc.dataOff = s.dataOffField := by
  rw [h.frame, opened_toc]

theorem AtEntry.idx_ne_count (h : AtEntry s k u) (hk : k < s.countField.toNat) : u.toc.idx ≠ u.toc.count := by
  intro heq
  have := h.idx
  rw [heq, h.count] at this
  omega

theorem AtEntry.idx_eq_count (h : AtEntry s s.countField.toNat u) : u.toc.idx = u.toc.count :=
  BitVec.eq_of_toNat_eq (by rw [h.idx, h.count])

/-- The entry at CUR is entry `k` of the table. -/
theorem AtEntry.entryOk_iff (h : AtEntry s k u) : EntryOk u u.toc.dataOff u.toc.cur.toNat ↔ EntryGood s k := by
  rw [h.samePackage.entryOk, h.dataOff, h.cur, EntryGood]

/-- Yielding an entry moves on to the next; the index does not wrap below COUNT (log 11). -/
theorem AtEntry.succ (h : AtEntry s k u) (hk : k < s.countField.toNat) (hy : EntryYielded u v) :
    AtEntry s (k + 1) v where
  frame := h.frame.trans hy.sameButCursor
  idx := by
    have hidx := h.idx
    have hlt := s.countField.isLt
    rw [hy.frame]
    bv_omega
  cur := by rw [hy.cur, h.samePackage.nextEntry, h.cur]; rfl

/-! ### The loop of SCAN -/

theorem scanEntries_entry (hidx : s.toc.idx ≠ s.toc.count) (n : Nat) :
    scanEntries (n + 1) s = (entryStep s).andThen (scanEntries n) := by
  rw [scanEntries_succ, if_neg hidx, entryStep_clearDescriptor]

/-- After `m` good entries the loop stands at entry `m`, with `m` turns taken (41_container_commands R156). -/
theorem scanEntries_after (hm : m ≤ s.countField.toNat) (hgood : EntriesGood s m) :
    ∃ v, AtEntry s m v ∧ ∀ n, scanEntries (m + n) (opened s) = scanEntries n v := by
  induction m with
  | zero => exact ⟨_, atEntry_opened s, fun n => by rw [Nat.zero_add]⟩
  | succ m ih =>
    obtain ⟨hgood, hlast⟩ := hgood.of_succ
    obtain ⟨u, hu, hloop⟩ := ih (Nat.le_of_succ_le hm) hgood
    obtain ⟨v, hv, hy⟩ := entryStep_good (hu.entryOk_iff.2 hlast)
    refine ⟨v, hu.succ hm hy, fun n => ?_⟩
    rw [Nat.add_right_comm, Nat.add_assoc, hloop, scanEntries_entry (hu.idx_ne_count hm), hv, Flow.andThen_running]

/-! ### The three ways SCAN ends -/

theorem scanCmd_bad_header (h : ¬HeaderOk c s) : scanCmd c s = headerStep c s := by
  obtain ⟨u, hu⟩ := headerStep_bad h
  rw [scanCmd, hu, Flow.andThen_raised]

theorem scanCmd_good_header (h : HeaderOk c s) : scanCmd c s =
    (scanEntries s.countField.toNat (opened s)).andThen fun u => .running u.clearDescriptor.openTable := by
  rw [scanCmd, headerStep_ok h, ← opened, Flow.andThen_running, opened_toc]

theorem scanCmd_good (h : HeaderOk c s) (hgood : EntriesGood s s.countField.toNat) :
    scanCmd c s = .running (opened s) := by
  obtain ⟨v, hv, hloop⟩ := scanEntries_after (Nat.le_refl _) hgood
  have hend : scanEntries s.countField.toNat (opened s) = .running v := hloop 0
  rw [scanCmd_good_header h, hend, Flow.andThen_running, hv.frame]
  rfl

/-- A bad entry ends the scan in error entry with the cursor and the index at it (60_exceptions R243). -/
theorem scanCmd_bad_entry (h : HeaderOk c s) (hk : k < s.countField.toNat) (hgood : EntriesGood s k)
    (hbad : ¬EntryGood s k) : ∃ v, AtEntry s k v ∧
      scanCmd c s = v.stop (entryError s (entryAddr s s.tableOffField.toNat k)) v.toc.idx := by
  obtain ⟨v, hv, hloop⟩ := scanEntries_after hk.le hgood
  obtain ⟨n, hn⟩ := Nat.exists_eq_add_of_lt hk
  refine ⟨v, hv, ?_⟩
  rw [scanCmd_good_header h, hn, Nat.add_assoc, hloop, scanEntries_entry (hv.idx_ne_count hk),
    entryStep_bad (mt hv.entryOk_iff.1 hbad), hv.samePackage.entryError, hv.cur]
  rfl

theorem scanCmd_running (h : scanCmd c s = .running t) :
    HeaderOk c s ∧ EntriesGood s s.countField.toNat ∧ t = opened s := by
  by_cases hok : HeaderOk c s
  · obtain hgood | ⟨k, hk, hgood, hbad⟩ := entriesGood_or_first_bad s s.countField.toNat
    · rw [scanCmd_good hok hgood] at h
      injection h with h
      exact ⟨hok, hgood, h.symm⟩
    · obtain ⟨v, -, hv⟩ := scanCmd_bad_entry hok hk hgood hbad
      rw [hv] at h
      exact nomatch h
  · obtain ⟨u, hu⟩ := headerStep_bad hok
    rw [scanCmd_bad_header hok, hu] at h
    exact nomatch h

/-- The code of the first failing check of an entry (60_exceptions R231, R243). -/
theorem entryError_code (s : State) (cu : Nat) : (entryError s cu).code =
    if s.len.toNat < cu + 4 ∨ s.len.toNat < cu + 4 + (s.plenField cu).toNat then 0x22#8
    else if hasDotDot (s.pathField cu (s.plenField cu).toNat) = true then 0x23#8
    else if s.len.toNat < cu + 12 + (s.plenField cu).toNat then 0x22#8
    else 0x24#8 := by
  by_cases hpath : s.len.toNat < cu + 4 + (s.plenField cu).toNat
  · rw [entryError_path hpath, if_pos (.inr hpath)]
    rfl
  rw [if_neg (by omega)]
  cases hdot : hasDotDot (s.pathField cu (s.plenField cu).toNat) with
  | true => rw [entryError_dotDot (Nat.not_lt.1 hpath) hdot, if_pos rfl]; rfl
  | false =>
    rw [if_neg Bool.false_ne_true]
    by_cases hfields : s.len.toNat < cu + 12 + (s.plenField cu).toNat
    · rw [entryError_fields hdot hfields, if_pos hfields]
      rfl
    · rw [entryError_range hdot (Nat.not_lt.1 hfields), if_neg hfields]
      rfl

/-! ### A run of commands NEXT -/

theorem runCommands_cons (h : exec i s = .next t) (is : List Instr) : runCommands (i :: is) s = runCommands is t := by
  rw [runCommands, h]

/-- One more command after a run of equal ones. -/
theorem replicate_succ_append (i : Instr) (m : Nat) (is : List Instr) :
    List.replicate (m + 1) i ++ is = List.replicate m i ++ i :: is := by
  rw [List.replicate_succ', List.append_assoc, List.singleton_append]

/-- After `m` commands `NEXT` over good entries the engine stands at entry `m` (41_container_commands R146). -/
theorem runCommands_after (hm : m ≤ s.countField.toNat) (hgood : EntriesGood s m) :
    ∃ v, AtEntry s m v ∧ ∀ is, runCommands (List.replicate m .next ++ is) (opened s) = runCommands is v := by
  induction m with
  | zero => exact ⟨_, atEntry_opened s, fun is => rfl⟩
  | succ m ih =>
    obtain ⟨hgood, hlast⟩ := hgood.of_succ
    obtain ⟨u, hu, hrun⟩ := ih (Nat.le_of_succ_le hm) hgood
    obtain ⟨v, hv, hy⟩ := exec_next_good hu.phase (hu.idx_ne_count hm) (hu.entryOk_iff.2 hlast)
    exact ⟨v, hu.succ hm hy, fun is => by rw [replicate_succ_append, hrun, runCommands_cons hv]⟩

/-- Below COUNT, the `k+1`st `NEXT` yields the entry at which the `k` before it left the engine. -/
theorem runCommands_yields (hk : k < s.countField.toNat) (hgood : EntriesGood s (k + 1)) :
    ∃ v u, AtEntry s k v ∧ EntryYielded v u ∧ runCommands (List.replicate (k + 1) .next) (opened s) = .next u := by
  obtain ⟨hgood, hlast⟩ := hgood.of_succ
  obtain ⟨v, hv, hrun⟩ := runCommands_after hk.le hgood
  obtain ⟨u, hu, hy⟩ := exec_next_good hv.phase (hv.idx_ne_count hk) (hv.entryOk_iff.2 hlast)
  exact ⟨v, u, hv, hy, by rw [List.replicate_succ', hrun, runCommands_cons hu, runCommands]⟩

/-- One `NEXT` more than there are entries finds the end (41_container_commands R146). -/
theorem runCommands_ends (hgood : EntriesGood s s.countField.toNat) :
    ∃ v, AtEntry s s.countField.toNat v ∧
      runCommands (List.replicate (s.countField.toNat + 1) .next) (opened s) =
        .next (v.clearDescriptor.setPhase .ended) := by
  obtain ⟨v, hv, hrun⟩ := runCommands_after (Nat.le_refl _) hgood
  have hend : exec .next v = .next (v.clearDescriptor.setPhase .ended) := by
    rw [exec_next_run (by simp [hv.phase]), nextCmd_last hv.phase hv.idx_eq_count, Flow.state_running]
  exact ⟨v, hv, by rw [List.replicate_succ', hrun, runCommands_cons hend, runCommands]⟩

end Sys2Proof.Machine

open Sys2Proof Sys2Proof.Machine

/-- Settles O41: the loop passes every good entry and then opens the table again; a bad one would have raised. -/
theorem scanSucceedsExactlyOnAGoodTable : Obligations.ScanSucceedsExactlyOnAGoodTable := by
  intro s hs
  refine ⟨fun ⟨hok, hgood⟩ => ⟨opened s, ?_, ?_, by rw [opened_eq]⟩, fun t h hiter => ?_⟩
  · rw [exec_scan_run hs, scanCmd_good hok hgood, Flow.state_running]
  · rw [exec_parseHdr_run hs, headerStep_ok hok, Flow.state_running, opened]
  · obtain ⟨hok, hgood, -⟩ := scanCmd_running (running_of_exec (by decide) h (by simp [hiter]))
    exact ⟨hok, hgood⟩

/-- Settles O42: a successful scan has found every entry good, so each `NEXT` yields and the one after the last ends. -/
theorem scanPromisesCountEntriesThenEnd : Obligations.ScanPromisesCountEntriesThenEnd := by
  intro s t _ h hiter
  obtain ⟨-, hgood, rfl⟩ := scanCmd_running (running_of_exec (by decide) h (by simp [hiter]))
  have hentry : ∀ k, entryAddr (opened s) (opened s).toc.tabOff.toNat k = entryAddr s s.tableOffField.toNat k :=
    fun k => by rw [(samePackage_opened s).entryAddr, opened_toc]
  have hcount : (opened s).toc.count = s.countField := by rw [opened_toc]
  rw [hcount]
  refine ⟨fun k hk => ?_, ?_⟩
  · obtain ⟨v, u, hv, hy, hrun⟩ := runCommands_yields hk fun j hj => hgood j (Nat.lt_of_lt_of_le hj hk)
    have hnext := hv.succ hk hy
    have hdata : v.toc.dataOff = (opened s).toc.dataOff := by rw [hv.dataOff, opened_toc]
    intro cu n
    have hcu : v.toc.cur.toNat = cu := hv.cur.trans (hentry k).symm
    have hbe : ∀ a, v.be32 .dec a = (opened s).be32 .dec a := hv.frame.samePackage.be32
    refine ⟨u, hrun, ?_, hnext.idx, ?_, ?_, ?_, ?_, ?_, ?_⟩
    · rw [hy.frame, hv.frame]
    · rw [hnext.cur, hentry]
    · rw [hy.pathOff, hcu]
    · rw [hy.pathLen, hcu, hbe]
    · rw [hy.off, hcu, hbe, hbe]
    · rw [hy.len, hcu, hbe, hbe]
    · rw [hy.start, hy.off, hcu, hbe, hbe, hdata]
  · obtain ⟨v, hv, hrun⟩ := runCommands_ends hgood
    refine ⟨_, hrun, ?_, hv.cur.trans (hentry _).symm⟩
    rw [← hv.idx_eq_count.trans hv.count, hv.frame]
    rfl

/-- Settles O43: the loop stands at the first bad entry when it raises, and a raise keeps the cursor and the index. -/
theorem scanReportsTheFirstBadEntry : Obligations.ScanReportsTheFirstBadEntry := by
  intro s hs
  refine ⟨fun hbad => ?_, fun k hok hk hgood hbad => ?_⟩
  · rw [exec_scan_run hs, exec_parseHdr_run hs, scanCmd_bad_header hbad]
  · obtain ⟨v, hv, hscan⟩ := scanCmd_bad_entry hok hk hgood hbad
    intro cu n
    refine ⟨v.raise (entryError s cu) v.toc.idx, ?_, ?_, hv.cur, hv.idx, entryError_code s cu⟩
    · rw [exec_scan_run hs, hscan, State.stop, Flow.state_raised]
    · rw [hv.frame, opened_eq]
      rfl

end

section
/-! PROOFS, 42_control_and_host. Every command and every transaction of this engine answers a next state and takes
nothing off the host's sequence itself; the two control commands. -/

namespace Sys2Proof.Machine

variable {s t : State} {i : Instr} {x : Transaction} {rest : List Transaction} {off : Nat} {w : Word}

/-! ### Commands -/

theorem exec_completes (i : Instr) (s : State) : ∃ t, exec i s = .next t := by
  by_cases hi : i = .clear
  · exact ⟨s.clearAll, hi ▸ exec_clear s⟩
  · exact ⟨_, exec_of_ne_clear hi s⟩

theorem exec_inbox (h : exec i s = .next t) : t.inbox = s.inbox := by
  obtain ⟨-, -, -, hinbox, -⟩ := commandsLeaveTheRestUnchanged i s t h
  exact hinbox

theorem unlessFault_running (s : State) : unlessFault .running s = s := ite_self s

theorem illegalWord_inbox (w : Word) (s : State) : (illegalWord w s).inbox = s.inbox := by
  by_cases h : s.status.phase = .fault
  · rw [illegalWord_fault h]
  · rw [illegalWord_run h, State.raise_inbox]

theorem execWord_completes (w : Word) (s : State) : ∃ t, execWord w s = .next t ∧ t.inbox = s.inbox := by
  cases hd : decode w with
  | error e => exact ⟨_, execWord_of_error hd s, illegalWord_inbox w s⟩
  | ok i =>
    obtain ⟨t, ht⟩ := exec_completes i s
    exact ⟨t, (execWord_of_ok hd s).trans ht, exec_inbox ht⟩

/-! ### Transactions -/

/-- A register transaction at an offset that is no multiple of 4 (20_memory R66). -/
def Misaligned (off : Nat) (x : Transaction) : Prop :=
  off % 4 ≠ 0 ∧ (x = .regRead off ∨ ∃ v, x = .regWrite off v)

theorem wf_or_misaligned (x : Transaction) : x.wf = true ∨ ∃ off, Misaligned off x := by
  cases x with
  | regRead off =>
    by_cases h : off % 4 = 0
    · exact .inl (beq_iff_eq.2 h)
    · exact .inr ⟨off, h, .inl rfl⟩
  | regWrite off v =>
    by_cases h : off % 4 = 0
    · exact .inl (beq_iff_eq.2 h)
    · exact .inr ⟨off, h, .inr ⟨v, rfl⟩⟩
  | hwReset | rawWrite | rawRead | decWrite | decRead | keyWrite | seedWrite => exact .inl rfl

theorem transact_misaligned (h : Misaligned off x) (s : State) : transact x s = .refused (.notATransaction off) := by
  obtain ⟨hoff, rfl | ⟨v, rfl⟩⟩ := h
  · exact if_neg hoff
  · exact if_neg hoff

theorem transact_regRead (h : off % 4 = 0) (s : State) :
    transact (.regRead off) s = .next (s.answer (.word (s.regValue off))) := if_pos h

theorem transact_command (w : Word) (s : State) : transact (.regWrite 0x00 w) s = execWord w s := rfl

theorem transact_regWrite (h : off % 4 = 0) (hcmd : off ≠ 0x00) (w : Word) (s : State) :
    transact (.regWrite off w) s = .next (s.storeReg off w) := by
  rw [transact, if_pos h, if_neg hcmd]

/-- A transaction of this engine has a next state in every state (42_control_and_host R183). -/
theorem transact_completes (hx : x.wf = true) (s : State) : ∃ t, transact x s = .next t ∧ t.inbox = s.inbox := by
  cases x with
  | hwReset => exact ⟨_, rfl, State.hwReset_inbox s⟩
  | regRead off => exact ⟨_, transact_regRead (beq_iff_eq.1 hx) s, State.answer_inbox ..⟩
  | regWrite off w =>
    by_cases hcmd : off = 0x00
    · subst hcmd
      exact execWord_completes w s
    · exact ⟨_, transact_regWrite (beq_iff_eq.1 hx) hcmd w s, State.storeReg_inbox ..⟩
  | rawWrite | decWrite | keyWrite | seedWrite => exact ⟨_, rfl, State.hostWrite_inbox ..⟩
  | rawRead | decRead => exact ⟨_, rfl, State.answer_inbox ..⟩

/-! ### Steps -/

theorem step_of_inbox_nil (h : s.inbox = []) : step s = .next s := by
  simp only [step, serve, h]

theorem step_completes (hs : s.inbox = x :: rest) (hx : x.wf = true) : ∃ t, step s = .next t ∧ t.inbox = rest := by
  rw [step_eq_transact hs]
  exact transact_completes hx (s.takeInbox rest)

theorem step_refused_iff {r : Refusal} :
    step s = .refused r ↔ ∃ off x rest, r = .notATransaction off ∧ Misaligned off x ∧ s.inbox = x :: rest := by
  refine ⟨fun h => ?_, fun ⟨off, x, rest, hr, hx, hs⟩ => by rw [step_eq_transact hs, transact_misaligned hx, hr]⟩
  cases hs : s.inbox with
  | nil =>
    rw [step_of_inbox_nil hs] at h
    nomatch h
  | cons x rest =>
    obtain hx | ⟨off, hx⟩ := wf_or_misaligned x
    · obtain ⟨t, ht, -⟩ := step_completes hs hx
      rw [ht] at h
      nomatch h
    · rw [step_eq_transact hs, transact_misaligned hx] at h
      injection h with h
      exact ⟨off, x, rest, h.symm, hx, rfl⟩

/-- As many steps as there are transactions serve a sequence, from any state it waits in. -/
theorem run_serves (ts : List Transaction) (hwf : ∀ x ∈ ts, x.wf = true) (hs : s.inbox = ts) :
    ∃ t : State, Sys2Proof.core.run ts.length s = .next t ∧ t.inbox = [] := by
  induction ts generalizing s with
  | nil => exact ⟨s, rfl, hs⟩
  | cons x rest ih =>
    obtain ⟨hx, hrest⟩ := List.forall_mem_cons.1 hwf
    obtain ⟨u, hu, hinbox⟩ := step_completes hs hx
    obtain ⟨t, ht, hnone⟩ := ih hrest hinbox
    exact ⟨t, (core_run_next Sys2Proof.core rest.length hu).trans ht, hnone⟩

end Sys2Proof.Machine

open Sys2Proof Sys2Proof.Machine

/-- Settles O9: a transaction is either one of this engine, and then answers a next state, or a misaligned one. -/
theorem stepTakesEveryTransaction : Obligations.StepTakesEveryTransaction := by
  refine fun s => ⟨nofun, fun r => step_refused_iff.trans ⟨?_, ?_⟩, fun x rest hs hx => step_completes hs hx⟩
  · rintro ⟨off, x, rest, hr, ⟨hoff, hx⟩, hs⟩
    refine ⟨off, rest, hoff, hr, ?_⟩
    rw [hs]
    simpa using hx
  · rintro ⟨off, rest, hoff, hr, hs | ⟨v, hs⟩⟩
    · exact ⟨off, _, rest, hr, ⟨hoff, .inl rfl⟩, hs⟩
    · exact ⟨off, _, rest, hr, ⟨hoff, .inr ⟨v, rfl⟩⟩, hs⟩

/-- Settles O10, by induction on the waiting transactions. -/
theorem everySequenceOfTransactionsIsServed : Obligations.EverySequenceOfTransactionsIsServed :=
  fun s hwf => run_serves s.inbox hwf rfl

/-- Settles O8, by the equation of a step with none waiting. -/
theorem nothingMovesWithoutATransaction : Obligations.NothingMovesWithoutATransaction := fun _ => step_of_inbox_nil

/-- Settles O44: `CLEAR` and the flow of every other command end in a state. -/
theorem everyCommandCompletes : Obligations.EveryCommandCompletes := exec_completes

/-- Settles O23: in FAULT and outside it the empty flow leaves the state. -/
theorem nopChangesNothing : Obligations.NopChangesNothing := fun s => by rw [exec_nop, unlessFault_running]

/-- Settles O24, from the reset values: RAW, DEC and the model's own fields apart, a cleared state is the reset state. -/
theorem clearZeroesAllButTheBuffers : Obligations.ClearZeroesAllButTheBuffers := by
  intro s
  obtain ⟨hstatus, -, -, -, -, -, hlen, hxlen, hcount, htabOff, hdataOff, hcur, hidx, hpathOff, hpathLen, hoff, hdlen,
    hstart, hinfo, hkey, hxseed⟩ := resetSetsEveryRegisterToZero
  exact ⟨s.clearAll, exec_clear s, rfl, hstatus, hlen, hxlen, hcount, htabOff, hdataOff, hcur, hidx, hpathOff,
    hpathLen, hoff, hdlen, hstart, hinfo, hkey, hxseed, State.byteAt_congr rfl rfl, State.byteAt_congr rfl rfl⟩

end

section
/-! PROOFS, 42_control_and_host. What each transaction does to the register or the space it names, and that it reaches
nothing else. -/

namespace Sys2Proof.Machine

variable {c : Cfg} {s : State} {sp : Space} {x : Transaction} {rest : List Transaction} {off a : Nat} {b : Byte}

/-! ### Registers -/

/-- CMD and every offset behind the last register read 0 (10_state R22, R31; log 9). -/
theorem regValue_reserved (h : off = 0x00 ∨ 0x3C ≤ off) (s : State) : s.regValue off = 0x00000000#32 := by
  simp (disch := omega) only [State.regValue, if_neg]

theorem storeReg_len_idle (h : s.status.phase = .idle) (v : Word) : s.storeReg 0x08 v = { s with len := v } :=
  if_pos h

theorem storeReg_xlen_idle (h : s.status.phase = .idle) (v : Word) : s.storeReg 0x0C v = { s with xlen := v } :=
  if_pos h

/-- LEN and XLEN are locked outside IDLE, and no other register takes a store (42_control_and_host R185). -/
theorem storeReg_ignored (h : s.status.phase ≠ .idle ∨ (off ≠ 0x08 ∧ off ≠ 0x0C)) (v : Word) :
    s.storeReg off v = s := by
  unfold State.storeReg
  obtain hp | ⟨hlen, hxlen⟩ := h
  · rw [if_neg hp]
  · rw [if_neg hlen, if_neg hxlen, ite_self]

/-! ### Byte spaces -/

theorem withCells_self (s : State) (sp : Space) : s.withCells sp (s.cells sp) = s := by
  cases sp <;> rfl

/-- A host write reaches the cells of its space alone (42_control_and_host R186 to R189). -/
theorem hostWrite_eq_withCells (c : Cfg) (s : State) (sp : Space) (a : Nat) (b : Byte) :
    ∃ m, s.hostWrite c sp a b = s.withCells sp m := by
  unfold State.hostWrite
  split
  · exact ⟨_, rfl⟩
  · exact ⟨_, (withCells_self s sp).symm⟩

/-- Read after write in one space: the written address holds the byte, every other one what it held. -/
def ReadsBack (s : State) (sp : Space) : Prop :=
  ∀ a b x, (s.setByte sp a b).byteAt sp x = if x = a then b else s.byteAt sp x

theorem readsBack_raw (s : State) : ReadsBack s .raw := State.byteAt_setByte_raw s

theorem readsBack_dec (s : State) : ReadsBack s .dec := State.byteAt_setByte_dec s

theorem readsBack_of_wf (h : Memory.wf sp.blank (s.cells sp)) : ReadsBack s sp := by
  intro a b x
  split_ifs with hx
  · rw [hx, State.byteAt_setByte_self h]
  · exact State.byteAt_setByte_ne b (.inr hx)

theorem byteAt_hostWrite (h : ReadsBack s sp) (c : Cfg) (a : Nat) (b : Byte) (x : Nat) :
    (s.hostWrite c sp a b).byteAt sp x = if x = a ∧ a < sp.size c then b else s.byteAt sp x := by
  unfold State.hostWrite
  split
  · next ha => simp only [h a b x, ha, and_true]
  · next ha => simp only [ha, and_false, if_false]

/-- A step that takes a byte write: the cells of the space alone change, and of its bytes the written one alone, if it
lies in the space (20_memory R69). -/
theorem step_hostWrite (hs : s.inbox = x :: rest) (hx : ∀ u, transact x u = .next (u.hostWrite wde1 sp a b))
    (h : ReadsBack (s.takeInbox rest) sp) :
    ∃ m, step s = .next ((s.takeInbox rest).withCells sp m) ∧
      ∀ y, ((s.takeInbox rest).withCells sp m).byteAt sp y = if y = a ∧ a < sp.size wde1 then b else s.byteAt sp y := by
  obtain ⟨m, hm⟩ := hostWrite_eq_withCells wde1 (s.takeInbox rest) sp a b
  refine ⟨m, by rw [step_eq_transact hs, hx, hm], fun y => ?_⟩
  rw [← hm, byteAt_hostWrite h, State.byteAt_takeInbox]

end Sys2Proof.Machine

open Sys2Proof Sys2Proof.Machine

/-- Settles O14: a step's frame and bytes from those of a host write, and no command writes RAW (O45). -/
theorem rawTransactionsReachRawAlone : Obligations.RawTransactionsReachRawAlone := by
  refine ⟨fun s a b rest hs => ?_, fun s a rest hs => step_eq_transact hs, fun i s t h => ?_⟩
  · obtain ⟨m, hstep, hbyte⟩ := step_hostWrite hs (fun _ => rfl) (readsBack_raw _)
    exact ⟨_, hstep, rfl, hbyte⟩
  · obtain ⟨hraw, -⟩ := commandsLeaveTheRestUnchanged i s t h
    exact hraw

/-- Settles O15: a step of the host write whose space is DEC; a read answers and writes nothing. -/
theorem decTransactionsReachDecAlone : Obligations.DecTransactionsReachDecAlone := by
  refine ⟨fun s a b rest hs => ?_, fun s a rest hs => step_eq_transact hs⟩
  obtain ⟨m, hstep, hbyte⟩ := step_hostWrite hs (fun _ => rfl) (readsBack_dec _)
  exact ⟨_, hstep, rfl, hbyte⟩

/-- Settles O16: KEY and XSEED list no 0x00, so read after write needs the canonical form. -/
theorem keyAndSeedWritesStoreInRange : Obligations.KeyAndSeedWritesStoreInRange := by
  refine ⟨fun s i b rest hwf hs => ?_, fun s i b rest hwf hs => ?_⟩
  · obtain ⟨m, hstep, hbyte⟩ := step_hostWrite hs (fun _ => rfl) (readsBack_of_wf (sp := .key) hwf)
    exact ⟨_, hstep, rfl, hbyte⟩
  · obtain ⟨m, hstep, hbyte⟩ := step_hostWrite hs (fun _ => rfl) (readsBack_of_wf (sp := .xseed) hwf)
    exact ⟨_, hstep, rfl, hbyte⟩

/-- Settles O12: each register at its own offset, and 0 at the offsets of none. -/
theorem regReadReturnsTheRegister : Obligations.RegReadReturnsTheRegister := by
  intro s off rest hs halign
  have hstep : step s = .next { s with inbox := rest, reply := some (.word (s.regValue off)) } :=
    (step_eq_transact hs).trans (transact_regRead halign (s.takeInbox rest))
  refine ⟨s.regValue off, hstep, ?_, ?_, ?_, ?_, ?_, ?_, ?_, ?_, ?_, ?_, ?_, ?_, ?_, ?_, fun h => regValue_reserved h s⟩
  all_goals
    rintro rfl
    rfl

/-- Settles O13, from what a store does in IDLE and where it is ignored. -/
theorem regWriteStoresLenAndXlenInIdle : Obligations.RegWriteStoresLenAndXlenInIdle := by
  intro s off v rest hs halign
  have hstore (hcmd : off ≠ 0x00) : step s = .next ((s.takeInbox rest).storeReg off v) :=
    (step_eq_transact hs).trans (transact_regWrite halign hcmd v _)
  refine ⟨?_, ?_, ?_, fun hcmd hkept => ?_⟩
  · rintro rfl
    exact (step_eq_transact hs).trans (transact_command v _)
  · rintro rfl hidle
    rw [hstore (by decide), storeReg_len_idle (s := s.takeInbox rest) hidle, State.takeInbox]
  · rintro rfl hidle
    rw [hstore (by decide), storeReg_xlen_idle (s := s.takeInbox rest) hidle, State.takeInbox]
  · rw [hstore hcmd, storeReg_ignored (s := s.takeInbox rest) hkept, State.takeInbox]

/-- Settles O18: no space lists a byte after `HwReset`, so every byte reads as what an unlisted one holds. -/
theorem hwResetSetsTheResetState : Obligations.HwResetSetsTheResetState :=
  fun s rest hs => ⟨(s.takeInbox rest).hwReset, step_eq_transact hs, rfl, fun _ => rfl, fun _ => rfl, fun _ => rfl,
    fun _ => rfl⟩

end

section
/-! PROOFS, 43_block_cipher_aes. The cipher undoes the inverse cipher, the substitution box from the field's inverse,
and a check value. -/

namespace Sys2Proof.Machine.Aes

/-! ### Finite types -/

theorem finite_byte : Finite Byte := Finite.of_injective BitVec.toFin fun _ _ => BitVec.eq_of_toFin_eq

theorem finite_col : Finite Col :=
  have := finite_byte
  Finite.of_injective (fun u : Col => (u.a0, u.a1, u.a2, u.a3)) fun u v h => by cases u; cases v; simpa using h

theorem finite_block : Finite Block :=
  have := finite_col
  Finite.of_injective (fun s : Block => (s.c0, s.c1, s.c2, s.c3)) fun s t h => by cases s; cases t; simpa using h

/-- On a finite type a map with a left inverse is a permutation, so that its left inverse is a right inverse as well. -/
theorem rightInverse_of_finite {α : Type} [Finite α] {f g : α → α} (h : Function.LeftInverse f g) :
    Function.RightInverse f g :=
  h.rightInverse_of_surjective (Finite.surjective_of_injective h.injective)

/-! ### The cipher after its inverse -/

theorem encState_decState (w : List Col) (s : Block) : encState w (decState w s) = s :=
  have := finite_block
  rightInverse_of_finite (decState_encState w) s

/-- `BlockEnc` undoes `BlockDec`, for every key (R209, R210). -/
theorem blockEnc_blockDec (key : List Byte) {block : List Byte} (h : block.length = 16) :
    blockEnc key (blockDec key block) = block := by
  rw [blockEnc, blockDec, ofBytes_toBytes, encState_decState, toBytes_ofBytes h]

/-! ### The substitution box -/

/-- `SBox` undoes `InvSBox` (R203). -/
theorem sbox_invSbox (a : Byte) : sbox (invSbox a) = a :=
  have := finite_byte
  rightInverse_of_finite invSbox_sbox a

/-- The affine map of R203: a byte plus its rotations left by 1 to 4, plus 0x63. -/
def affine (b : Byte) : Byte :=
  b ^^^ b.rotateLeft 1 ^^^ b.rotateLeft 2 ^^^ b.rotateLeft 3 ^^^ b.rotateLeft 4 ^^^ 0x63#8

/-- The inverse of the affine map, which gives the `b` of R203 from `SBox(a)`. -/
def affineInv (c : Byte) : Byte := c.rotateLeft 1 ^^^ c.rotateLeft 3 ^^^ c.rotateLeft 6 ^^^ 0x05#8

theorem affine_affineInv : ∀ c : Byte, affine (affineInv c) = c := by decide +kernel

theorem affineInv_sbox_zero : affineInv (sbox 0x00#8) = 0x00#8 := by decide +kernel

/-- What the table of R203 holds at `a` is the affine image of the inverse of `a` in the field (R202). -/
theorem mul_affineInv_sbox : ∀ a : Byte, a ≠ 0x00#8 → mul a (affineInv (sbox a)) = 0x01#8 := by decide +kernel

end Sys2Proof.Machine.Aes

open Sys2Proof Sys2Proof.Machine

/-- Settles O33: the cipher permutes the finitely many states, so its inverse is one on either side. -/
theorem blockDecIsABijection : Obligations.BlockDecIsABijection :=
  fun key _ h => ⟨Aes.blockDec_blockEnc key h, Aes.blockEnc_blockDec key h⟩

/-- Settles O34: the inverse affine map, applied to the table's entry, gives the inverse in the field. -/
theorem sBoxIsTheAffineImageOfTheInverse : Obligations.SBoxIsTheAffineImageOfTheInverse := by
  refine fun a => ⟨⟨Aes.affineInv (Aes.sbox a), ?_, Aes.mul_affineInv_sbox a, (Aes.affine_affineInv _).symm⟩,
    Aes.invSbox_sbox a, Aes.sbox_invSbox a⟩
  rintro rfl
  exact Aes.affineInv_sbox_zero

/-- Settles O35, by running the inverse cipher on the two constants. -/
theorem blockDecOfZeroUnderZero : Obligations.BlockDecOfZeroUnderZero := by
  unfold Obligations.BlockDecOfZeroUnderZero
  decide +kernel

end

section
/-! PROOFS, 60_exceptions. The nine codes, error entry, and what leaves FAULT. -/

namespace Sys2Proof.Machine

variable {s t : State} {x : Transaction} {off : Nat}

/-! ### What a transaction in FAULT keeps -/

/-- `t` has the registers of `s`: what an error latches and what FAULT holds on to (60_exceptions R241). -/
def SameRegisters (s t : State) : Prop :=
  t.status = s.status ∧ t.errInfo = s.errInfo ∧ t.toc = s.toc ∧ t.desc = s.desc ∧ t.len = s.len ∧ t.xlen = s.xlen

theorem SameRegisters.refl (s : State) : SameRegisters s s := ⟨rfl, rfl, rfl, rfl, rfl, rfl⟩

theorem sameRegisters_answer (s : State) (r : Reply) : SameRegisters s (s.answer r) := .refl s

theorem sameRegisters_hostWrite (c : Cfg) (s : State) (sp : Space) (a : Nat) (b : Byte) :
    SameRegisters s (s.hostWrite c sp a b) :=
  ⟨State.hostWrite_status .., State.hostWrite_errInfo .., State.hostWrite_toc .., State.hostWrite_desc ..,
    State.hostWrite_len .., State.hostWrite_xlen ..⟩

/-- LEN and XLEN are locked in FAULT (42_control_and_host R185). -/
theorem storeReg_fault (hs : s.status.phase = .fault) (off : Nat) (v : Word) : s.storeReg off v = s :=
  storeReg_ignored (.inl (by simp [hs])) v

/-- A register write in FAULT that does not carry the word of `CLEAR` changes nothing. -/
theorem transact_regWrite_fault {v : Word} (hs : s.status.phase = .fault) (halign : off % 4 = 0)
    (hclear : ¬(off = 0x00 ∧ v = encode .clear)) : transact (.regWrite off v) s = .next s := by
  by_cases hcmd : off = 0x00
  · subst hcmd
    rw [transact_command, execWord_fault hs fun hv => hclear ⟨rfl, hv⟩]
  · rw [transact_regWrite halign hcmd, storeReg_fault hs]

/-- Of the nine transactions `HwReset` and the word of `CLEAR` alone touch the registers in FAULT (60_exceptions R241,
R244). -/
theorem transact_fault (hs : s.status.phase = .fault) (h : transact x s = .next t) :
    SameRegisters s t ∨ x = .hwReset ∨ x = .regWrite 0x00 (encode .clear) := by
  obtain hx | ⟨off, hx⟩ := wf_or_misaligned x
  case inr =>
    rw [transact_misaligned hx] at h
    nomatch h
  cases x with
  | hwReset => exact .inr (.inl rfl)
  | regRead off =>
    rw [transact_regRead (beq_iff_eq.1 hx)] at h
    injection h with h
    exact .inl (h ▸ sameRegisters_answer ..)
  | regWrite off v =>
    by_cases hclear : off = 0x00 ∧ v = encode .clear
    · obtain ⟨rfl, rfl⟩ := hclear
      exact .inr (.inr rfl)
    · rw [transact_regWrite_fault hs (beq_iff_eq.1 hx) hclear] at h
      injection h with h
      exact .inl (h ▸ .refl s)
  | rawWrite | decWrite | keyWrite | seedWrite =>
    injection h with h
    exact .inl (h ▸ sameRegisters_hostWrite ..)
  | rawRead | decRead =>
    injection h with h
    exact .inl (h ▸ sameRegisters_answer ..)

/-! ### The nine causes -/

/-- The rows of the table of 60_exceptions R231. -/
def errCauses : List ErrCause :=
  [.truncated, .badPadding, .badMagic, .truncatedTable, .pathTraversal, .entryRange, .illegalCmd, .sequence, .config]

theorem mem_errCauses (e : ErrCause) : e ∈ errCauses := by cases e <;> decide

theorem nodup_codes : (errCauses.map ErrCause.code).Nodup := by decide

theorem ErrCause.code_injective : Function.Injective ErrCause.code := fun e f h =>
  List.inj_on_of_nodup_map nodup_codes (mem_errCauses e) (mem_errCauses f) h

end Sys2Proof.Machine

open Sys2Proof Sys2Proof.Machine

/-- Settles O21: taking the transaction off the host's sequence touches no register, so the step is that of the
transaction in FAULT. -/
theorem faultIsLeftByClearOrResetAlone : Obligations.FaultIsLeftByClearOrResetAlone := by
  intro s t hs h
  cases hinbox : s.inbox with
  | nil =>
    rw [step_of_inbox_nil hinbox] at h
    injection h with h
    exact .inl (h ▸ SameRegisters.refl s)
  | cons x rest =>
    rw [step_eq_transact hinbox] at h
    obtain hkept | rfl | rfl := transact_fault (s := s.takeInbox rest) hs h
    · exact .inl hkept
    · exact .inr ⟨rest, .inl rfl⟩
    · exact .inr ⟨rest, .inr rfl⟩

/-- Settles O19: the fields that error entry sets are those of its definition, with the cleared descriptor written
out. -/
theorem errorEntryLatchesAndClears : Obligations.ErrorEntryLatchesAndClears := fun _ _ _ => rfl

/-- Settles O20, from the table's rows: no two have the same code. -/
theorem errorCodesAreTheNine : Obligations.ErrorCodesAreTheNine :=
  ⟨rfl, rfl, rfl, rfl, rfl, rfl, rfl, rfl, rfl, ErrCause.code_ne_zero,
    fun _ _ h => ErrCause.code_injective h⟩

/-- Settles O22: the word of `CLEAR` is that of the encoder. -/
theorem faultIgnoresEveryWordButClear : Obligations.FaultIgnoresEveryWordButClear :=
  fun _ _ hs hw => execWord_fault hs hw

end
